-- ==== Sys2Proof/Word.lean ====
section
/-! DEFINITION. The word types of the block (00_scope.md R11: a byte is 8 bits, a word 16 bits; 92_eei_decisions.md D38:
every word address of the flash fits in 12 bits) and the arithmetic test the build parameters are checked with. -/

namespace Sys2Proof

/-- A byte (R11). -/
abbrev Byte := BitVec 8

/-- A 16-bit word: a CPU instruction word, or a byte address before it is taken mod FLASH_BYTES (R11, R60). -/
abbrev Word := BitVec 16

/-- A word address of the flash: at most 4096 words, so 12 bits (R100, D38). -/
abbrev WordAddr := BitVec 12

/-- `n` is a power of two (the constraint of PAGE_SIZE, FLASH_BYTES, RX_CAP and TX_CAP in R9). -/
abbrev IsPow2 (n : Nat) : Prop := n = 2 ^ n.log2

end Sys2Proof
end

