-- ==== Sys2Proof/Config.lean ====
section
/-! DEFINITION. The build-time configuration (00_scope.md R8, R9), the constants derived from it (R10), the free values
the spec leaves open, and the configuration the reset state stands in. -/

namespace Sys2Proof

/-- HANDSHAKE of R9. -/
inductive Handshake where
  | oneStep
  | twoStep
deriving DecidableEq, Repr

/-- RESTART_MODE of R9: how the block restarts after the safety erase (R209). -/
inductive RestartMode where
  | watchdog
  | directJump
deriving DecidableEq, Repr

/-- The seven commands of the frame-length table R94. -/
inductive Command where
  | getVersion
  | exit
  | deleteFlash
  | setPageAddr
  | writePage
  | readFlash
  | softInit
deriving DecidableEq, Repr

/-- Every named parameter of R9. The spec gives none of the values, so nothing here has a default.
`features` holds FEATURES[0..NUM_FEATURE_BYTES-1]; EMPTY_FLASH_REPORT, a function, is `Config.emptyFlashReport` below. -/
structure Config where
  /-- OWN_ADDR -/
  ownAddr : BitVec 7
  /-- PAGE_SIZE -/
  pageSize : Nat
  /-- PACKET_SIZE -/
  packetSize : Nat
  /-- FLASH_BYTES -/
  flashBytes : Nat
  /-- BOOT_START -/
  bootStart : Nat
  /-- RX_CAP -/
  rxCap : Nat
  /-- TX_CAP -/
  txCap : Nat
  /-- HANDSHAKE -/
  handshake : Handshake
  /-- AUTO_PAGE_ADDR -/
  autoPageAddr : Bool
  /-- APP_USES_TRAMPOLINE_PAGE -/
  appUsesTrampolinePage : Bool
  /-- ERASE_BEFORE_WRITE -/
  eraseBeforeWrite : Bool
  /-- RESTART_MODE -/
  restartMode : RestartMode
  /-- FEATURE_READ_FLASH -/
  featureReadFlash : Bool
  /-- READ_MAX -/
  readMax : Nat
  /-- FEATURE_EMPTY_CHECK -/
  featureEmptyCheck : Bool
  /-- AUTO_LAUNCH_PASSES; 0 = never -/
  autoLaunchPasses : Nat
  /-- SIGNATURE -/
  signature : Byte
  /-- VERSION_MAJOR -/
  versionMajor : Byte
  /-- VERSION_MINOR -/
  versionMinor : Byte
  /-- FEATURES[0..NUM_FEATURE_BYTES-1] -/
  features : List Byte
  /-- LOW_FUSE -/
  lowFuse : Byte
  /-- CALIBRATION -/
  calibration : Byte
  /-- OPC_GET_VERSION -/
  opcGetVersion : Byte
  /-- OPC_EXIT -/
  opcExit : Byte
  /-- OPC_DELETE_FLASH -/
  opcDeleteFlash : Byte
  /-- OPC_SET_PAGE_ADDR -/
  opcSetPageAddr : Byte
  /-- OPC_WRITE_PAGE -/
  opcWritePage : Byte
  /-- OPC_READ_FLASH -/
  opcReadFlash : Byte
  /-- OPC_SOFT_INIT -/
  opcSoftInit : Byte
  /-- ACK_GET_VERSION -/
  ackGetVersion : Byte
  /-- ACK_EXIT -/
  ackExit : Byte
  /-- ACK_DELETE_FLASH -/
  ackDeleteFlash : Byte
  /-- ACK_SET_PAGE_ADDR -/
  ackSetPageAddr : Byte
  /-- ACK_WRITE_PAGE -/
  ackWritePage : Byte
  /-- ACK_READ_FLASH -/
  ackReadFlash : Byte
  /-- ACK_SOFT_INIT -/
  ackSoftInit : Byte
  /-- UNKNOWN_CMD -/
  unknownCmd : Byte
  /-- HOST_READ_MISMATCH_LIMIT: "a host parameter, not block state" (R9); no rule of the block reads it (R20 H6). -/
  hostReadMismatchLimit : Nat
deriving DecidableEq, Repr

namespace Config

/-- NUM_FEATURE_BYTES (R9). -/
def numFeatureBytes (c : Config) : Nat := c.features.length

/-- PAGE_MASK = PAGE_SIZE - 1 (R10), at the 16 bits of an address. -/
def pageMask (c : Config) : Word := BitVec.ofNat 16 (c.pageSize - 1)

/-- TRAMP_PAGE = BOOT_START - PAGE_SIZE (R10). -/
def trampPage (c : Config) : Nat := c.bootStart - c.pageSize

/-- TRAMP_SLOT = BOOT_START - 2 (R10). -/
def trampSlot (c : Config) : Nat := c.bootStart - 2

/-- APP_LIMIT (R10). -/
def appLimit (c : Config) : Nat := if c.appUsesTrampolinePage then c.bootStart else c.trampPage

/-- B_WORD = BOOT_START / 2 (R10). -/
def bWord (c : Config) : Nat := c.bootStart / 2

/-- B_WORD as a word address; FLASH_BYTES ≤ 8192 makes it fit (R9, D38). -/
def bootWord (c : Config) : WordAddr := BitVec.ofNat 12 c.bWord

/-- B_WORD - 1, the word address of the trampoline slot (R61, R248). -/
def trampWord (c : Config) : WordAddr := BitVec.ofNat 12 (c.bWord - 1)

/-- The "present when" column of R94. -/
def present (c : Config) : Command → Bool
  | .getVersion | .exit | .deleteFlash | .writePage => true
  | .setPageAddr => !c.autoPageAddr
  | .readFlash => c.featureReadFlash
  | .softInit => c.handshake = .twoStep

/-- The "opcode parameter" column of R94. -/
def opcode (c : Config) : Command → Byte
  | .getVersion => c.opcGetVersion
  | .exit => c.opcExit
  | .deleteFlash => c.opcDeleteFlash
  | .setPageAddr => c.opcSetPageAddr
  | .writePage => c.opcWritePage
  | .readFlash => c.opcReadFlash
  | .softInit => c.opcSoftInit

/-- The "total length L(op)" column of R94. -/
def frameLength (c : Config) : Command → Nat
  | .getVersion | .exit | .deleteFlash | .softInit => 1
  | .setPageAddr => 3
  | .writePage => c.packetSize + 2
  | .readFlash => 5

/-- The commands, in the order of R94. -/
def commands : List Command :=
  [.getVersion, .exit, .deleteFlash, .setPageAddr, .writePage, .readFlash, .softInit]

/-- The command present in the configuration whose opcode is `op`; none for an unknown opcode (R104). -/
def commandOf (c : Config) (op : Byte) : Option Command :=
  commands.find? fun k => c.present k && c.opcode k == op

/-- The longest command frame (R112). -/
def longestFrame (c : Config) : Nat :=
  max (c.packetSize + 2) (max (if c.featureReadFlash then 5 else 0) (if c.autoPageAddr then 1 else 3))

/-- The longest reply (R113). -/
def longestReply (c : Config) : Nat :=
  max (10 + c.numFeatureBytes + (if c.featureEmptyCheck then 1 else 0))
    (max (if c.featureReadFlash then c.readMax + 2 else 0) 2)

/-- The opcode parameters, which R9 makes pairwise distinct. -/
def opcodes (c : Config) : List Byte := commands.map c.opcode

/-- The acknowledge parameters and UNKNOWN_CMD, which R9 makes pairwise distinct. -/
def answers (c : Config) : List Byte :=
  [c.unknownCmd, c.ackGetVersion, c.ackExit, c.ackDeleteFlash, c.ackSetPageAddr, c.ackWritePage, c.ackReadFlash,
    c.ackSoftInit]

/-- "The constraints every legal configuration meets" (R9; the bounds of RX_CAP and TX_CAP are those of R112 and R113,
log entry 20). -/
abbrev Legal (c : Config) : Prop :=
  c.ownAddr ≠ 0#7 ∧
  (IsPow2 c.pageSize ∧ 2 ≤ c.pageSize ∧ c.pageSize ≤ 128) ∧
  (1 ≤ c.packetSize ∧ c.packetSize ≤ c.pageSize) ∧
  (IsPow2 c.flashBytes ∧ c.flashBytes ≤ 8192) ∧
  (c.bootStart % c.pageSize = 0 ∧ 2 * c.pageSize ≤ c.bootStart ∧ c.bootStart < c.flashBytes) ∧
  (IsPow2 c.rxCap ∧ c.longestFrame ≤ c.rxCap) ∧
  (IsPow2 c.txCap ∧ c.longestReply ≤ c.txCap) ∧
  (1 ≤ c.readMax ∧ c.readMax + 2 ≤ c.txCap) ∧
  1 ≤ c.numFeatureBytes ∧
  c.opcodes.Nodup ∧
  c.answers.Nodup ∧
  1 ≤ c.hostReadMismatchLimit

/-- A byte the spec leaves unspecified ("a draw", R49; R303: "free inputs under no law"): the `n`-th draw of the run.
No body: no proof can learn a value of it (log entry 4). -/
opaque freeByte : Nat → Byte

/-- EMPTY_FLASH_REPORT of R9, "function from the flash contents to the empty-flash byte", OPEN: an uninterpreted function
of the build and of the flash contents, which are the canonical list of the bytes that are not erased (log entry 19). -/
opaque emptyFlashReport : Config → List (Nat × Byte) → Byte

/-- The configuration of the reset state: the reference configuration D56, with the bytes D56 leaves symbolic (opcodes,
acknowledge bytes, Get-Version constants) given values of this model's own (DESIGN CHOICE, log entry 2). -/
def reference : Config where
  ownAddr := 0x0B#7
  pageSize := 64
  packetSize := 8
  flashBytes := 8192
  bootStart := 0x1A00
  rxCap := 16
  txCap := 16
  handshake := .oneStep
  autoPageAddr := true
  appUsesTrampolinePage := false
  eraseBeforeWrite := true
  restartMode := .directJump
  featureReadFlash := true
  readMax := 8
  featureEmptyCheck := false
  autoLaunchPasses := 0
  signature := 0x54#8
  versionMajor := 0x01#8
  versionMinor := 0x02#8
  features := [0x03#8, 0x04#8]
  lowFuse := 0x62#8
  calibration := 0x70#8
  opcGetVersion := 0x41#8
  opcExit := 0x42#8
  opcDeleteFlash := 0x43#8
  opcSetPageAddr := 0x44#8
  opcWritePage := 0x45#8
  opcReadFlash := 0x46#8
  opcSoftInit := 0x47#8
  ackGetVersion := 0xA1#8
  ackExit := 0xA2#8
  ackDeleteFlash := 0xA3#8
  ackSetPageAddr := 0xA4#8
  ackWritePage := 0xA5#8
  ackReadFlash := 0xA6#8
  ackSoftInit := 0xA7#8
  unknownCmd := 0xE0#8
  hostReadMismatchLimit := 3

end Config

end Sys2Proof
end

