-- ==== Sys2Proof/Syntax.lean ====
section
/-! DEFINITION. The instructions: one constructor per row of spec/opcode_table.json. The table has three encoding spaces
(30_encoding.md): command frames, bus address bytes, and the CPU jump words the block synthesises. -/

namespace Sys2Proof

/-- One instruction of the block. -/
inductive Instr where
  /-- GET_VERSION, `{OPC_GET_VERSION}` (R161). -/
  | getVersion
  /-- EXIT, `{OPC_EXIT}` (R162). -/
  | exit
  /-- DELETE_FLASH, `{OPC_DELETE_FLASH}` (R163). -/
  | deleteFlash
  /-- SET_PAGE_ADDR, `{OPC_SET_PAGE_ADDR, addrHi, addrLo}` (R166). -/
  | setPageAddr (addrHi addrLo : Byte)
  /-- WRITE_PAGE, `{OPC_WRITE_PAGE, d_0, …, d_{PACKET_SIZE-1}, cs}` (R167). -/
  | writePage (d : List Byte) (cs : Byte)
  /-- READ_FLASH, `{OPC_READ_FLASH, addrHi, addrLo, len, rcs}` (R168). -/
  | readFlash (addrHi addrLo len rcs : Byte)
  /-- SOFT_INIT, `{OPC_SOFT_INIT}` (R169). -/
  | softInit
  /-- UNKNOWN: a frame whose opcode is not a present command's, or that is shorter than its opcode needs (R160, R171). -/
  | unknown (op : Byte) (rest : List Byte)
  /-- ADDR_READ, the address byte `aaaaaaa1` (R90, R124; R123 where `a` is another device's address). -/
  | addrRead (a : BitVec 7)
  /-- ADDR_WRITE, the address byte `aaaaaaa0` (R90, R125; R123 where `a` is another device's address). -/
  | addrWrite (a : BitVec 7)
  /-- ADDR_BROADCAST, the address byte 0x00 (R91, R125). -/
  | addrBroadcast
  /-- RJMP, the CPU word `1100 kkkk kkkk kkkk` (R100). -/
  | rjmp (k : BitVec 12)
  /-- ENTRY_JUMP, the relative jump at flash word 0 whose target is B_WORD (R101). -/
  | entryJump (k : BitVec 12)
  /-- TRAMPOLINE, the relative jump at flash word B_WORD - 1 (R203). -/
  | trampoline (k : BitVec 12)
deriving DecidableEq, Repr

/-- Where an encoding is read: the three encoding spaces of 30_encoding.md. A CPU word has a word address, which tells an
entry jump and a trampoline from another relative jump (opcode_table.json, "format"). -/
inductive Space where
  /-- The first byte of a bus transaction (R90). -/
  | address
  /-- The bytes of RX at dispatch (R93, R160). -/
  | frame
  /-- The CPU instruction word at word address `w` (R71, R100). -/
  | cpu (w : WordAddr)
deriving DecidableEq, Repr

end Sys2Proof
end

