-- ==== Sys2Proof/WellFormed.lean ====
section
/-! DEFINITION. Which instructions a configuration admits, and where each is encoded. -/

namespace Sys2Proof

/-- `k = (B_WORD - 1) mod 4096`, the displacement of the bootloader-entry jump (R101). -/
def Config.entryDisp (c : Config) : BitVec 12 := BitVec.ofNat 12 (c.bWord - 1)

/-- `i` is an instruction of a block built with `c`: the command is present (R94) and its operands have the lengths of R94;
UNKNOWN is a frame that no present command answers (R160); the address byte 0x00 is ADDR_BROADCAST and not an ADDR_WRITE
(R91); ENTRY_JUMP has the one displacement of R101. -/
def Instr.wf (c : Config) : Instr → Bool
  | .getVersion | .exit | .deleteFlash => true
  | .setPageAddr _ _ => c.present .setPageAddr
  | .writePage d _ => d.length == c.packetSize
  | .readFlash _ _ _ _ => c.present .readFlash
  | .softInit => c.present .softInit
  | .unknown op rest =>
    match c.commandOf op with
    | none => true
    | some k => decide (rest.length + 1 < c.frameLength k)
  | .addrRead _ | .addrBroadcast => true
  | .addrWrite a => a != 0#7
  | .rjmp _ | .trampoline _ => true
  | .entryJump k => k == c.entryDisp

/-- The space an instruction is encoded in, and, for a CPU word, the word addresses at which it stands: an entry jump at
word 0 (R101), a trampoline at word B_WORD - 1 (R203, R204), a plain relative jump wherever the word is neither. -/
def Instr.standsIn (c : Config) (i : Instr) : Space → Bool
  | .address =>
    match i with
    | .addrRead _ | .addrWrite _ | .addrBroadcast => true
    | .getVersion | .exit | .deleteFlash | .setPageAddr _ _ | .writePage _ _ | .readFlash _ _ _ _ | .softInit
    | .unknown _ _ | .rjmp _ | .entryJump _ | .trampoline _ => false
  | .frame =>
    match i with
    | .getVersion | .exit | .deleteFlash | .setPageAddr _ _ | .writePage _ _ | .readFlash _ _ _ _ | .softInit
    | .unknown _ _ => true
    | .addrRead _ | .addrWrite _ | .addrBroadcast | .rjmp _ | .entryJump _ | .trampoline _ => false
  | .cpu w =>
    match i with
    | .rjmp k => w != c.trampWord && !(w == 0#12 && k == c.entryDisp)
    | .entryJump _ => w == 0#12 && w != c.trampWord
    | .trampoline _ => w == c.trampWord
    | .getVersion | .exit | .deleteFlash | .setPageAddr _ _ | .writePage _ _ | .readFlash _ _ _ _ | .softInit
    | .unknown _ _ | .addrRead _ | .addrWrite _ | .addrBroadcast => false

end Sys2Proof
end

