-- ==== Sys2Proof/Decode.lean ====
section
/-! DEFINITION. The decoder of the three encoding spaces, total on any bytes, and the encoder. -/

namespace Sys2Proof

/-! ## Bytes of a word (20_memory.md R70, R71) -/

/-- `w[7:0]`. -/
def loByte (w : Word) : Byte := w.extractLsb' 0 8

/-- `w[15:8]`. -/
def hiByte (w : Word) : Byte := w.extractLsb' 8 8

/-- `(hi << 8) | lo`: a 16-bit operand (R96) or an instruction word (R71) from its two bytes. -/
def wordOf (hi lo : Byte) : Word := hi ++ lo

/-- The short relative jump word `1100 kkkk kkkk kkkk`: JUMP_OPCODE_BASE | k (R100). -/
def jumpWord (k : BitVec 12) : Word := 0xC#4 ++ k

/-- EntryJump = JUMP_OPCODE_BASE | ((B_WORD - 1) mod 4096) (R101). -/
def entryJumpWord (c : Config) : Word := jumpWord c.entryDisp

/-! ## Decoding -/

/-- Why bytes are no instruction of their space. -/
inductive DecodeError where
  /-- No byte at all: an empty RX at dispatch is no frame (R160). -/
  | empty
  /-- An address is exactly one byte (R90), a CPU word exactly two (R71). -/
  | wrongLength
  /-- A CPU word whose bits 15:12 are not 1100: another CPU instruction, which is out of scope (R5, R100). -/
  | notARelativeJump
deriving DecidableEq, Repr

/-- R90, R91: bit 0 is the direction, 1 = read; bits 7:1 the address; the byte 0x00 the broadcast pattern. -/
def decodeAddress (a : Byte) : Instr :=
  if a.getLsbD 0 then .addrRead (a.extractLsb' 1 7)
  else if a = 0x00#8 then .addrBroadcast
  else .addrWrite (a.extractLsb' 1 7)

/-- The operands of a frame that is long enough (R94, R96): `rest` is what follows the opcode, and what follows the
operands is discarded (R160). -/
def decodeOperands (c : Config) (k : Command) (rest : List Byte) : Instr :=
  match k with
  | .getVersion => .getVersion
  | .exit => .exit
  | .deleteFlash => .deleteFlash
  | .setPageAddr => .setPageAddr (rest.getD 0 0) (rest.getD 1 0)
  | .writePage => .writePage (rest.take c.packetSize) (rest.getD c.packetSize 0)
  | .readFlash => .readFlash (rest.getD 0 0) (rest.getD 1 0) (rest.getD 2 0) (rest.getD 3 0)
  | .softInit => .softInit

/-- R160: the opcode decides; an opcode that is no present command's and a frame shorter than L(op) are UNKNOWN. -/
def decodeFrame (c : Config) : List Byte → Except DecodeError Instr
  | [] => .error .empty
  | op :: rest =>
    match c.commandOf op with
    | none => .ok (.unknown op rest)
    | some k => if rest.length + 1 < c.frameLength k then .ok (.unknown op rest) else .ok (decodeOperands c k rest)

/-- The CPU word `x` at word address `w`: a relative jump (R100), which at word B_WORD - 1 is the trampoline (R203) and at
word 0 with the displacement of R101 the bootloader-entry jump. -/
def decodeJump (c : Config) (w : WordAddr) (x : Word) : Except DecodeError Instr :=
  let k := x.extractLsb' 0 12
  if x.extractLsb' 12 4 ≠ 0xC#4 then .error .notARelativeJump
  else if w = c.trampWord then .ok (.trampoline k)
  else if w = 0#12 ∧ k = c.entryDisp then .ok (.entryJump k)
  else .ok (.rjmp k)

/-- The decoder: the instruction the bytes are in their space. -/
def decode (c : Config) (sp : Space) (bs : List Byte) : Except DecodeError Instr :=
  match sp with
  | .address =>
    match bs with
    | [] => .error .empty
    | [a] => .ok (decodeAddress a)
    | _ => .error .wrongLength
  | .frame => decodeFrame c bs
  | .cpu w =>
    match bs with
    | [] => .error .empty
    | [lo, hi] => decodeJump c w (wordOf hi lo)
    | _ => .error .wrongLength

/-! ## Encoding -/

/-- The two bytes of a CPU word, least significant first (R71). -/
def wordBytes (x : Word) : List Byte := [loByte x, hiByte x]

/-- The bytes of an instruction in its space: frames by R93 and R94, address bytes by R90 and R91, jump words by R100. -/
def encode (c : Config) : Instr → List Byte
  | .getVersion => [c.opcGetVersion]
  | .exit => [c.opcExit]
  | .deleteFlash => [c.opcDeleteFlash]
  | .setPageAddr hi lo => [c.opcSetPageAddr, hi, lo]
  | .writePage d cs => c.opcWritePage :: (d ++ [cs])
  | .readFlash hi lo len rcs => [c.opcReadFlash, hi, lo, len, rcs]
  | .softInit => [c.opcSoftInit]
  | .unknown op rest => op :: rest
  | .addrRead a => [a ++ 1#1]
  | .addrWrite a => [a ++ 0#1]
  | .addrBroadcast => [0x00#8]
  | .rjmp k => wordBytes (jumpWord k)
  | .entryJump k => wordBytes (jumpWord k)
  | .trampoline k => wordBytes (jumpWord k)

/-! ## The table's numbering -/

/-- The first `n` bytes of a number, least significant first. -/
def bytesOf : Nat → Nat → List Byte
  | 0, _ => []
  | n + 1, w => BitVec.ofNat 8 w :: bytesOf n (w / 256)

/-- The word address at which a table word of 16 bits is read: word 0 for the entry jump's one word, word 1 for another
(log entry 24). -/
def tableWordAddr (c : Config) (x : Word) : WordAddr := if x = entryJumpWord c then 0#12 else 1#12

/-- The space a table row of `nbits` bits is read in: 8 bits an address byte, 16 a CPU word, longer a command frame
(log entry 24). -/
def tableSpace (c : Config) (nbits w : Nat) : Space :=
  if nbits = 8 then .address
  else if nbits = 16 then .cpu (tableWordAddr c (BitVec.ofNat 16 w))
  else .frame

/-- The instruction the decoder reads from the `nbits` bits `w` of an opcode-table row, in the configuration of the reset
state: byte 0 is the first byte on the bus, and a CPU word is laid out with its least significant byte first (R71). -/
def decodeTableWord (nbits w : Nat) : Option Instr :=
  match decode Config.reference (tableSpace Config.reference nbits w) (bytesOf (nbits / 8) w) with
  | .ok i => some i
  | .error _ => none

end Sys2Proof
end

