-- ==== Sys2Proof/Machine/State.lean ====
section
/-! DEFINITION. The state of the block (10_state.md), the reasons a step can stop, and the reset state (R49). Plain data
throughout: no field holds a function. -/

namespace Sys2Proof.Machine

open Sys2Proof

/-- The six transport phases, the source's OverflowState (R31). -/
inductive Phase where
  | checkAddress
  | sendData
  | waitAckAfterSend
  | checkAck
  | waitReceive
  | receiveAndAck
deriving DecidableEq, Repr

/-- `bitCount ∈ {8, 1}`: the bit clocks after which the peripheral sets its shift-complete flag (R32). -/
inductive BitCount where
  | eight
  | one
deriving DecidableEq, Repr

/-- The independent bits of the flags register (R35). -/
inductive Flag where
  | init1
  | init2
  | deleteFlash
  | exitToApp
  | slowOpsReady
deriving DecidableEq, Repr

/-- `run ∈ {Running, Launched(w)}` (R41). -/
inductive Run where
  | running
  | launched (w : WordAddr)
deriving DecidableEq, Repr

/-- A ring buffer (R38, R39): the buffer and its head, tail and count. -/
structure Ring where
  buf : List Byte
  head : Nat
  tail : Nat
  count : Nat
deriving DecidableEq, Repr

/-- The shift-register peripheral's side of the interface (R44, R264). `shifted`, the bits clocked since `ovfFlag` was last
cleared, is the count that R264's definition of `ovfFlag` speaks of. The level `sda` of the data line is no field: it is what
`State.sda` computes from `hostSda`, the level the host leaves on the line, and what the block drives. -/
structure Periph where
  startFlag : Bool
  ovfFlag : Bool
  stopFlag : Bool
  scl : Bool
  /-- What the host leaves on the data line: false where it pulls it low, true where it releases it (log entry 29). -/
  hostSda : Bool
  dr : Byte
  shifted : Nat
deriving DecidableEq, Repr

/-- The flash (R43): the list of the bytes that are not erased, by rising address. What an unlisted address reads as is
`erased`. -/
abbrev Memory := List Host.Cell

/-- What an unlisted address of the flash reads as: the erased value 0xFF (R63; log entry 5). -/
def erased : Byte := 0xFF#8

/-- What the remote host does on the bus (R6, R20): the events that the peripheral's flags are defined by (R264). -/
inductive BusEvent where
  /-- A start or repeated start: the data line falls while the clock line is high. -/
  | start
  /-- A stop: the data line rises while the clock line is high. -/
  | stop
  /-- The host pulls the clock line low. -/
  | clockLow
  /-- One bit clock; `bit` is the level the host leaves on the data line (true where it releases it). -/
  | clock (bit : Bool)
deriving DecidableEq, Repr

/-- What happens outside the block between two passes. -/
inductive Turn where
  /-- The host's bus events, in order; none where the bus is quiet. -/
  | bus (events : List BusEvent)
  /-- A reset from outside: power-up or a watchdog reset (R290). -/
  | reset
deriving DecidableEq, Repr

/-- The state. `cfg`, `cpu`, `restarting`, `interruptsEnabled`, `draws`, `host` and `seen` are the model's own fields; the
others are those of R30. -/
structure State where
  /-- The build-time parameters, "fixed for the life of the hardware" (R30): no step changes them (log entry 1). -/
  cfg : Config
  /-- R31 -/
  phase : Phase
  /-- R32 -/
  armed : Bool
  /-- R32 -/
  sdaDrive : Bool
  /-- R32 -/
  bitCount : BitCount
  /-- R33 -/
  pageAddress : Word
  /-- R34 -/
  pageIndex : Byte
  /-- R35 -/
  flags : Byte
  /-- R36 -/
  appResetLsb : Byte
  /-- R36 -/
  appResetMsb : Byte
  /-- R37 -/
  stage : List Byte
  /-- R38 -/
  rx : Ring
  /-- R39 -/
  tx : Ring
  /-- R40 -/
  idleCount : Nat
  /-- R41 -/
  run : Run
  /-- R43 -/
  flash : Memory
  /-- R44 -/
  periph : Periph
  /-- The global interrupt enable that boot clears "once and never re-enabled" (R263, R292; log entry 26). -/
  interruptsEnabled : Bool
  /-- The block has erased the flash and waits for the watchdog (R209, RESTART_MODE = Watchdog; log entry 10). -/
  restarting : Bool
  /-- The word address the microcontroller's CPU is about to execute outside the block's own code; none while it runs the
  block (R100, R248, R291; log entry 13). -/
  cpu : Option WordAddr
  /-- How many unspecified bytes have been drawn (log entry 4). -/
  draws : Nat
  /-- What the outside will do before each coming pass; an empty list is a quiet bus (R6, R20; log entry 7). -/
  host : List Turn
  /-- The data-line level of every bit clocked so far, the latest first: what the host has seen (R20, R75; log entry 16). -/
  seen : List Bool
deriving DecidableEq, Repr

/-- Why a step stops with a fault. -/
inductive Fault where
  /-- Raised by `step` on a launched block: "When `S.run = Launched(w)`, it has no step" (R240, R248). Safe: the block's run
  has ended. -/
  | launched (w : WordAddr)
  /-- Raised by the meanings of the jump words when the CPU runs the block itself: "The block fetches no instructions" (R73),
  so it stands at no jump word. Safe: no next state is given. -/
  | cpuInBlock
deriving DecidableEq, Repr

/-- Why a step is refused. -/
inductive Refusal where
  /-- Raised by exec for an instruction without a meaning. Safe. -/
  | notModelled (mnemonic : String)
  /-- Raised by the delivery of a bus event that breaks host duty H4 (R20, R302): "A model must not give such a run a
  meaning: it refuses the run" (R303). Safe. -/
  | quietGapBroken
  /-- Raised by the delivery of a bit clock that breaks host duty H5 (R20, R300; R303 as above). Safe. -/
  | realTimeBroken
  /-- Raised by `step` where the CPU stands, outside the block, at a word that is no short relative jump: "The CPU
  instruction set of the microcontroller" is out of scope (R5). Safe. -/
  | cpuInstruction (x : Word)
deriving DecidableEq, Repr

/-- The outcome of a step or of one instruction. -/
abbrev Result := Host.Outcome State Fault Refusal

/-- The values of the fields R49 leaves unspecified ("draw"). -/
structure Draw where
  stage : List Byte
  appResetLsb : Byte
  appResetMsb : Byte
  rxBuf : List Byte
  txBuf : List Byte
  dr : Byte
deriving DecidableEq, Repr

/-- An empty ring buffer over the given contents: `head = tail = count = 0` (R38, R39). -/
def Ring.empty (buf : List Byte) : Ring := { buf := buf, head := 0, tail := 0, count := 0 }

/-- The reset state R49, after the boot sequence R292: every field at its reset value, the unspecified ones from `d`. The
configuration, the flash ("unchanged by reset"), what the host leaves on the lines ("inputs", R44) and what belongs to the
outside are given. -/
def State.resetWith (c : Config) (flash : Memory) (d : Draw) (scl hostSda : Bool) (draws : Nat) (host : List Turn)
    (seen : List Bool) : State where
  cfg := c
  phase := .checkAddress
  armed := false
  sdaDrive := false
  bitCount := .eight
  pageAddress := 0x0000#16
  pageIndex := 0#8
  flags := 0x00#8
  appResetLsb := d.appResetLsb
  appResetMsb := d.appResetMsb
  stage := d.stage
  rx := Ring.empty d.rxBuf
  tx := Ring.empty d.txBuf
  idleCount := 0
  run := .running
  flash := flash
  periph :=
    { startFlag := false, ovfFlag := false, stopFlag := false, scl := scl, hostSda := hostSda, dr := d.dr, shifted := 0 }
  interruptsEnabled := false
  restarting := false
  cpu := none
  draws := draws
  host := host
  seen := seen

/-- The values the model names for the unspecified fields of the power-up state: zero (DESIGN CHOICE, log entry 3). -/
def Draw.zero (c : Config) : Draw where
  stage := List.replicate c.pageSize 0x00#8
  appResetLsb := 0x00#8
  appResetMsb := 0x00#8
  rxBuf := List.replicate c.rxCap 0x00#8
  txBuf := List.replicate c.txCap 0x00#8
  dr := 0x00#8

/-- The machine right after power-up: the reset state R49 of the reference configuration (log entry 2), the flash wholly
erased (log entry 5), both bus lines released (log entry 6). -/
def State.reset : State :=
  State.resetWith Config.reference [] (Draw.zero Config.reference) true true 0 [] []

end Sys2Proof.Machine
end

