-- ==== Sys2Proof/Machine/Flags.lean ====
section
/-! DEFINITION. The flags register (10_state.md R35) and the handshake gate (41_dispatcher.md R172, 43_scheduler.md R243). -/

namespace Sys2Proof.Machine

open Sys2Proof

/-- The bit positions of R35. -/
def Flag.pos : Flag → Nat
  | .init1 => 0
  | .init2 => 1
  | .deleteFlash => 2
  | .exitToApp => 3
  | .slowOpsReady => 4

/-- The register value with only this bit set. -/
def Flag.mask (f : Flag) : Byte := 1#8 <<< f.pos

/-- `S.flags.f` (R35). -/
def State.flag (s : State) (f : Flag) : Bool := s.flags.getLsbD f.pos

/-- `S.flags.f <- 1` (R35). -/
def State.raise (s : State) (f : Flag) : State := { s with flags := s.flags ||| f.mask }

/-- `S.flags.f <- 0` (R35). -/
def State.lower (s : State) (f : Flag) : State := { s with flags := s.flags &&& ~~~f.mask }

/-- REQUIRED_INIT (R10). -/
def requiredInit : Handshake → List Flag
  | .oneStep => [.init1]
  | .twoStep => [.init1, .init2]

/-- `Initialized(S) = REQUIRED_INIT ⊆ S.flags` (R243, R172). -/
def initialized (s : State) : Bool := (requiredInit s.cfg.handshake).all s.flag

end Sys2Proof.Machine
end

