-- ==== Sys2Proof/Machine/Operands.lean ====
section
/-! DEFINITION. The operand forms of the spec: address-byte matching (R91), acknowledgment bits (R92), checksums (R95), the
relative jump's target (R100) and the trampoline word (R203). -/

namespace Sys2Proof.Machine

open Sys2Proof

/-- `Match(a) = (a[7:1] = OWN_ADDR) or (a = 0x00)` (R91). -/
def matchesAddr (c : Config) (a : Byte) : Bool := a.extractLsb' 1 7 == c.ownAddr || a == 0x00#8

/-- `IsRead(a) = Match(a) and a[0] = 1` (R91). -/
def isRead (c : Config) (a : Byte) : Bool := matchesAddr c a && a.getLsbD 0

/-- `IsWrite(a) = Match(a) and a[0] = 0` (R91). -/
def isWrite (c : Config) (a : Byte) : Bool := matchesAddr c a && !a.getLsbD 0

/-- `Checksum(b_1, …, b_n) = (b_1 + … + b_n) mod 256` (R95). -/
def checksum (bs : List Byte) : Byte := BitVec.ofNat 8 (bs.map BitVec.toNat).sum

/-- `target(w, k) = (w + 1 + sext_12(k)) mod 4096` (R100). -/
def jumpTarget (w : WordAddr) (k : BitVec 12) : WordAddr := BitVec.ofInt 12 (w.toNat + 1 + k.toInt)

/-- JUMP_OPCODE_BASE (R10, D18). -/
def jumpOpcodeBase : Nat := 0xC000

/-- `Tramp(lsb, msb)` (R203), on unbounded integers as the rule writes it. -/
def tramp (c : Config) (lsb msb : Byte) : Word :=
  let orig : Nat := (wordOf msb lsb).toNat
  let target : Nat := (orig + 1) % 4096
  let disp : Int := (c.bWord : Int) - target
  BitVec.ofNat 16 (((-disp) % 4096).toNat ||| jumpOpcodeBase)

end Sys2Proof.Machine
end

