-- ==== Sys2Proof/Machine/Ops.lean ====
section
/-! DEFINITION. The named operations over the block's storage: the flash (20_memory.md R62 to R64), the ring buffers (R66 to
R68), the peripheral's configuration (40_transport.md R121), replies (41_dispatcher.md), the launch (43_scheduler.md R248)
and the reset (70_reset_and_hazards.md R290, R292), which the spec puts in the place of an exception (60_exceptions.md R260,
R266). -/

namespace Sys2Proof.Machine

open Sys2Proof

/-! ## The flash -/

/-- One flash byte; an unlisted address is erased. -/
def Memory.read (a : Nat) : Memory → Byte
  | [] => erased
  | (b, v) :: m => if a = b then v else Memory.read a m

/-- Store one flash byte, keeping the canonical form: addresses strictly rising, no erased byte listed. -/
def Memory.write (a : Nat) (v : Byte) : Memory → Memory
  | [] => if v = erased then [] else [(a, v)]
  | (b, u) :: m =>
    if a < b then (if v = erased then (b, u) :: m else (a, v) :: (b, u) :: m)
    else if a = b then (if v = erased then m else (a, v) :: m)
    else (b, u) :: Memory.write a v m

/-- The canonical form above a lower bound. -/
def Memory.wfFrom : Nat → Memory → Bool
  | _, [] => true
  | lo, (a, v) :: m => decide (lo ≤ a) && v != erased && Memory.wfFrom (a + 1) m

/-- The canonical form: addresses strictly rising and no entry equal to what an unlisted address reads as. -/
def Memory.wf (m : Memory) : Bool := Memory.wfFrom 0 m

/-- `FlashErasePage(p)`: every byte of the page becomes erased (R63). In the canonical form an erased byte is unlisted. -/
def Memory.erasePage (pageSize p : Nat) (m : Memory) : Memory :=
  m.filter fun c => !(decide (p ≤ c.1) && decide (c.1 < p + pageSize))

/-- `FlashProgram(p, img)`: `Flash[p + i] <- Flash[p + i] & img[i]` for every i (R62). -/
def Memory.program (p : Nat) : List Byte → Memory → Memory
  | [], m => m
  | b :: img, m => Memory.program (p + 1) img (Memory.write p (Memory.read p m &&& b) m)

/-- Erase the `n` pages at 0, PAGE_SIZE, …, the safety erase's range (R208). -/
def Memory.erasePages (pageSize : Nat) : Nat → Memory → Memory
  | 0, m => m
  | n + 1, m => Memory.erasePages pageSize n (Memory.erasePage pageSize (n * pageSize) m)

/-- `FlashRead(a)` returns `Flash[a mod FLASH_BYTES]` (R64). -/
def State.flashRead (s : State) (a : Nat) : Byte := Memory.read (a % s.cfg.flashBytes) s.flash

/-- `MemRead(a, n)`: n successive FlashReads, each address computed as u16 (R12, R64). -/
def State.memRead (s : State) (a : Word) (n : Nat) : List Byte :=
  (List.range n).map fun i => s.flashRead (a + BitVec.ofNat 16 i).toNat

/-- `FlashWord(w) = Flash[2w] | (Flash[2w+1] << 8)` (R64, R71). -/
def State.flashWord (s : State) (w : WordAddr) : Word :=
  wordOf (s.flashRead (2 * w.toNat + 1)) (s.flashRead (2 * w.toNat))

/-- Replace the flash's contents. -/
def State.withFlash (s : State) (m : Memory) : State := { s with flash := m }

/-! ## The ring buffers -/

/-- `Push(Q, b)`: a push into a full buffer drops the byte (R66). -/
def Ring.push (cap : Nat) (b : Byte) (q : Ring) : Ring :=
  if q.count = cap then q
  else { buf := q.buf.set q.head b, head := (q.head + 1) &&& (cap - 1), tail := q.tail, count := q.count + 1 }

/-- Push of each byte in order (41_dispatcher.md, "reply"). -/
def Ring.pushAll (cap : Nat) (q : Ring) : List Byte → Ring
  | [] => q
  | b :: bs => Ring.pushAll cap (q.push cap b) bs

/-- `Pop(Q)` (R67): the byte at the tail, and the buffer without it. -/
def Ring.pop (cap : Nat) (q : Ring) : Byte × Ring :=
  (q.buf.getD q.tail 0, { q with tail := (q.tail + 1) &&& (cap - 1), count := q.count - 1 })

/-- Pop `n` times (R160). -/
def Ring.popN (cap : Nat) : Nat → Ring → List Byte × Ring
  | 0, q => ([], q)
  | n + 1, q =>
    let r := q.pop cap
    let rest := Ring.popN cap n r.2
    (r.1 :: rest.1, rest.2)

/-- The live bytes, first to last: what `count` Pops would return (R67). -/
def Ring.contents (cap : Nat) (q : Ring) : List Byte := (q.popN cap q.count).1

/-- The shape of a ring buffer of capacity `cap` (R38): the indices below the capacity and, with the count, one apart. -/
abbrev Ring.Wf (cap : Nat) (q : Ring) : Prop :=
  q.buf.length = cap ∧ q.head < cap ∧ q.tail < cap ∧ q.count ≤ cap ∧ q.head = (q.tail + q.count) % cap

/-- `n` draws from the `k`-th on (R49, R303). -/
def freeBytes (k n : Nat) : List Byte := (List.range n).map fun i => Config.freeByte (k + i)

/-- `Flush(TX)`: the indices and the count become 0, "the contents of Q.buf become unspecified" (R68). -/
def State.flushTx (s : State) : State :=
  { s with tx := Ring.empty (freeBytes s.draws s.cfg.txCap), draws := s.draws + s.cfg.txCap }

/-- `reply {…}`: Push(TX, ·) of each byte in order (41_dispatcher.md). -/
def State.reply (s : State) (bs : List Byte) : State := { s with tx := Ring.pushAll s.cfg.txCap s.tx bs }

/-- Push(RX, b). -/
def State.receive (s : State) (b : Byte) : State := { s with rx := s.rx.push s.cfg.rxCap b }

/-- RX drained whole (R160). -/
def State.drainRx (s : State) : State := { s with rx := (s.rx.popN s.cfg.rxCap s.rx.count).2 }

/-- The bytes RX holds, first to last: the frame a dispatch takes (R160). -/
def State.frame (s : State) : List Byte := s.rx.contents s.cfg.rxCap

/-! ## The data line -/

/-- The level of the data line while the host leaves `bit` on it: the block pulls it to `dr[7]` when it drives (R264: "the bus
carries dr's bits, MSB first"), and a line that either side pulls low is low (R92; log entry 16). -/
def State.lineLevel (s : State) (bit : Bool) : Bool := bit && (!s.sdaDrive || s.periph.dr.getLsbD 7)

/-- `Periph.sda`, the instantaneous level of the data line (R44, R264), whoever drives it. -/
def State.sda (s : State) : Bool := s.lineLevel s.periph.hostSda

/-! ## The transport's configuration of the peripheral -/

/-- `S.phase <- p`. -/
def State.withPhase (s : State) (p : Phase) : State := { s with phase := p }

/-- `Rearm()` (R121). -/
def State.rearm (s : State) : State :=
  { s with phase := .checkAddress, armed := false, sdaDrive := false, bitCount := .eight }

/-- `SendAck()` (R121): drive one 0 bit. -/
def State.sendAck (s : State) : State :=
  { s with periph := { s.periph with dr := 0x00#8 }, sdaDrive := true, bitCount := .one }

/-- `ReadAck()` (R121): sample one bit into dr[0]. -/
def State.readAck (s : State) : State :=
  { s with periph := { s.periph with dr := 0x00#8 }, sdaDrive := false, bitCount := .one }

/-- `SendByte(b)` (R121): shift b out. -/
def State.sendByte (s : State) (b : Byte) : State :=
  { s with periph := { s.periph with dr := b }, sdaDrive := true, bitCount := .eight }

/-- `ReceiveByte()` (R121): shift 8 bits in. -/
def State.receiveByte (s : State) : State := { s with sdaDrive := false, bitCount := .eight }

/-- `Periph.ovfFlag <- false`, which "lets the peripheral count the next bitCount bits" (R120, R264). -/
def State.clearOvf (s : State) : State := { s with periph := { s.periph with ovfFlag := false, shifted := 0 } }

/-- `Pop(TX)` put on the bus (R127). -/
def State.sendNext (s : State) : State :=
  ({ s with tx := (s.tx.pop s.cfg.txCap).2 } : State).sendByte (s.tx.pop s.cfg.txCap).1

/-! ## Leaving the block, and the reset -/

/-- `launch(w)` (R248): the CPU is handed to word `w` and the block's run ends. -/
def State.launch (s : State) (w : WordAddr) : State := { s with run := .launched w, cpu := some w }

/-- The unspecified fields of a reset, drawn from the `k`-th draw on (R49, R303). -/
def Draw.free (c : Config) (k : Nat) : Draw where
  stage := freeBytes k c.pageSize
  appResetLsb := Config.freeByte (k + c.pageSize)
  appResetMsb := Config.freeByte (k + c.pageSize + 1)
  rxBuf := freeBytes (k + c.pageSize + 2) c.rxCap
  txBuf := freeBytes (k + c.pageSize + 2 + c.rxCap) c.txCap
  dr := Config.freeByte (k + c.pageSize + 2 + c.rxCap + c.txCap)

/-- How many draws a reset takes. -/
def Draw.size (c : Config) : Nat := c.pageSize + 3 + c.rxCap + c.txCap

/-- A reset (R290) and the boot sequence after it (R292): every field at its value in R49, the flash unchanged; the line
levels are inputs (R44), and the host is not reset. -/
def State.boot (s : State) : State :=
  State.resetWith s.cfg s.flash (Draw.free s.cfg s.draws) s.periph.scl s.periph.hostSda (s.draws + Draw.size s.cfg) s.host s.seen

end Sys2Proof.Machine
end

