-- ==== Sys2Proof/Machine/Jumps.lean ====
section
/-! DEFINITION. The relative jump words (30_encoding.md R100, R101; 42_page_writer.md R203): what the microcontroller's CPU
does with a word the block has put into flash. The block itself executes none (R73). -/

namespace Sys2Proof.Machine

open Sys2Proof

/-- The CPU arrives at word `w`: at B_WORD the bootloader starts and runs its boot sequence (R291, R292; log entry 14).
DESIGN CHOICE (log entry 30): in a flash of fewer than 4096 words a target at or past FLASH_BYTES/2 is kept as R100 gives it,
and is no arrival at B_WORD although it may equal it modulo FLASH_BYTES/2. -/
def State.arrive (s : State) (w : WordAddr) : State :=
  if w = s.cfg.bootWord then s.boot else { s with cpu := some w }

/-- A relative jump at the word the CPU stands at (R100). -/
def relativeJump (k : BitVec 12) (s : State) : Result :=
  match s.cpu with
  | some w => .next (s.arrive (jumpTarget w k))
  | none => .fault .cpuInBlock

/-- RJMP (R100). -/
def execRjmp (k : BitVec 12) (s : State) : Result := relativeJump k s

/-- ENTRY_JUMP (R101): a relative jump, at word 0. -/
def execEntryJump (k : BitVec 12) (s : State) : Result := relativeJump k s

/-- TRAMPOLINE (R203): a relative jump, at word B_WORD - 1. -/
def execTrampoline (k : BitVec 12) (s : State) : Result := relativeJump k s

/-- The CPU's fetch at word `w` (R64, R71), a word past the flash read modulo FLASH_BYTES (DESIGN CHOICE, log entry 30). -/
def fetchJump (w : WordAddr) (s : State) : Except Refusal Instr :=
  match decode s.cfg (.cpu w) (wordBytes (s.flashWord w)) with
  | .ok i => .ok i
  | .error _ => .error (.cpuInstruction (s.flashWord w))

/-- A flash word stored as the outside loads it: two bytes, least significant first (R71). -/
def State.loadWord (s : State) (w : WordAddr) (x : Word) : State :=
  s.withFlash
    (Memory.write ((2 * w.toNat + 1) % s.cfg.flashBytes) (hiByte x)
      (Memory.write (2 * w.toNat % s.cfg.flashBytes) (loByte x) s.flash))

end Sys2Proof.Machine
end

