-- ==== Sys2Proof/Machine/Commands.lean ====
section
/-! DEFINITION. The commands of the dispatcher (41_dispatcher.md R161 to R171): one meaning each. A command that the
configuration does not have is UNKNOWN (R94, R105, R171); the decoder never gives one (log entry 22). -/

namespace Sys2Proof.Machine

open Sys2Proof

/-! ## Unknown (R171) -/

/-- `Unknown()`: reply {UNKNOWN_CMD} (R171). -/
def unknownCommand (s : State) : State := s.reply [s.cfg.unknownCmd]

/-- UNKNOWN (R171): the frame's remaining bytes are ignored. -/
def execUnknown (_op : Byte) (_rest : List Byte) (s : State) : Result := .next (unknownCommand s)

/-! ## Get-Version (R161) -/

/-- The Get-Version reply (R99, R161), recomputed at dispatch from the flash and the parameters. -/
def versionReply (s : State) : List Byte :=
  [s.cfg.ackGetVersion, s.cfg.signature, s.cfg.versionMajor, s.cfg.versionMinor] ++ s.cfg.features ++
    [hiByte (BitVec.ofNat 16 s.cfg.bootStart), loByte (BitVec.ofNat 16 s.cfg.bootStart),
      s.flashRead (s.cfg.trampSlot + 1), s.flashRead s.cfg.trampSlot, s.cfg.lowFuse, s.cfg.calibration] ++
    (if s.cfg.featureEmptyCheck then [Config.emptyFlashReport s.cfg s.flash] else [])

/-- The handshake bit Get-Version sets (R161). -/
def versionFlag : Handshake → Flag
  | .oneStep => .init1
  | .twoStep => .init2

/-- `GetVersion()` (R161). -/
def getVersion (s : State) : State := (s.reply (versionReply s)).raise (versionFlag s.cfg.handshake)

/-- GET_VERSION (R161). -/
def execGetVersion (s : State) : Result := .next (getVersion s)

/-! ## Exit-To-Application (R162) -/

/-- `Exit()` (R162): the jump itself happens later, in the scheduler. -/
def exitToApp (s : State) : State := (s.reply [s.cfg.ackExit]).raise .exitToApp

/-- EXIT (R162). -/
def execExit (s : State) : Result := .next (exitToApp s)

/-! ## Delete-Flash (R163) -/

/-- `DeleteFlash()` (R163): the erase itself is deferred to the scheduler. -/
def requestErase (s : State) : State := (s.reply [s.cfg.ackDeleteFlash]).raise .deleteFlash

/-- DELETE_FLASH (R163). -/
def execDeleteFlash (s : State) : Result := .next (requestErase s)

/-! ## Set-Page-Address (R166) -/

/-- `SetPageAddress(addrHi, addrLo)` (R166): the address is masked to its page; the echo is the sum of the operand bytes. -/
def setPageAddress (addrHi addrLo : Byte) (s : State) : State :=
  if s.cfg.present .setPageAddr then
    ({ s with pageAddress := wordOf addrHi addrLo &&& ~~~s.cfg.pageMask } : State).reply
      [s.cfg.ackSetPageAddr, addrHi + addrLo]
  else unknownCommand s

/-- SET_PAGE_ADDR (R166). -/
def execSetPageAddr (addrHi addrLo : Byte) (s : State) : Result := .next (setPageAddress addrHi addrLo s)

/-! ## Write-Page-Data (R167) -/

/-- The destination byte address of the next staged byte, `u16(pageAddress + pageIndex)` (R167). -/
def stageDest (s : State) : Word := s.pageAddress + s.pageIndex.setWidth 16

/-- The loop body of R167: bytes 0 and 1 of the flash are captured and the bootloader-entry jump is staged in their place;
every other byte is staged as received. -/
def stageByte (s : State) (b : Byte) : State :=
  let e := entryJumpWord s.cfg
  let i := s.pageIndex.toNat
  if stageDest s = 0#16 then
    { s with appResetLsb := b, stage := s.stage.set i (loByte e), pageIndex := s.pageIndex + 1#8 }
  else if stageDest s = 1#16 then
    { s with appResetMsb := b, stage := s.stage.set i (hiByte e), pageIndex := s.pageIndex + 1#8 }
  else { s with stage := s.stage.set i b, pageIndex := s.pageIndex + 1#8 }

/-- The loop of R167 over the data bytes. -/
def stageBytes : List Byte → State → State
  | [], s => s
  | b :: d, s => stageBytes d (stageByte s b)

/-- `fits` of R167: the frame's data bytes do not pass the page's end. -/
def fits (d : List Byte) (s : State) : Bool := decide (s.pageIndex.toNat + d.length ≤ s.cfg.pageSize)

/-- `WritePage(d, cs)` (R167). -/
def writePage (d : List Byte) (cs : Byte) (s : State) : State :=
  if fits d s then
    let t := stageBytes d s
    if checksum d = cs then t.reply [s.cfg.ackWritePage, checksum d]
    else (t.raise .deleteFlash).reply [s.cfg.ackWritePage, 0x00#8]
  else (s.raise .deleteFlash).reply [s.cfg.ackWritePage, 0x00#8]

/-- WRITE_PAGE (R167). -/
def execWritePage (d : List Byte) (cs : Byte) (s : State) : Result := .next (writePage d cs s)

/-! ## Read-Flash (R168) -/

/-- The request is valid: its checksum, and a length from 1 to READ_MAX (R168). -/
def readValid (addrHi addrLo len rcs : Byte) (s : State) : Bool :=
  rcs == checksum [addrHi, addrLo, len] && decide (1 ≤ len.toNat) && decide (len.toNat ≤ s.cfg.readMax)

/-- `ReadFlash(addrHi, addrLo, len, rcs)` (R168). -/
def readFlash (addrHi addrLo len rcs : Byte) (s : State) : State :=
  if s.cfg.present .readFlash && readValid addrHi addrLo len rcs s then
    let d := s.memRead (wordOf addrHi addrLo) len.toNat
    s.reply (s.cfg.ackReadFlash :: (d ++ [checksum d]))
  else unknownCommand s

/-- READ_FLASH (R168). -/
def execReadFlash (addrHi addrLo len rcs : Byte) (s : State) : Result := .next (readFlash addrHi addrLo len rcs s)

/-! ## Soft-Init (R169) -/

/-- `SoftInit()` (R169). -/
def softInit (s : State) : State :=
  if s.cfg.present .softInit then (s.reply [s.cfg.ackSoftInit]).raise .init1 else unknownCommand s

/-- SOFT_INIT (R169). -/
def execSoftInit (s : State) : Result := .next (softInit s)

/-! ## The dispatcher (R160) -/

/-- "Run that command's rule" (R160): the effect of a decoded frame. Address bytes and jump words are no frames. -/
def runCommand (i : Instr) (s : State) : State :=
  match i with
  | .getVersion => getVersion s
  | .exit => exitToApp s
  | .deleteFlash => requestErase s
  | .setPageAddr hi lo => setPageAddress hi lo s
  | .writePage d cs => writePage d cs s
  | .readFlash hi lo len rcs => readFlash hi lo len rcs s
  | .softInit => softInit s
  | .unknown _ _ => unknownCommand s
  | .addrRead _ | .addrWrite _ | .addrBroadcast | .rjmp _ | .entryJump _ | .trampoline _ => s

/-- `Dispatch()` (R160): flush TX, drain RX, and run the command its bytes are; an empty RX gives no reply. -/
def dispatch (s : State) : State :=
  match decode s.cfg .frame s.frame with
  | .ok i => runCommand i s.flushTx.drainRx
  | .error _ => s.flushTx

end Sys2Proof.Machine
end

