-- ==== Sys2Proof/Machine/Transport.lean ====
section
/-! DEFINITION. The bus-slave transport (40_transport.md): the start handler, the arms of the overflow handler, and the
meanings of the address bytes. -/

namespace Sys2Proof.Machine

open Sys2Proof

/-! ## Start handler (R122) -/

/-- The start handler's writes before its hold (R122). -/
def State.enterStart (s : State) : State := { s with phase := .checkAddress, sdaDrive := false }

/-- "hold until not (Periph.scl = 1 and Periph.sda = 0)" (R122): the levels with the block's own drive released. -/
def startHolds (s : State) : Bool := s.periph.scl && !s.enterStart.sda

/-- `StartHandler()` once the line has settled (R122): the host clocks the address, or it has made a stop condition. -/
def startHandler (s : State) : State :=
  let t :=
    if s.periph.scl then s.enterStart.rearm else { s.enterStart with armed := true, bitCount := .eight }
  ({ t with periph := { t.periph with startFlag := false, stopFlag := false } } : State).clearOvf

/-! ## CheckAddress (R123 to R125) -/

/-- R123: the address of another device. -/
def foreignArm (s : State) : State := s.rearm.clearOvf

/-- R124: the device's own address, read direction. -/
def readArm (s : State) : State := ((dispatch s).withPhase .sendData).sendAck.clearOvf

/-- R125: the device's own address with write direction, or the broadcast byte. -/
def writeArm (s : State) : State := (s.withPhase .waitReceive).sendAck.clearOvf

/-- ADDR_READ: R124 for the own address, R123 for another. -/
def addrRead (a : BitVec 7) (s : State) : State := if a = s.cfg.ownAddr then readArm s else foreignArm s

/-- ADDR_WRITE: R125 for the own address, R123 for another. -/
def addrWrite (a : BitVec 7) (s : State) : State := if a = s.cfg.ownAddr then writeArm s else foreignArm s

/-- ADDR_BROADCAST: R125. -/
def addrBroadcast (s : State) : State := writeArm s

/-- ADDR_READ (R124, R123). -/
def execAddrRead (a : BitVec 7) (s : State) : Result := .next (addrRead a s)

/-- ADDR_WRITE (R125, R123). -/
def execAddrWrite (a : BitVec 7) (s : State) : Result := .next (addrWrite a s)

/-- ADDR_BROADCAST (R125). -/
def execAddrBroadcast (s : State) : Result := .next (addrBroadcast s)

/-- The arm of phase CheckAddress: the address byte in dr, decoded and run. An address byte decodes to no other instruction. -/
def checkAddress (s : State) : State :=
  match decodeAddress s.periph.dr with
  | .addrRead a => addrRead a s
  | .addrWrite a => addrWrite a s
  | .addrBroadcast => addrBroadcast s
  | .getVersion | .exit | .deleteFlash | .setPageAddr _ _ | .writePage _ _ | .readFlash _ _ _ _ | .softInit | .unknown _ _
  | .rjmp _ | .entryJump _ | .trampoline _ => s

/-! ## Sending (R127 to R131) -/

/-- `SendDataAction()` (R127). -/
def sendDataAction (s : State) : State :=
  if 0 < s.tx.count then (s.sendNext.withPhase .waitAckAfterSend).clearOvf else s.rearm.clearOvf

/-- R128. -/
def waitAckAfterSend (s : State) : State := (s.readAck.withPhase .checkAck).clearOvf

/-- R130 for ACK, R131 for NACK. -/
def checkAck (s : State) : State :=
  if s.periph.dr.getLsbD 0 then (s.rearm.raise .slowOpsReady).clearOvf else sendDataAction s

/-! ## Receiving (R135, R136) -/

/-- R135. -/
def waitReceive (s : State) : State := (s.receiveByte.withPhase .receiveAndAck).clearOvf

/-- R136. -/
def receiveAndAck (s : State) : State := ((s.receive s.periph.dr).sendAck.withPhase .waitReceive).clearOvf

/-- `OverflowHandler()` (R120): the arm of the current phase. -/
def overflowHandler (s : State) : State :=
  match s.phase with
  | .checkAddress => checkAddress s
  | .sendData => sendDataAction s
  | .waitAckAfterSend => waitAckAfterSend s
  | .checkAck => checkAck s
  | .waitReceive => waitReceive s
  | .receiveAndAck => receiveAndAck s

/-- The transport is idle: `phase = CheckAddress ∧ armed = false` (R31). -/
def idle (s : State) : Bool := s.phase == .checkAddress && !s.armed

end Sys2Proof.Machine
end

