-- ==== Sys2Proof/Machine/Dispatch.lean ====
section
/-! DEFINITION. The meaning of every instruction. -/

namespace Sys2Proof.Machine

def exec (i : Instr) (s : State) : Host.Outcome State Fault Refusal :=
  match i with
  -- command frames (41_dispatcher.md)
  | .getVersion => Sys2Proof.Machine.execGetVersion s
  | .exit => Sys2Proof.Machine.execExit s
  | .deleteFlash => Sys2Proof.Machine.execDeleteFlash s
  | .setPageAddr addrHi addrLo => Sys2Proof.Machine.execSetPageAddr addrHi addrLo s
  | .writePage d cs => Sys2Proof.Machine.execWritePage d cs s
  | .readFlash addrHi addrLo len rcs => Sys2Proof.Machine.execReadFlash addrHi addrLo len rcs s
  | .softInit => Sys2Proof.Machine.execSoftInit s
  | .unknown op rest => Sys2Proof.Machine.execUnknown op rest s
  -- bus address bytes (40_transport.md)
  | .addrRead a => Sys2Proof.Machine.execAddrRead a s
  | .addrWrite a => Sys2Proof.Machine.execAddrWrite a s
  | .addrBroadcast => Sys2Proof.Machine.execAddrBroadcast s
  -- CPU jump words (30_encoding.md, 42_page_writer.md)
  | .rjmp k => Sys2Proof.Machine.execRjmp k s
  | .entryJump k => Sys2Proof.Machine.execEntryJump k s
  | .trampoline k => Sys2Proof.Machine.execTrampoline k s

end Sys2Proof.Machine
end

