-- ==== Sys2Proof/Machine/Bus.lean ====
section
/-! DEFINITION. The shift-register peripheral (60_exceptions.md R264) under the host's bus events, and the refusal of the
events that break a host duty (00_scope.md R20 H4 and H5, 70_reset_and_hazards.md R303). -/

namespace Sys2Proof.Machine

open Sys2Proof

/-- The bits after which the shift-complete flag is set (R32). -/
def BitCount.toNat : BitCount → Nat
  | .eight => 8
  | .one => 1

/-- The shift register after one bit clock (R264): the first bit ends at dr[7]. What a driven shift leaves in dr[0] the spec
does not say: a draw (log entry 15). -/
def State.shiftIn (s : State) (line : Bool) : Byte :=
  (s.periph.dr <<< 1) ||| (if s.sdaDrive then Config.freeByte s.draws &&& 1#8 else if line then 1#8 else 0#8)

/-- One bit clock: the host sees the line, and the shift register shifts: it samples a released line, armed or not (R32), and
drives it otherwise. "While `armed` is false the peripheral counts no bits and never sets ovfFlag"; an armed one sets ovfFlag
when bitCount bits have been clocked since the flag was last cleared (R264). Afterwards the clock is low, the host's bit is
still on the line, and a driving block shows the next bit of dr (log entry 15). -/
def State.clockBit (s : State) (bit : Bool) : State :=
  let line := s.lineLevel bit
  let n := s.periph.shifted + 1
  { s with
    seen := line :: s.seen
    draws := if s.sdaDrive then s.draws + 1 else s.draws
    periph :=
      { s.periph with
        scl := false
        hostSda := bit
        dr := s.shiftIn line
        shifted := if s.armed then n else s.periph.shifted
        ovfFlag := s.periph.ovfFlag || (s.armed && decide (s.bitCount.toNat ≤ n)) } }

/-- The NACK that completes a transaction has been clocked and its pass has not run (R131, R20 H4). -/
def nackPending (s : State) : Bool :=
  s.armed && s.periph.ovfFlag && s.phase == .checkAck && s.periph.dr.getLsbD 0

/-- The bus must be quiet: between a completing NACK and the end of its pass, and until the restart after a safety erase
(R20 H4, R302). -/
def quietGap (s : State) : Bool := nackPending s || s.restarting

/-- The device has not yet handled the last edge: a start condition, or the shift-complete it is armed for (R20 H5, R300). -/
def handlerPending (s : State) : Bool := s.periph.startFlag || (s.armed && s.periph.ovfFlag)

/-- One bus event: the flags by R264, and what the host leaves on the lines by its definitions of start and stop (log entry
29). -/
def deliver (e : BusEvent) (s : State) : Except Refusal State :=
  match e with
  | .start =>
    if quietGap s then .error .quietGapBroken
    else .ok { s with periph := { s.periph with startFlag := true, scl := true, hostSda := false } }
  | .stop => .ok { s with periph := { s.periph with stopFlag := true, scl := true, hostSda := true } }
  | .clockLow => .ok { s with periph := { s.periph with scl := false } }
  | .clock bit =>
    if quietGap s then .error .quietGapBroken
    else if handlerPending s then .error .realTimeBroken
    else .ok (s.clockBit bit)

/-- The host's events of one turn, in order. -/
def deliverAll : List BusEvent → State → Except Refusal State
  | [], s => .ok s
  | e :: es, s =>
    match deliver e s with
    | .ok s' => deliverAll es s'
    | .error r => .error r

/-! ## The host's transactions (30_encoding.md R115) -/

/-- The eight bit clocks of a byte, most significant first (R264). -/
def byteClocks (b : Byte) : List BusEvent :=
  [.clock (b.getLsbD 7), .clock (b.getLsbD 6), .clock (b.getLsbD 5), .clock (b.getLsbD 4), .clock (b.getLsbD 3),
    .clock (b.getLsbD 2), .clock (b.getLsbD 1), .clock (b.getLsbD 0)]

/-- The start of a transaction: the start condition, and the clock pulled low to send the address (R122). -/
def startTurn : Turn := .bus [.start, .clockLow]

/-- A byte the host sends. -/
def byteTurn (b : Byte) : Turn := .bus (byteClocks b)

/-- One clock with the data line released: the device's ACK bit is read, or the host answers NACK (R92). -/
def releaseTurn : Turn := .bus [.clock true]

/-- One clock with the data line pulled low: the host answers ACK (R92). -/
def ackTurn : Turn := .bus [.clock false]

/-- A byte the host sends, and the clock of the device's answer to it. -/
def sendTurns (b : Byte) : List Turn := [byteTurn b, releaseTurn]

/-- `W{b_1, …, b_n}` with the address byte `a` (R115), one bus event between two passes. -/
def writeTurns (a : Byte) (bs : List Byte) : List Turn :=
  startTurn :: (sendTurns a ++ bs.flatMap sendTurns ++ [.bus [.stop]])

/-- A byte the host reads, and its answer. -/
def readTurns (answer : Turn) : List Turn := [byteTurn 0xFF#8, answer]

/-- `R[n + 1]` with the address byte `a` (R115): the first n bytes are answered ACK, the last NACK. -/
def readTransaction (a : Byte) (n : Nat) : List Turn :=
  startTurn :: (sendTurns a ++ (List.replicate n (readTurns ackTurn)).flatten ++ readTurns releaseTurn ++ [.bus [.stop]])

end Sys2Proof.Machine
end

