-- ==== Sys2Proof/Machine/PageWriter.lean ====
section
/-! DEFINITION. The flash page write controller (42_page_writer.md): commit readiness, the commit, the trampoline's
installation and slot check, and the safety erase. -/

namespace Sys2Proof.Machine

open Sys2Proof

/-- `Ready(S)` (R200). -/
def ready (s : State) : Bool :=
  decide (s.pageIndex.toNat = s.cfg.pageSize) && decide (s.pageAddress.toNat < s.cfg.appLimit)

/-- `Tramp(S.appResetLsb, S.appResetMsb)` (R203, R204). -/
def trampWordOf (s : State) : Word := tramp s.cfg s.appResetLsb s.appResetMsb

/-- The trampoline page's image (R204): erased but for the trampoline in its last word. -/
def trampImage (s : State) : List Byte :=
  List.replicate (s.cfg.pageSize - 2) erased ++ wordBytes (trampWordOf s)

/-- `InstallTrampoline()` (R204): the page is erased in every configuration. -/
def installTrampoline (s : State) : State :=
  s.withFlash
    (Memory.program s.cfg.trampPage (trampImage s) (Memory.erasePage s.cfg.pageSize s.cfg.trampPage s.flash))

/-- The committed page is the application's trampoline page (R202, R205). -/
def checksSlot (s : State) : Bool :=
  s.cfg.appUsesTrampolinePage && decide (s.pageAddress.toNat = s.cfg.trampPage)

/-- The last two bytes of the staged page are still erased (R205). -/
def slotFree (s : State) : Bool :=
  s.stage.getD (s.cfg.pageSize - 2) 0 == erased && s.stage.getD (s.cfg.pageSize - 1) 0 == erased

/-- The staged image with the trampoline in its last word (R205). -/
def slotImage (s : State) : List Byte :=
  (s.stage.set (s.cfg.pageSize - 2) (loByte (trampWordOf s))).set (s.cfg.pageSize - 1) (hiByte (trampWordOf s))

/-- The image a commit programs: the staged page, on the trampoline page as TrampSlotCheck leaves it (R202, R205). -/
def commitImage (s : State) : List Byte := if checksSlot s && slotFree s then slotImage s else s.stage

/-- The flag TrampSlotCheck sets: DeleteFlash when the application's data covers the slot (R205). -/
def slotCheck (s : State) : State := if checksSlot s && !slotFree s then s.raise .deleteFlash else s

/-- The page programmed, erased first if the build says so (R202). -/
def programPage (s : State) : Memory :=
  let p := s.pageAddress.toNat
  Memory.program p (commitImage s)
    (if s.cfg.eraseBeforeWrite then Memory.erasePage s.cfg.pageSize p s.flash else s.flash)

/-- `AdvanceAfterCommit()` (R207). -/
def advanceAfterCommit (s : State) : State :=
  { s with
    pageIndex := 0#8
    pageAddress := if s.cfg.autoPageAddr then s.pageAddress + BitVec.ofNat 16 s.cfg.pageSize else s.pageAddress }

/-- `CommitPage()` (R202). -/
def commitPage (s : State) : State :=
  let t := (slotCheck s).withFlash (programPage s)
  advanceAfterCommit (if s.pageAddress = 0#16 then installTrampoline t else t)

/-- The pages below the bootloader erased (R208). -/
def eraseApplication (s : State) : State :=
  s.withFlash (Memory.erasePages s.cfg.pageSize (s.cfg.bootStart / s.cfg.pageSize) s.flash)

/-- The restart after the safety erase (R209): at once, or when the watchdog fires. -/
def restart (s : State) : State :=
  match s.cfg.restartMode with
  | .directJump => s.boot
  | .watchdog => { s with restarting := true }

/-- `DeleteAll()` (R208). -/
def deleteAll (s : State) : State := restart (eraseApplication s)

end Sys2Proof.Machine
end

