-- ==== Sys2Proof/Machine/Scheduler.lean ====
section
/-! DEFINITION. The deferred-operation scheduler (43_scheduler.md): one pass. -/

namespace Sys2Proof.Machine

open Sys2Proof

/-- The word address both launches go to, B_WORD - 1, the trampoline slot (R248). -/
def State.launchApp (s : State) : State := s.launch s.cfg.trampWord

/-- `IdleTick()` (R244). -/
def idleTick (s : State) : State :=
  let t : State := { s with idleCount := s.idleCount + 1 }
  if 0 < s.cfg.autoLaunchPasses ∧ s.cfg.autoLaunchPasses ≤ s.idleCount + 1 then t.launchApp else t

/-- `SlowOps()` (R246): launch, then erase, then commit; the first that runs ends the pass. -/
def slowOps (s : State) : State :=
  if s.flag .exitToApp then s.launchApp
  else if s.flag .deleteFlash then deleteAll s
  else if ready s then commitPage s
  else s

/-- The start poll (R242). -/
def pollStart (s : State) : State := if s.periph.startFlag then startHandler s else s

/-- The shift-complete poll (R240, R242, R137). -/
def pollOverflow (s : State) : State :=
  if s.periph.ovfFlag then (if s.armed then overflowHandler s else s.clearOvf) else s

/-- What follows the polls in a pass (R240): the idle loop, or the slow operations. -/
def finishPass (s : State) : State :=
  if initialized s then (if s.flag .slowOpsReady then slowOps s else s) else idleTick s

/-- `Pass()` (R240). While the start handler holds, the pass does not go on (R122); its writes up to there are idempotent, so
a held pass is taken up again from its start (log entry 8). -/
def pass (s : State) : State :=
  let t := s.lower .slowOpsReady
  if t.periph.startFlag && startHolds t then t.enterStart else finishPass (pollOverflow (pollStart t))

end Sys2Proof.Machine
end

