-- ==== Sys2Proof/Machine/Step.lean ====
section
/-! DEFINITION. One step: what the outside does before the next pass, and the pass (00_scope.md R7, 43_scheduler.md R240). -/

namespace Sys2Proof.Machine

open Sys2Proof

/-- One instruction of the CPU outside the block (R100, R291): the word it stands at, if that is a relative jump. -/
def cpuStep (w : WordAddr) (s : State) : Result :=
  match fetchJump w s with
  | .ok i => exec i s
  | .error r => .refused r

/-- The device's part of a step, after the host's events: the watchdog fires (R209), the CPU reaches the bootloader (R291),
or the block runs one pass (R240). -/
def advance (s : State) : Result :=
  if s.restarting then .next s.boot
  else
    match s.cpu with
    | some w => cpuStep w s
    | none => .next (pass s)

/-- One turn of the bus and what the device does then; a launched block "has no step" (R240). -/
def stepBus (events : List BusEvent) (s : State) : Host.Outcome State Fault Refusal :=
  match s.run with
  | .launched w => .fault (.launched w)
  | .running =>
    match deliverAll events s with
    | .ok t => advance t
    | .error r => .refused r

/-- One step of the machine: the next turn of the outside, a quiet bus where none is listed. -/
def step (s : State) : Host.Outcome State Fault Refusal :=
  match s.host with
  | .reset :: rest => .next { s with host := rest }.boot
  | .bus events :: rest => stepBus events { s with host := rest }
  | [] => stepBus [] s

/-- `s` with a table word where the next step fetches (log entry 24): an address byte shifted in whole, a command frame in
RX behind the device's own read address, a CPU word in flash at the word the CPU stands at; a quiet turn before what the host
does next. -/
def State.withFetchWord (s : State) (nbits w : Nat) : State :=
  let t : State := { s with run := .running, restarting := false, cpu := none, host := .bus [] :: s.host }
  let u : State :=
    { t with
      phase := .checkAddress
      armed := true
      periph := { t.periph with startFlag := false, ovfFlag := true } }
  match tableSpace s.cfg nbits w with
  | .address => { u with periph := { u.periph with dr := BitVec.ofNat 8 w } }
  | .frame =>
    { u with
      periph := { u.periph with dr := s.cfg.ownAddr ++ 1#1 }
      rx := Ring.pushAll s.cfg.rxCap (Ring.empty s.rx.buf) (bytesOf (nbits / 8) w) }
  | .cpu a => { t.loadWord a (BitVec.ofNat 16 w) with cpu := some a }

end Sys2Proof.Machine
end

