-- ==== Sys2Proof/Safety.lean ====
section
/-! DEFINITION. The terms claims are made in: the invariant of the block (10_state.md R47 and the ranges of R31 to R44), what
two states may share, and where a run stands between two passes. -/

namespace Sys2Proof.Machine

open Sys2Proof

/-- What holds of every state the block can be in: a legal build (R9), a canonical flash within FLASH_BYTES (R43), the ranges
and the alignment of the fields (R31 to R39), the reserved flag bits (R35), SlowOpsReady only between transactions (R47),
a transport that is not armed as Rearm leaves it (R121), interrupts off (R263), the launch target (R248), and a bit count
that has not passed an unset flag (R264). -/
structure State.Inv (s : State) : Prop where
  legal : s.cfg.Legal
  flash_wf : Memory.wf s.flash = true
  flash_below : ∀ c ∈ s.flash, c.1 < s.cfg.flashBytes
  page_aligned : s.pageAddress &&& s.cfg.pageMask = 0#16
  page_index : s.pageIndex.toNat ≤ s.cfg.pageSize
  stage_length : s.stage.length = s.cfg.pageSize
  rx_wf : s.rx.Wf s.cfg.rxCap
  tx_wf : s.tx.Wf s.cfg.txCap
  flags_reserved : s.flags >>> 5 = 0#8
  slow_idle : s.flag .slowOpsReady = true → idle s = true
  unarmed : s.armed = false → s.phase = .checkAddress ∧ s.sdaDrive = false ∧ s.bitCount = .eight
  interrupts_off : s.interruptsEnabled = false
  launch_target : ∀ w, s.run = .launched w → w = s.cfg.trampWord
  bits_counted : s.periph.ovfFlag = false → s.periph.shifted < s.bitCount.toNat

/-- With AUTO_PAGE_ADDR, what is staged for the reset-vector page begins with the bootloader-entry jump, and pageAddress has
not passed APP_LIMIT (R47 item 4, R167, R207). -/
def State.VectorStaged (s : State) : Prop :=
  s.cfg.autoPageAddr = true →
    s.pageAddress.toNat ≤ s.cfg.appLimit ∧
    (s.pageAddress = 0#16 → 1 ≤ s.pageIndex.toNat → s.stage.getD 0 0 = loByte (entryJumpWord s.cfg)) ∧
    (s.pageAddress = 0#16 → 2 ≤ s.pageIndex.toNat → s.stage.getD 1 0 = hiByte (entryJumpWord s.cfg))

/-! ## What two states share -/

/-- Every byte of the flash reads the same. -/
def SameFlash (s t : State) : Prop := ∀ a, Memory.read a t.flash = Memory.read a s.flash

/-- The same transport configuration (R31, R32). -/
def SameTransport (s t : State) : Prop :=
  t.phase = s.phase ∧ t.armed = s.armed ∧ t.sdaDrive = s.sdaDrive ∧ t.bitCount = s.bitCount

/-- The same page writer registers and staging buffer (R33, R34, R36, R37). -/
def SameWriter (s t : State) : Prop :=
  t.pageAddress = s.pageAddress ∧ t.pageIndex = s.pageIndex ∧ t.appResetLsb = s.appResetLsb ∧
    t.appResetMsb = s.appResetMsb ∧ t.stage = s.stage

/-- The same build, run, CPU position, restart and interrupt state, and the same outside. -/
def SameRun (s t : State) : Prop :=
  t.cfg = s.cfg ∧ t.run = s.run ∧ t.cpu = s.cpu ∧ t.restarting = s.restarting ∧
    t.interruptsEnabled = s.interruptsEnabled ∧ t.host = s.host ∧ t.seen = s.seen

/-- The idle count reaches AUTO_LAUNCH_PASSES in this pass, if the build has one (R244). -/
def State.CountReached (u : State) : Prop :=
  0 < u.cfg.autoLaunchPasses ∧ u.cfg.autoLaunchPasses ≤ u.idleCount + 1

/-- The run after a pass that ends in a launch exactly where `launches` says (R244, R248): ended at the trampoline slot, where
the CPU then stands (log entry 13), or gone on; the rest of what `SameRun` names is unchanged. -/
def CountedRun (launches : Prop) (u t : State) : Prop :=
  SameRun { u with run := t.run, cpu := t.cpu } t ∧
    (launches → t.run = .launched u.cfg.trampWord ∧ t.cpu = some u.cfg.trampWord) ∧
    (¬launches → t.run = u.run ∧ t.cpu = u.cpu)

/-- `t` is a reset state of the build of `s`: every field to which the table R49 gives a value has it, interrupts are off
(R292), and the block runs, the CPU in it. -/
structure AtReset (s t : State) : Prop where
  cfg : t.cfg = s.cfg
  phase : t.phase = .checkAddress
  armed : t.armed = false
  sdaDrive : t.sdaDrive = false
  bitCount : t.bitCount = .eight
  pageAddress : t.pageAddress = 0x0000#16
  pageIndex : t.pageIndex = 0#8
  flags : t.flags = 0x00#8
  rx : t.rx.head = 0 ∧ t.rx.tail = 0 ∧ t.rx.count = 0
  tx : t.tx.head = 0 ∧ t.tx.tail = 0 ∧ t.tx.count = 0
  idleCount : t.idleCount = 0
  run : t.run = .running
  periph : t.periph.startFlag = false ∧ t.periph.ovfFlag = false ∧ t.periph.stopFlag = false
  interruptsEnabled : t.interruptsEnabled = false
  restarting : t.restarting = false
  cpu : t.cpu = none

/-- The same peripheral but for the shift register and the cleared shift-complete flag with its count (R120). What the
host leaves on the data line is the model's own field (log entry 29); the line's level is `State.sda`. -/
def OvfCleared (s t : State) : Prop :=
  t.periph.startFlag = s.periph.startFlag ∧ t.periph.stopFlag = s.periph.stopFlag ∧ t.periph.scl = s.periph.scl ∧
    t.periph.hostSda = s.periph.hostSda ∧ t.periph.ovfFlag = false ∧ t.periph.shifted = 0

/-- Every bit of the flags register but `f` is unchanged, the reserved bits included. -/
def OtherFlags (f : Flag) (s t : State) : Prop := ∀ i, i ≠ f.pos → t.flags.getLsbD i = s.flags.getLsbD i

/-- A command's frame: beside TX and what its statement names, only these may change: nothing. -/
def CommandFrame (s t : State) : Prop :=
  SameFlash s t ∧ SameTransport s t ∧ SameRun s t ∧ t.periph = s.periph ∧ t.idleCount = s.idleCount ∧ t.draws = s.draws ∧
    t.rx = s.rx

/-- The bytes of TX, first to last. -/
def State.txBytes (s : State) : List Byte := s.tx.contents s.cfg.txCap

/-- TX after a reply: what fits behind what it held (R66). -/
def Replied (bytes : List Byte) (s t : State) : Prop :=
  t.txBytes = (s.txBytes ++ bytes).take s.cfg.txCap ∧ t.tx.Wf s.cfg.txCap

/-- Nothing but the transport, the peripheral, the flags, TX and the idle count may differ: flash, page writer, RX and run. -/
def SameStores (s t : State) : Prop := SameFlash s t ∧ SameWriter s t ∧ SameRun s t ∧ t.rx = s.rx

/-! ## Numbers the rules name -/

/-- The two bytes of the bootloader-entry jump 0xC000 | (B_WORD - 1), low and high (R101, R71). -/
def entryLo (c : Config) : Byte := BitVec.ofNat 8 (c.bWord - 1)
/-- The high byte. -/
def entryHi (c : Config) : Byte := BitVec.ofNat 8 (0xC0 + (c.bWord - 1) / 256)

/-- The application's reset-vector word from its two captured bytes (R71). -/
def origWord (lsb msb : Byte) : Nat := msb.toNat * 256 + lsb.toNat

/-- `JUMP_OPCODE_BASE | ((target - B_WORD) mod 4096)` with `target = (orig + 1) mod 4096` (R203, the equivalent form). -/
def trampValue (c : Config) (lsb msb : Byte) : Nat :=
  0xC000 + ((origWord lsb msb + 1) % 4096 + 4096 - c.bWord) % 4096

/-- The bits of a byte in the order they are clocked, the latest first. -/
def bitsSeen (b : Byte) : List Bool := (List.range 8).map b.getLsbD

/-! ## Between two passes -/

/-- The block runs: not launched, not waiting for the watchdog, the CPU in the block. -/
def State.Runs (s : State) : Prop := s.run = .running ∧ s.restarting = false ∧ s.cpu = none

/-- `u` is the state in which the device acts in the step from `s`: the host's events of the next turn have happened. -/
def Delivered (s u : State) : Prop :=
  match s.host with
  | [] => u = s
  | .bus events :: rest => deliverAll events { s with host := rest } = .ok u
  | .reset :: _ => False

/-- A shift-complete is pending and is the pass's event (R240, R242). -/
def State.ShiftComplete (s : State) : Prop := s.armed = true ∧ s.periph.ovfFlag = true ∧ s.periph.startFlag = false

/-- The pass handles the NACK that completes a transaction (R131). -/
def State.NackArm (s : State) : Prop := s.ShiftComplete ∧ s.phase = .checkAck ∧ s.periph.dr.getLsbD 0 = true

/-- The step from `s`, where it gives a next state, is a reset (R290, R209, R291): the outside resets the block (log entry 11);
or, the host's events of the turn having happened, the watchdog fires (log entry 10), the CPU jumps to B_WORD (log entries
13, 14 and 30), or the pass runs the safety erase of a DirectJump build. -/
def State.Resets (s : State) : Prop :=
  (∃ rest, s.host = .reset :: rest) ∨
    ∃ u, Delivered s u ∧
      (u.restarting = true ∨
        (u.restarting = false ∧
          ∃ w k, u.cpu = some w ∧ u.flashWord w = jumpWord k ∧ jumpTarget w k = u.cfg.bootWord) ∨
        (u.Runs ∧ u.NackArm ∧ initialized u = true ∧ u.flag .exitToApp = false ∧ u.flag .deleteFlash = true ∧
          u.cfg.restartMode = .directJump))

/-- No auto-launch can come of an idle pass: the handshake is done, or the build has none (R244). -/
def State.NoAutoLaunch (s : State) : Prop := initialized s = true ∨ s.cfg.autoLaunchPasses = 0

end Sys2Proof.Machine
end

