-- ==== Sys2Proof/Certificates/Slice0/Obligations.lean ====
section
/-! DEFINITION. The statements for the provers. Each cites the rule of spec/ it formalises. -/

open Sys2Proof Sys2Proof.Machine

/-! ## Encodings (30_encoding.md) -/

/-- Decode and encode agree: every instruction a legal build admits is what its own bytes decode to, in every place it stands.
-/
def Obligations.DecodeOfEncodeIsTheInstruction : Prop :=
  ∀ c : Config, c.Legal → ∀ (i : Instr) (sp : Space), i.wf c = true → i.standsIn c sp = true →
    decode c sp (encode c i) = .ok i

/-- The other direction: bytes that decode to an instruction begin with its encoding, and the instruction is one the build
admits, standing there. What follows the encoding is the surplus of a frame (R160). -/
def Obligations.EncodeOfDecodeIsAPrefix : Prop :=
  ∀ c : Config, c.Legal → ∀ (sp : Space) (bs : List Byte) (i : Instr), decode c sp bs = .ok i →
    i.wf c = true ∧ i.standsIn c sp = true ∧ encode c i <+: bs

/-- Surplus bytes behind a command that the build has do not change what the frame is (R160). -/
def Obligations.SurplusFrameBytesAreDiscarded : Prop :=
  ∀ c : Config, c.Legal → ∀ (i : Instr) (rest : List Byte), i.wf c = true → i.standsIn c .frame = true →
    (∀ op more, i ≠ .unknown op more) → decode c .frame (encode c i ++ rest) = .ok i

/-- Every byte that is not the opcode of a present command is unknown, and so is a frame that is shorter than its opcode
needs (R104, R105, R160). -/
def Obligations.UnknownAndShortFrames : Prop :=
  ∀ c : Config, c.Legal → ∀ (op : Byte) (rest : List Byte),
    ((∀ k, c.present k = true → c.opcode k ≠ op) → decode c .frame (op :: rest) = .ok (.unknown op rest)) ∧
    (∀ k, c.present k = true → c.opcode k = op → rest.length + 1 < c.frameLength k →
      decode c .frame (op :: rest) = .ok (.unknown op rest)) ∧
    (∀ k, c.present k = true → c.opcode k = op → c.frameLength k ≤ rest.length + 1 →
      ∃ i, decode c .frame (op :: rest) = .ok i ∧ ∀ op' rest', i ≠ .unknown op' rest')

/-- Words of the spec's vectors (V5, V6, V8, V10, V33) decode to the instructions they stand for. A check on fixed
words of the reference configuration, in which the opcode values are the model's own (log entry 2); that decodeTableWord
tells an address byte from a CPU word by the number of bits, and where it reads the word, is the model's own (log entry 24). -/
def Obligations.WordsOfTheVectorsDecode : Prop :=
  decodeTableWord 8 0b00010111 = some (.addrRead 0b0001011#7) ∧
  decodeTableWord 8 0b00010110 = some (.addrWrite 0b0001011#7) ∧
  decodeTableWord 8 0b00000000 = some .addrBroadcast ∧
  decodeTableWord 8 0b00000001 = some (.addrRead 0#7) ∧
  decodeTableWord 16 0b1100001100000000 = some (.rjmp 0x300#12) ∧
  decodeTableWord 16 0b1100110011111111 = some (.entryJump 0xCFF#12) ∧
  decode Config.reference (.cpu 0xCFF#12) [0x00#8, 0xC3#8] = .ok (.trampoline 0x300#12) ∧
  decode Config.reference .frame [Config.reference.opcReadFlash, 0x01#8, 0x00#8, 0x04#8, 0x05#8] =
    .ok (.readFlash 0x01#8 0x00#8 0x04#8 0x05#8)

/-! ## The dispatcher's commands (41_dispatcher.md) -/

/-- Get-Version (R161, R99): the fixed-position reply, and the handshake bit of the build. -/
def Obligations.GetVersionRepliesAndSetsItsInitBit : Prop :=
  ∀ s : State, s.cfg.Legal → s.tx.Wf s.cfg.txCap →
    let f : Flag := if s.cfg.handshake = .oneStep then .init1 else .init2
    ∃ t, exec .getVersion s = .next t ∧
      Replied
        ([s.cfg.ackGetVersion, s.cfg.signature, s.cfg.versionMajor, s.cfg.versionMinor] ++ s.cfg.features ++
          [BitVec.ofNat 8 (s.cfg.bootStart / 256), BitVec.ofNat 8 (s.cfg.bootStart % 256),
            Memory.read (s.cfg.bootStart - 1) s.flash, Memory.read (s.cfg.bootStart - 2) s.flash,
            s.cfg.lowFuse, s.cfg.calibration] ++
          if s.cfg.featureEmptyCheck = true then [Config.emptyFlashReport s.cfg s.flash] else []) s t ∧
      t.flag f = true ∧ OtherFlags f s t ∧ SameWriter s t ∧ CommandFrame s t

/-- Exit-To-Application (R162): the reply {ACK_EXIT} and the flag; nothing else, so no jump inside the dispatcher. -/
def Obligations.ExitRepliesAndSetsExitToApp : Prop :=
  ∀ s : State, s.cfg.Legal → s.tx.Wf s.cfg.txCap →
    ∃ t, exec .exit s = .next t ∧ Replied [s.cfg.ackExit] s t ∧
      t.flag .exitToApp = true ∧ OtherFlags .exitToApp s t ∧ SameWriter s t ∧ CommandFrame s t

/-- Delete-Flash (R163): the reply {ACK_DELETE_FLASH} and the flag; the flash is not touched. -/
def Obligations.DeleteFlashRepliesAndSetsDeleteFlash : Prop :=
  ∀ s : State, s.cfg.Legal → s.tx.Wf s.cfg.txCap →
    ∃ t, exec .deleteFlash s = .next t ∧ Replied [s.cfg.ackDeleteFlash] s t ∧
      t.flag .deleteFlash = true ∧ OtherFlags .deleteFlash s t ∧ SameWriter s t ∧ CommandFrame s t

/-- Set-Page-Address (R166): the operand masked to its page, and the sum of the operand bytes as the echo; pageIndex and the
flags stay. That exec of it in a build without the command is the meaning of UNKNOWN is the model's reading of R105 (log
entry 22). -/
def Obligations.SetPageAddressMasksToThePage : Prop :=
  ∀ (s : State) (hi lo : Byte), s.cfg.Legal → s.tx.Wf s.cfg.txCap →
    let addr := hi.toNat * 256 + lo.toNat
    ∃ t, exec (.setPageAddr hi lo) s = .next t ∧ t.flags = s.flags ∧ t.pageIndex = s.pageIndex ∧ t.stage = s.stage ∧
      t.appResetLsb = s.appResetLsb ∧ t.appResetMsb = s.appResetMsb ∧ CommandFrame s t ∧
      (s.cfg.autoPageAddr = false →
        t.pageAddress.toNat = addr - addr % s.cfg.pageSize ∧
        Replied [s.cfg.ackSetPageAddr, BitVec.ofNat 8 (hi.toNat + lo.toNat)] s t) ∧
      (s.cfg.autoPageAddr = true → t.pageAddress = s.pageAddress ∧ Replied [s.cfg.unknownCmd] s t)

/-- Write-Page-Data that fits and whose checksum is right (R167, V46): the reply carries the sum, no flag changes, the bytes are
staged at their page offsets, and bytes 0 and 1 of the flash are captured and replaced by the bootloader-entry jump. -/
def Obligations.WritePageStagesAGoodPacket : Prop :=
  ∀ (s : State) (d : List Byte) (cs : Byte), s.Inv → d.length = s.cfg.packetSize →
    s.pageIndex.toNat + d.length ≤ s.cfg.pageSize → cs.toNat = (d.map BitVec.toNat).sum % 256 →
    ∃ t, exec (.writePage d cs) s = .next t ∧ Replied [s.cfg.ackWritePage, cs] s t ∧ t.flags = s.flags ∧
      t.pageAddress = s.pageAddress ∧ t.pageIndex.toNat = s.pageIndex.toNat + d.length ∧
      t.stage.length = s.cfg.pageSize ∧
      (∀ j < s.cfg.pageSize, t.stage.getD j 0 =
        if s.pageIndex.toNat ≤ j ∧ j < s.pageIndex.toNat + d.length then
          (if s.pageAddress.toNat + j = 0 then entryLo s.cfg
            else if s.pageAddress.toNat + j = 1 then entryHi s.cfg
            else d.getD (j - s.pageIndex.toNat) 0)
        else s.stage.getD j 0) ∧
      t.appResetLsb = (if s.pageAddress = 0#16 ∧ s.pageIndex = 0#8 then d.getD 0 0 else s.appResetLsb) ∧
      t.appResetMsb =
        (if s.pageAddress = 0#16 ∧ s.pageIndex.toNat ≤ 1 ∧ 1 < s.pageIndex.toNat + d.length then
          d.getD (1 - s.pageIndex.toNat) 0 else s.appResetMsb) ∧
      CommandFrame s t

/-- Write-Page-Data that fits with a wrong checksum (R167): the reply checksum is 0 and DeleteFlash is set; the page writer's
registers end as those of the same packet sent with its right checksum ("the bytes are still staged"). -/
def Obligations.WritePageBadChecksumSetsDeleteFlash : Prop :=
  ∀ (s : State) (d : List Byte) (cs right : Byte), s.Inv → d.length = s.cfg.packetSize →
    s.pageIndex.toNat + d.length ≤ s.cfg.pageSize → right.toNat = (d.map BitVec.toNat).sum % 256 → cs ≠ right →
    ∃ t good, exec (.writePage d cs) s = .next t ∧ exec (.writePage d right) s = .next good ∧ SameWriter good t ∧
      Replied [s.cfg.ackWritePage, 0x00#8] s t ∧ t.flag .deleteFlash = true ∧ OtherFlags .deleteFlash s t ∧ CommandFrame s t

/-- Write-Page-Data past the page's end (R167, R201): whatever its checksum, nothing is staged, the reply checksum is 0 and
DeleteFlash is set. -/
def Obligations.WritePageOverflowSetsDeleteFlash : Prop :=
  ∀ (s : State) (d : List Byte) (cs : Byte), s.cfg.Legal → s.tx.Wf s.cfg.txCap → d.length = s.cfg.packetSize →
    s.cfg.pageSize < s.pageIndex.toNat + d.length →
    ∃ t, exec (.writePage d cs) s = .next t ∧ Replied [s.cfg.ackWritePage, 0x00#8] s t ∧
      t.flag .deleteFlash = true ∧ OtherFlags .deleteFlash s t ∧ SameWriter s t ∧ CommandFrame s t

/-- Read-Flash (R168): a valid request streams the bytes, each address modulo FLASH_BYTES, and their checksum; any other is
answered {UNKNOWN_CMD}; no state but TX changes. That exec of it in a build without the command is the meaning of UNKNOWN is
the model's reading of R105 (log entry 22). -/
def Obligations.ReadFlashStreamsOrRefuses : Prop :=
  ∀ (s : State) (hi lo len rcs : Byte), s.cfg.Legal → s.tx.Wf s.cfg.txCap →
    let addr := hi.toNat * 256 + lo.toNat
    let data := (List.range len.toNat).map fun i => Memory.read ((addr + i) % 65536 % s.cfg.flashBytes) s.flash
    let valid := s.cfg.featureReadFlash = true ∧ rcs.toNat = (hi.toNat + lo.toNat + len.toNat) % 256 ∧
      1 ≤ len.toNat ∧ len.toNat ≤ s.cfg.readMax
    ∃ t, exec (.readFlash hi lo len rcs) s = .next t ∧ t.flags = s.flags ∧ SameWriter s t ∧ CommandFrame s t ∧
      (valid → Replied (s.cfg.ackReadFlash :: (data ++ [BitVec.ofNat 8 (data.map BitVec.toNat).sum])) s t) ∧
      (¬valid → Replied [s.cfg.unknownCmd] s t)

/-- Soft-Init (R169): in a TwoStep build the reply {ACK_SOFT_INIT} and Init1; in a OneStep build, which does not have the
command, exec of it is the meaning of UNKNOWN, which is the model's reading of R105 (log entry 22). -/
def Obligations.SoftInitSetsInit1InTwoStep : Prop :=
  ∀ s : State, s.cfg.Legal → s.tx.Wf s.cfg.txCap →
    ∃ t, exec .softInit s = .next t ∧ SameWriter s t ∧ CommandFrame s t ∧
      (s.cfg.handshake = .twoStep →
        Replied [s.cfg.ackSoftInit] s t ∧ t.flag .init1 = true ∧ OtherFlags .init1 s t) ∧
      (s.cfg.handshake = .oneStep → Replied [s.cfg.unknownCmd] s t ∧ t.flags = s.flags)

/-- Unknown (R171): {UNKNOWN_CMD}, and no state other than TX changes. -/
def Obligations.UnknownRepliesAndChangesNothing : Prop :=
  ∀ (s : State) (op : Byte) (rest : List Byte), s.cfg.Legal → s.tx.Wf s.cfg.txCap →
    ∃ t, exec (.unknown op rest) s = .next t ∧ Replied [s.cfg.unknownCmd] s t ∧ t.flags = s.flags ∧ SameWriter s t ∧
      CommandFrame s t

/-- The handshake of a TwoStep build completes in either order, and neither command alone completes it (R172, V36). -/
def Obligations.TwoStepHandshakeInEitherOrder : Prop :=
  ∀ s : State, s.cfg.handshake = .twoStep → s.flag .init1 = false → s.flag .init2 = false →
    ∃ v si vs sv, exec .getVersion s = .next v ∧ exec .softInit s = .next si ∧ exec .softInit v = .next vs ∧
      exec .getVersion si = .next sv ∧ initialized v = false ∧ initialized si = false ∧ initialized vs = true ∧
      initialized sv = true ∧ vs.flags = sv.flags

/-! ## The transport (40_transport.md) -/

/-- The device's own read address (R124, R160): TX is flushed and RX drained, the frame RX held is run as one instruction, and
the transport drives ACK and goes on to SendData; an empty RX gives an empty reply. That the flush draws TX_CAP free bytes,
and the wired level of the data line with the host's side of it, are the model's own (log entries 4, 16 and 29). -/
def Obligations.OwnReadAddressDispatchesAndAcks : Prop :=
  ∀ s : State, s.cfg.Legal → s.rx.Wf s.cfg.rxCap →
    ∃ t u, exec (.addrRead s.cfg.ownAddr) s = .next t ∧
      (s.frame = [] → u = s.flushTx) ∧
      (∀ i, decode s.cfg .frame s.frame = .ok i → exec i s.flushTx.drainRx = .next u) ∧
      s.flushTx.txBytes = [] ∧ s.flushTx.tx.Wf s.cfg.txCap ∧ t.frame = [] ∧
      t.phase = .sendData ∧ t.armed = s.armed ∧ t.sdaDrive = true ∧ t.bitCount = .one ∧ t.periph.dr = 0x00#8 ∧
      t.sda = false ∧
      OvfCleared s t ∧ t.tx = u.tx ∧ t.flags = u.flags ∧ SameWriter u t ∧ SameFlash s t ∧ SameRun s t ∧
      t.idleCount = s.idleCount ∧ t.draws = s.draws + s.cfg.txCap

/-- Another device's address (R123): Rearm and no ACK; nothing else changes. The wired level of the data line and the host's
side of it are the model's own (log entries 16 and 29). -/
def Obligations.ForeignAddressRearms : Prop :=
  ∀ (s : State) (a : BitVec 7) (i : Instr), a ≠ s.cfg.ownAddr → (i = .addrRead a ∨ (i = .addrWrite a ∧ a ≠ 0#7)) →
    ∃ t, exec i s = .next t ∧ t.phase = .checkAddress ∧ t.armed = false ∧ t.sdaDrive = false ∧ t.bitCount = .eight ∧
      t.sda = s.periph.hostSda ∧ t.periph.dr = s.periph.dr ∧ OvfCleared s t ∧ t.flags = s.flags ∧ t.tx = s.tx ∧
      t.idleCount = s.idleCount ∧ t.draws = s.draws ∧ SameStores s t

/-- The device's own write address and the broadcast byte (R125): ACK and WaitReceive; no flag, no buffer changes. The wired
level of the data line and the host's side of it are the model's own (log entries 16 and 29). -/
def Obligations.WriteAddressAcksAndReceives : Prop :=
  ∀ (s : State) (i : Instr), (i = .addrWrite s.cfg.ownAddr ∨ i = .addrBroadcast) →
    ∃ t, exec i s = .next t ∧ t.phase = .waitReceive ∧ t.armed = s.armed ∧ t.sdaDrive = true ∧ t.bitCount = .one ∧
      t.periph.dr = 0x00#8 ∧ t.sda = false ∧ OvfCleared s t ∧ t.flags = s.flags ∧ t.tx = s.tx ∧ t.idleCount = s.idleCount ∧
      t.draws = s.draws ∧ SameStores s t

/-- An address byte is run as R91 says: IsRead, IsWrite or no match. -/
def Obligations.AddressBytesMatchByTheRule : Prop :=
  ∀ (c : Config), c.Legal → ∀ a : Byte, ∃ i, decode c .address [a] = .ok i ∧
    (a.toNat = 2 * c.ownAddr.toNat + 1 → i = .addrRead c.ownAddr) ∧
    (a.toNat = 2 * c.ownAddr.toNat → i = .addrWrite c.ownAddr) ∧
    (a = 0x00#8 → i = .addrBroadcast) ∧
    (a.toNat ≠ 2 * c.ownAddr.toNat + 1 → a.toNat ≠ 2 * c.ownAddr.toNat → a ≠ 0x00#8 →
      ∃ b, b ≠ c.ownAddr ∧ (i = .addrRead b ∨ (i = .addrWrite b ∧ b ≠ 0#7)))

/-- The transition table R140 of the overflow handler, phase by phase. -/
def Obligations.TransitionTable : Prop :=
  ∀ s : State, s.cfg.Legal → s.armed = true →
    let t := overflowHandler s
    t.periph.ovfFlag = false ∧
    (s.phase = .checkAddress → isRead s.cfg s.periph.dr = true → t.phase = .sendData ∧ t.armed = true ∧
      t.sdaDrive = true ∧ t.bitCount = .one) ∧
    (s.phase = .checkAddress → isWrite s.cfg s.periph.dr = true → t.phase = .waitReceive ∧ t.armed = true ∧
      t.sdaDrive = true ∧ t.bitCount = .one) ∧
    (s.phase = .checkAddress → matchesAddr s.cfg s.periph.dr = false →
      idle t = true ∧ t.sdaDrive = false ∧ t.bitCount = .eight) ∧
    (s.phase = .sendData ∨ (s.phase = .checkAck ∧ s.periph.dr.getLsbD 0 = false) →
      (0 < s.tx.count → t.phase = .waitAckAfterSend ∧ t.armed = true ∧ t.sdaDrive = true ∧ t.bitCount = .eight) ∧
      (s.tx.count = 0 → idle t = true ∧ t.sdaDrive = false ∧ t.bitCount = .eight)) ∧
    (s.phase = .waitAckAfterSend → t.phase = .checkAck ∧ t.armed = true ∧ t.sdaDrive = false ∧ t.bitCount = .one) ∧
    (s.phase = .checkAck → s.periph.dr.getLsbD 0 = true →
      idle t = true ∧ t.sdaDrive = false ∧ t.bitCount = .eight ∧ t.flag .slowOpsReady = true) ∧
    (s.phase = .waitReceive → t.phase = .receiveAndAck ∧ t.armed = true ∧ t.sdaDrive = false ∧ t.bitCount = .eight) ∧
    (s.phase = .receiveAndAck → t.phase = .waitReceive ∧ t.armed = true ∧ t.sdaDrive = true ∧ t.bitCount = .one) ∧
    (t.flag .slowOpsReady = true → s.flag .slowOpsReady = true ∨ (s.phase = .checkAck ∧ s.periph.dr.getLsbD 0 = true))

/-- SendData and the ACK arm (R127, R130): the next reply byte is taken from TX into the shift register; with TX empty the
transport re-arms. No flag is written. The wired level of the data line and the host's side of it are the model's own (log
entries 16 and 29). -/
def Obligations.SendArmTakesTheNextByte : Prop :=
  ∀ s : State, s.cfg.Legal → s.tx.Wf s.cfg.txCap →
    (s.phase = .sendData ∨ (s.phase = .checkAck ∧ s.periph.dr.getLsbD 0 = false)) →
    let t := overflowHandler s
    t.flags = s.flags ∧ OvfCleared s t ∧ t.idleCount = s.idleCount ∧ t.draws = s.draws ∧ SameStores s t ∧
      t.tx.Wf s.cfg.txCap ∧
      (∀ b more, s.txBytes = b :: more → t.periph.dr = b ∧ t.txBytes = more ∧ t.phase = .waitAckAfterSend ∧
        t.armed = s.armed ∧ t.sdaDrive = true ∧ t.bitCount = .eight ∧ t.sda = (s.periph.hostSda && b.getLsbD 7)) ∧
      (s.txBytes = [] → t.periph.dr = s.periph.dr ∧ t.tx = s.tx ∧ idle t = true ∧ t.sdaDrive = false ∧
        t.bitCount = .eight ∧ t.sda = s.periph.hostSda)

/-- The NACK arm (R131): Rearm and SlowOpsReady; what is still in TX stays there. The wired level of the data line and the
host's side of it are the model's own (log entries 16 and 29). -/
def Obligations.NackCompletesTheTransaction : Prop :=
  ∀ s : State, s.phase = .checkAck → s.periph.dr.getLsbD 0 = true →
    let t := overflowHandler s
    idle t = true ∧ t.sdaDrive = false ∧ t.bitCount = .eight ∧ t.sda = s.periph.hostSda ∧ t.flag .slowOpsReady = true ∧
      OtherFlags .slowOpsReady s t ∧ OvfCleared s t ∧ t.periph.dr = s.periph.dr ∧ t.tx = s.tx ∧
      t.idleCount = s.idleCount ∧ t.draws = s.draws ∧ SameStores s t

/-- WaitAckAfterSend (R128): the block releases the line, clears dr and samples one bit, the host's acknowledgment; no flag, no
buffer and nothing else changes. The wired level of the data line and the host's side of it are the model's own (log entries
16 and 29). -/
def Obligations.SentByteIsFollowedByAnAckRead : Prop :=
  ∀ s : State, s.phase = .waitAckAfterSend →
    let t := overflowHandler s
    t.phase = .checkAck ∧ t.armed = s.armed ∧ t.sdaDrive = false ∧ t.bitCount = .one ∧ t.periph.dr = 0x00#8 ∧
      t.sda = s.periph.hostSda ∧ OvfCleared s t ∧ t.flags = s.flags ∧ t.tx = s.tx ∧ t.idleCount = s.idleCount ∧
      t.draws = s.draws ∧ SameStores s t

/-- WaitReceive (R135): the block releases the line and takes the next 8 bits; dr, the flags, the buffers and all else are
unchanged. The wired level of the data line and the host's side of it are the model's own (log entries 16 and 29). -/
def Obligations.AckIsFollowedByAByteToReceive : Prop :=
  ∀ s : State, s.phase = .waitReceive →
    let t := overflowHandler s
    t.phase = .receiveAndAck ∧ t.armed = s.armed ∧ t.sdaDrive = false ∧ t.bitCount = .eight ∧
      t.periph.dr = s.periph.dr ∧ t.sda = s.periph.hostSda ∧ OvfCleared s t ∧ t.flags = s.flags ∧ t.tx = s.tx ∧
      t.idleCount = s.idleCount ∧ t.draws = s.draws ∧ SameStores s t

/-- ReceiveAndAck (R136): the byte goes into RX, or is dropped when RX is full, and is acknowledged either way. The wired
level of the data line and the host's side of it are the model's own (log entries 16 and 29). -/
def Obligations.ReceivedByteIsPushedOrDropped : Prop :=
  ∀ s : State, s.cfg.Legal → s.rx.Wf s.cfg.rxCap → s.phase = .receiveAndAck →
    let t := overflowHandler s
    t.frame = (if s.rx.count = s.cfg.rxCap then s.frame else s.frame ++ [s.periph.dr]) ∧ t.rx.Wf s.cfg.rxCap ∧
      t.phase = .waitReceive ∧ t.armed = s.armed ∧ t.sdaDrive = true ∧ t.bitCount = .one ∧ t.periph.dr = 0x00#8 ∧
      t.sda = false ∧ OvfCleared s t ∧ t.flags = s.flags ∧ t.tx = s.tx ∧ t.idleCount = s.idleCount ∧ t.draws = s.draws ∧
      SameFlash s t ∧ SameWriter s t ∧ SameRun s t

/-- The ring buffers are first-in first-out (R66, R67): a push goes last or is dropped, a pop takes the first. -/
def Obligations.RingBuffersAreFifo : Prop :=
  ∀ (cap : Nat) (q : Ring) (b : Byte), IsPow2 cap → q.Wf cap →
    (q.push cap b).Wf cap ∧ (q.contents cap).length = q.count ∧
    (q.count = cap → q.push cap b = q) ∧
    (q.count < cap → (q.push cap b).contents cap = q.contents cap ++ [b]) ∧
    (0 < q.count → (q.pop cap).2.Wf cap ∧ q.contents cap = (q.pop cap).1 :: (q.pop cap).2.contents cap)

/-! ## The peripheral and the host's duties (60_exceptions.md R264, 00_scope.md R20) -/

/-- An armed peripheral that samples takes eight clocks into dr, first bit at dr[7], and sets ovfFlag with the eighth and not
before; clocks while not armed count nothing (R264), and where the line is released they too are sampled into dr (R32). The
count of bits and the record of what the host has seen are the model's own (log entries 15 and 16). -/
def Obligations.EightClocksShiftAByteIn : Prop :=
  ∀ (s : State) (b : Byte), s.restarting = false → s.periph.startFlag = false → s.periph.ovfFlag = false →
    (s.armed = true → s.sdaDrive = false → s.bitCount = .eight → s.periph.shifted = 0 →
      (∀ n ≤ 7, ∃ u, deliverAll ((byteClocks b).take n) s = .ok u ∧ u.periph.ovfFlag = false) ∧
      ∃ u, deliverAll (byteClocks b) s = .ok u ∧ u.periph.dr = b ∧ u.periph.ovfFlag = true ∧
        u.seen = bitsSeen b ++ s.seen ∧ u.phase = s.phase ∧ u.flags = s.flags ∧ u.rx = s.rx ∧ u.tx = s.tx ∧
        u.draws = s.draws) ∧
    (s.armed = false → ∃ u, deliverAll (byteClocks b) s = .ok u ∧ u.periph.ovfFlag = false ∧
      u.periph.shifted = s.periph.shifted ∧ (s.sdaDrive = false → u.periph.dr = b))

/-- While the device drives and the host releases the line, the line carries the bits of dr, most significant bit first
(R264): before each clock its level is the next bit, and what the host has seen after eight are all of them. That a driving
block shows the next bit of dr after each clock, and the count of bits, are the model's own (log entry 15), and so are the
wired level of the line, the host's side of it and the record of what the host has seen (log entries 16 and 29). -/
def Obligations.EightClocksShiftAByteOut : Prop :=
  ∀ (s : State), s.restarting = false → s.periph.startFlag = false → s.periph.ovfFlag = false → s.armed = true →
    s.sdaDrive = true → s.bitCount = .eight → s.periph.shifted = 0 →
    s.sda = (s.periph.hostSda && s.periph.dr.getLsbD 7) ∧
    (∀ n, 1 ≤ n → n ≤ 7 → ∃ u, deliverAll ((byteClocks 0xFF#8).take n) s = .ok u ∧
      u.sda = s.periph.dr.getLsbD (7 - n)) ∧
    ∃ u, deliverAll (byteClocks 0xFF#8) s = .ok u ∧ u.seen = bitsSeen s.periph.dr ++ s.seen ∧ u.periph.ovfFlag = true ∧
      u.phase = s.phase ∧ u.flags = s.flags ∧ u.rx = s.rx ∧ u.tx = s.tx

/-- A host that breaks the quiet gap or outruns the device is refused (R303): a start or a clock between a completing NACK and
its pass, or while the block waits for the watchdog, and a clock before the device has handled the last edge. The refusals'
exact conditions are the model's reading of H4 and H5 (log entry 9). -/
def Obligations.BrokenHostDutiesAreRefused : Prop :=
  ∀ (s : State) (bit : Bool) (rest : List BusEvent),
    (s.restarting = true ∨ (s.armed = true ∧ s.periph.ovfFlag = true ∧ s.phase = .checkAck ∧ s.periph.dr.getLsbD 0 = true) →
      deliverAll (.start :: rest) s = .error .quietGapBroken ∧
      deliverAll (.clock bit :: rest) s = .error .quietGapBroken) ∧
    (s.restarting = false → (s.phase ≠ .checkAck ∨ s.periph.dr.getLsbD 0 = false) →
      (s.periph.startFlag = true ∨ (s.armed = true ∧ s.periph.ovfFlag = true)) →
      deliverAll (.clock bit :: rest) s = .error .realTimeBroken)

/-! ## The scheduler (43_scheduler.md) -/

/-- A step runs the instruction the address byte decodes to: in a pass whose event is the shift-complete of phase CheckAddress,
the step is exec of that instruction, with SlowOpsReady cleared before it and the rest of the pass after it (R240, R241). -/
def Obligations.StepRunsTheDecodedAddress : Prop :=
  ∀ (s u : State) (i : Instr), Delivered s u → u.Runs → u.ShiftComplete → u.phase = .checkAddress →
    decode u.cfg .address [u.periph.dr] = .ok i →
    ∃ t, exec i (u.lower .slowOpsReady) = .next t ∧ step s = .next (finishPass t)

/-- A step runs the instruction the frame decodes to: where the address byte is the device's own read address, the command RX
holds is run by exec inside that step, on TX flushed and RX drained, before the ACK is driven (R124, R160). -/
def Obligations.StepRunsTheDecodedCommand : Prop :=
  ∀ (s u : State) (i : Instr), Delivered s u → u.Runs → u.ShiftComplete → u.phase = .checkAddress →
    u.periph.dr = u.cfg.ownAddr ++ 1#1 → decode u.cfg .frame u.frame = .ok i →
    ∃ t, exec i (u.lower .slowOpsReady).flushTx.drainRx = .next t ∧
      step s = .next (finishPass (((t.withPhase .sendData).sendAck).clearOvf))

/-- A step runs the jump word the CPU stands at outside the block (R100, R291). The CPU's position there, and the fetch of a
word past the flash modulo FLASH_BYTES, are the model's own (log entries 13 and 30). -/
def Obligations.StepRunsTheDecodedJump : Prop :=
  ∀ (s u : State) (w : WordAddr) (i : Instr), Delivered s u → u.run = .running → u.restarting = false → u.cpu = some w →
    decode u.cfg (.cpu w)
      [Memory.read (2 * w.toNat % u.cfg.flashBytes) u.flash, Memory.read ((2 * w.toNat + 1) % u.cfg.flashBytes) u.flash] =
      .ok i →
    step s = exec i u

/-- The start handler (R122): it releases the data line, holds while the clock is high and the line low, and then nothing but
phase, sdaDrive and SlowOpsReady is written and no idle pass is counted (log entry 8); then it arms for the address byte, or
sees a stop and re-arms, and the pass may be the one that launches (R244). A pending shift-complete is dropped with it (R242).
The CPU's position, and the wired level of the data line with the host's side of it, are the model's own (log entries 13, 16
and 29). -/
def Obligations.StartHandlerHoldsArmsOrRearms : Prop :=
  ∀ s u : State, Delivered s u → u.Runs → u.periph.startFlag = true →
    ∃ t, step s = .next t ∧ t.phase = .checkAddress ∧ t.sdaDrive = false ∧ t.flags = (u.lower .slowOpsReady).flags ∧
      t.tx = u.tx ∧ t.rx = u.rx ∧ t.draws = u.draws ∧ SameFlash u t ∧ SameWriter u t ∧ t.periph.dr = u.periph.dr ∧
      t.periph.scl = u.periph.scl ∧ t.periph.hostSda = u.periph.hostSda ∧ t.sda = u.periph.hostSda ∧
      (u.periph.scl = true ∧ u.periph.hostSda = false →
        t.periph = u.periph ∧ t.armed = u.armed ∧ t.bitCount = u.bitCount ∧ t.idleCount = u.idleCount ∧ SameRun u t) ∧
      (¬(u.periph.scl = true ∧ u.periph.hostSda = false) →
        t.periph.startFlag = false ∧ t.periph.stopFlag = false ∧ t.periph.ovfFlag = false ∧ t.bitCount = .eight ∧
          t.armed = !u.periph.scl ∧ (t.idleCount = u.idleCount + if initialized u = true then 0 else 1) ∧
          CountedRun (initialized u = false ∧ u.CountReached) u t)

/-- A pass with no event (R240, R244, R137): SlowOpsReady is cleared, an overflow that is not armed is cleared, an idle pass is
counted while the block is not initialized, the run ends if that count is reached, and nothing else changes, the bits counted
so far among it. That clearing an overflow starts the count again, the CPU's position, and the wired level of the data line
with the host's side of it, are the model's own (log entries 15, 13, 16 and 29). -/
def Obligations.QuietPassChangesNothingElse : Prop :=
  ∀ s u : State, Delivered s u → u.Runs → u.periph.startFlag = false → (u.periph.ovfFlag = false ∨ u.armed = false) →
    ∃ t, step s = .next t ∧ t.flags = (u.lower .slowOpsReady).flags ∧ SameTransport u t ∧ SameFlash u t ∧
      SameWriter u t ∧ t.rx = u.rx ∧ t.tx = u.tx ∧ t.draws = u.draws ∧
      t.periph =
        { u.periph with ovfFlag := false, shifted := if u.periph.ovfFlag = true then 0 else u.periph.shifted } ∧
      t.sda = u.sda ∧
      (t.idleCount = u.idleCount + if initialized u = true then 0 else 1) ∧
      CountedRun (initialized u = false ∧ u.CountReached) u t

/-- The idle loop (R244): in every pass whose handlers leave the block uninitialized, bus traffic or not, the idle count rises
by one, and the pass that counts to AUTO_LAUNCH_PASSES ends the run at the trampoline slot, whatever the phase; a shorter
count does not. All else is as the pass's one handler leaves it, and only the device's own read address, which dispatches, can
complete the handshake. A pass in which the start handler holds is no whole pass and counts nothing (log entry 8), and the
CPU's position is the model's own (log entry 13). -/
def Obligations.IdlePassesAutoLaunch : Prop :=
  ∀ s u : State, Delivered s u → u.Runs →
    ¬(u.periph.startFlag = true ∧ u.periph.scl = true ∧ u.periph.hostSda = false) →
    let l := u.lower .slowOpsReady
    let v := if u.periph.startFlag = true then startHandler l
      else if u.periph.ovfFlag = true then (if u.armed = true then overflowHandler l else l.clearOvf)
      else l
    (initialized u = false →
      ¬(u.ShiftComplete ∧ u.phase = .checkAddress ∧ isRead u.cfg u.periph.dr = true) → initialized v = false) ∧
    (initialized v = false →
      ∃ t, step s = .next t ∧ t.idleCount = u.idleCount + 1 ∧ CountedRun u.CountReached u t ∧ SameFlash u t ∧
        t.flags = v.flags ∧ SameTransport v t ∧ t.periph = v.periph ∧ SameWriter v t ∧ t.rx = v.rx ∧ t.tx = v.tx ∧
        t.draws = v.draws)

/-- The gate (R243): OneStep needs Init1, TwoStep needs both (R172); a step that is no reset keeps the handshake bits that are
set, and a step that is one leaves the reset state R49. Which steps are resets is `State.Resets`: that the watchdog fires in
the step after the erase, that a reset from outside can come before any step, and that every arrival of the CPU at B_WORD, and
at no other word, is one, are the model's own (log entries 10, 11, 13, 14 and 30). -/
def Obligations.HandshakeGateIsStickyUntilReset : Prop :=
  ∀ s : State,
    (s.cfg.handshake = .oneStep → (initialized s = true ↔ s.flag .init1 = true)) ∧
    (s.cfg.handshake = .twoStep → (initialized s = true ↔ s.flag .init1 = true ∧ s.flag .init2 = true)) ∧
    ∀ t, step s = .next t →
      (s.Resets → AtReset s t) ∧
      (¬s.Resets →
        (s.flag .init1 = true → t.flag .init1 = true) ∧ (s.flag .init2 = true → t.flag .init2 = true) ∧
          (initialized s = true → initialized t = true))

/-- The slow operations in strict order (R246, R247, R248, R249, R308): in the pass of a completing NACK of an initialized
block, a pending exit launches at word B_WORD - 1 and the flash stays; else a pending erase runs; else a ready page is
committed; else nothing happens. -/
def Obligations.SlowOperationsInStrictOrder : Prop :=
  ∀ s u : State, Delivered s u → u.cfg.Legal → u.Runs → u.NackArm → initialized u = true →
    ∃ t, step s = .next t ∧
      (u.flag .exitToApp = true →
        t.run = .launched (BitVec.ofNat 12 (u.cfg.bootStart / 2 - 1)) ∧ SameFlash u t ∧ idle t = true ∧
        t.flag .slowOpsReady = true ∧ OtherFlags .slowOpsReady u t) ∧
      (u.flag .exitToApp = false → u.flag .deleteFlash = true →
        t.run = .running ∧ ∀ a, Memory.read a t.flash = if a < u.cfg.bootStart then 0xFF#8 else Memory.read a u.flash) ∧
      (u.flag .exitToApp = false → u.flag .deleteFlash = false → ready u = false →
        t.run = .running ∧ SameFlash u t ∧ SameWriter u t ∧ idle t = true ∧
        t.flag .slowOpsReady = true ∧ OtherFlags .slowOpsReady u t) ∧
      (u.flag .exitToApp = false → u.flag .deleteFlash = false → ready u = true →
        t.run = .running ∧ t.pageIndex = 0#8 ∧ idle t = true)

/-- A launched block has no step (R240, R248); only a reset from outside starts it again (R290). -/
def Obligations.LaunchedBlockHasNoStep : Prop :=
  ∀ (s : State) (w : WordAddr), s.run = .launched w →
    ((∀ rest, s.host ≠ .reset :: rest) → step s = .fault (.launched w)) ∧
    (∀ rest, s.host = .reset :: rest → ∃ t, step s = .next t ∧ t.run = .running)

/-- Deferred execution (R250, R268): a step that changes a flash byte, and a step of an initialized block that ends its run, is
a step whose pass handles the NACK that completes a transaction, of an initialized block. -/
def Obligations.SlowOperationsOnlyAtANack : Prop :=
  ∀ s u t : State, Delivered s u → step s = .next t →
    (¬SameFlash s t → u.NackArm ∧ u.Runs ∧ initialized u = true) ∧
    (s.run = .running → initialized u = true → t.run ≠ .running → u.NackArm ∧ u.Runs)

/-! ## The page writer (42_page_writer.md) -/

/-- FlashProgram ANDs, FlashErasePage sets 0xFF, and neither touches another byte (R62, R63); both keep the canonical form. -/
def Obligations.FlashPrimitives : Prop :=
  ∀ (m : Memory) (ps p : Nat) (img : List Byte), Memory.wf m = true →
    Memory.wf (Memory.program p img m) = true ∧ Memory.wf (Memory.erasePage ps p m) = true ∧
    (∀ a, Memory.read a (Memory.program p img m) =
      if p ≤ a ∧ a < p + img.length then Memory.read a m &&& img.getD (a - p) 0 else Memory.read a m) ∧
    (∀ a, Memory.read a (Memory.erasePage ps p m) = if p ≤ a ∧ a < p + ps then 0xFF#8 else Memory.read a m)

/-- Trampoline correctness (R203, R211): for every B_WORD below 4096 that has a word before it and every captured reset-vector
word, the word Tramp gives is a relative jump that reaches, from word B_WORD - 1, the word the application's own reset jump
reaches from word 0. -/
def Obligations.TrampolineReachesTheResetTarget : Prop :=
  ∀ (c : Config) (lsb msb : Byte), 0 < c.bWord → c.bWord < 4096 →
    (tramp c lsb msb).toNat = trampValue c lsb msb ∧
    ∃ k, decode c (.cpu c.trampWord) (wordBytes (tramp c lsb msb)) = .ok (.trampoline k) ∧
      (jumpTarget c.trampWord k).toNat = (origWord lsb msb + 1) % 4096 ∧
      jumpTarget c.trampWord k = jumpTarget 0#12 (BitVec.ofNat 12 (origWord lsb msb))

/-- The commit of a page that is not the application's trampoline page (R202, R204, R206, R207): the staged image is
programmed, over an erased page if the build erases; page 0 installs the trampoline page; no other byte changes; pageIndex
becomes 0 and pageAddress advances in an AUTO_PAGE_ADDR build. The wired level of the data line and the host's side of it are
the model's own (log entries 16 and 29). -/
def Obligations.CommitProgramsTheStagedPage : Prop :=
  ∀ s u : State, Delivered s u → s.Inv → u.Runs → u.NackArm → initialized u = true → u.flag .exitToApp = false →
    u.flag .deleteFlash = false → u.pageIndex.toNat = u.cfg.pageSize → u.pageAddress.toNat < u.cfg.appLimit →
    ¬(u.cfg.appUsesTrampolinePage = true ∧ u.pageAddress.toNat = u.cfg.trampPage) →
    let p := u.pageAddress.toNat
    ∃ t, step s = .next t ∧
      (∀ a, Memory.read a t.flash =
        if p = 0 ∧ u.cfg.trampPage ≤ a ∧ a < u.cfg.bootStart then
          (if a = u.cfg.trampSlot then BitVec.ofNat 8 (trampValue u.cfg u.appResetLsb u.appResetMsb % 256)
            else if a = u.cfg.trampSlot + 1 then BitVec.ofNat 8 (trampValue u.cfg u.appResetLsb u.appResetMsb / 256)
            else 0xFF#8)
        else if p ≤ a ∧ a < p + u.cfg.pageSize then
          (if u.cfg.eraseBeforeWrite = true then u.stage.getD (a - p) 0
            else Memory.read a u.flash &&& u.stage.getD (a - p) 0)
        else Memory.read a u.flash) ∧
      t.pageIndex = 0#8 ∧
      t.pageAddress.toNat = (if u.cfg.autoPageAddr = true then p + u.cfg.pageSize else p) ∧
      t.stage = u.stage ∧ t.appResetLsb = u.appResetLsb ∧ t.appResetMsb = u.appResetMsb ∧
      t.flag .slowOpsReady = true ∧ OtherFlags .slowOpsReady u t ∧ SameRun u t ∧ t.rx = u.rx ∧ t.tx = u.tx ∧
      t.idleCount = u.idleCount ∧ t.draws = u.draws ∧ idle t = true ∧ t.sdaDrive = false ∧ t.bitCount = .eight ∧
      t.sda = u.periph.hostSda ∧ OvfCleared u t ∧ t.periph.dr = u.periph.dr

/-- The commit of the application's trampoline page (R205, R202, R207): with its last two staged bytes erased the trampoline
is installed in them; otherwise the page is programmed as staged and DeleteFlash is set. Either way pageIndex becomes 0,
pageAddress advances in an AUTO_PAGE_ADDR build, and no other byte, buffer or register changes. The wired level of the data
line and the host's side of it are the model's own (log entries 16 and 29). -/
def Obligations.TrampolineSlotCheck : Prop :=
  ∀ s u : State, Delivered s u → s.Inv → u.Runs → u.NackArm → initialized u = true → u.flag .exitToApp = false →
    u.flag .deleteFlash = false → u.pageIndex.toNat = u.cfg.pageSize → u.cfg.appUsesTrampolinePage = true →
    u.pageAddress.toNat = u.cfg.trampPage →
    let ps := u.cfg.pageSize
    let free := u.stage.getD (ps - 2) 0 = 0xFF#8 ∧ u.stage.getD (ps - 1) 0 = 0xFF#8
    let old := fun a => if u.cfg.eraseBeforeWrite = true then 0xFF#8 else Memory.read a u.flash
    ∃ t, step s = .next t ∧ t.pageIndex = 0#8 ∧
      t.pageAddress.toNat = (if u.cfg.autoPageAddr = true then u.cfg.bootStart else u.cfg.trampPage) ∧
      t.stage = u.stage ∧ t.appResetLsb = u.appResetLsb ∧ t.appResetMsb = u.appResetMsb ∧ SameRun u t ∧ t.rx = u.rx ∧
      t.tx = u.tx ∧ t.idleCount = u.idleCount ∧ t.draws = u.draws ∧ idle t = true ∧ t.sdaDrive = false ∧
      t.bitCount = .eight ∧ t.sda = u.periph.hostSda ∧ OvfCleared u t ∧ t.periph.dr = u.periph.dr ∧
      (∀ a, ¬(u.cfg.trampPage ≤ a ∧ a < u.cfg.bootStart) → Memory.read a t.flash = Memory.read a u.flash) ∧
      (∀ a, u.cfg.trampPage ≤ a → a < u.cfg.trampSlot →
        Memory.read a t.flash = old a &&& u.stage.getD (a - u.cfg.trampPage) 0) ∧
      (free →
        Memory.read u.cfg.trampSlot t.flash =
          old u.cfg.trampSlot &&& BitVec.ofNat 8 (trampValue u.cfg u.appResetLsb u.appResetMsb % 256) ∧
        Memory.read (u.cfg.trampSlot + 1) t.flash =
          old (u.cfg.trampSlot + 1) &&& BitVec.ofNat 8 (trampValue u.cfg u.appResetLsb u.appResetMsb / 256) ∧
        t.flag .deleteFlash = false) ∧
      (¬free →
        Memory.read u.cfg.trampSlot t.flash = old u.cfg.trampSlot &&& u.stage.getD (ps - 2) 0 ∧
        Memory.read (u.cfg.trampSlot + 1) t.flash = old (u.cfg.trampSlot + 1) &&& u.stage.getD (ps - 1) 0 ∧
        t.flag .deleteFlash = true) ∧
      t.flag .slowOpsReady = true ∧
      (∀ i, i ≠ Flag.deleteFlash.pos → i ≠ Flag.slowOpsReady.pos → t.flags.getLsbD i = u.flags.getLsbD i)

/-- A full page at or above APP_LIMIT is neither committed nor discarded (R201): at a completing NACK with nothing else pending
it stays staged, and the next Write-Page-Data sets DeleteFlash. -/
def Obligations.FullPageAtTheLimitStaysStaged : Prop :=
  ∀ s u : State, Delivered s u → s.Inv → u.Runs → u.NackArm → initialized u = true → u.flag .exitToApp = false →
    u.flag .deleteFlash = false → u.pageIndex.toNat = u.cfg.pageSize → u.cfg.appLimit ≤ u.pageAddress.toNat →
    ∃ t, step s = .next t ∧ SameFlash u t ∧ SameWriter u t ∧ OtherFlags .slowOpsReady u t ∧
      ∀ (d : List Byte) (cs : Byte), d.length = u.cfg.packetSize →
        ∃ v, exec (.writePage d cs) t = .next v ∧ v.flag .deleteFlash = true ∧ SameWriter t v

/-- The safety erase and the restart (R208, R209): [0, BOOT_START) is erased and the bootloader is not; a DirectJump build is in
its reset state in the same pass, a Watchdog build waits, and is in its reset state when the watchdog fires. In that wait the
host may still make its stop condition or pull the clock low (R115), or the outside may reset the block; a start or a clock is
refused. That the wait is one step, what is refused in it, and that an outside reset can end it are the model's own (log
entries 10, 9 and 11). -/
def Obligations.SafetyEraseEndsInTheResetState : Prop :=
  ∀ s u : State, Delivered s u → s.Inv → u.Runs → u.NackArm → initialized u = true → u.flag .exitToApp = false →
    u.flag .deleteFlash = true →
    ∃ t, step s = .next t ∧
      (∀ a, Memory.read a t.flash = if a < u.cfg.bootStart then 0xFF#8 else Memory.read a u.flash) ∧
      (u.cfg.restartMode = .directJump → AtReset u t) ∧
      (u.cfg.restartMode = .watchdog →
        t.restarting = true ∧ t.run = .running ∧ t.host = u.host ∧
        (u.host = [] ∨ (∃ es r, u.host = .bus es :: r ∧ ∀ e ∈ es, e = .stop ∨ e = .clockLow) ∨
            (∃ r, u.host = .reset :: r) →
          ∃ v, step t = .next v ∧ AtReset u v ∧ SameFlash t v) ∧
        (∀ es r, u.host = .bus es :: r → (∃ e ∈ es, e = .start ∨ ∃ b, e = .clock b) →
          step t = .refused .quietGapBroken))

/-! ## Jump words (30_encoding.md R100, R101; 70_reset_and_hazards.md R291) -/

/-- A relative jump at word w takes the CPU to (w + 1 + sext_12(k)) mod 4096 (R100) and changes nothing of the block, unless
that is B_WORD, where the bootloader starts in its reset state, the flash as it was (R291, R292); a jump word is not executed
while the CPU runs the block (R73). The wait for the watchdog that a boot ends, the CPU's position, the boot at B_WORD, and that a
target past the flash stays as it is and boots nothing, are the model's own (log entries 10, 13, 14 and 30). -/
def Obligations.RelativeJumpMovesTheCpu : Prop :=
  ∀ (s : State) (k : BitVec 12) (i : Instr), (i = .rjmp k ∨ i = .entryJump k ∨ i = .trampoline k) →
    (s.cpu = none → exec i s = .fault .cpuInBlock) ∧
    (∀ w, s.cpu = some w →
      let target := BitVec.ofInt 12 ((w.toNat : Int) + 1 + (if 2048 ≤ k.toNat then (k.toNat : Int) - 4096 else k.toNat))
      (target ≠ s.cfg.bootWord → exec i s = .next { s with cpu := some target }) ∧
      (target = s.cfg.bootWord → ∃ t, exec i s = .next t ∧ AtReset s t ∧ SameFlash s t ∧ t.host = s.host))

/-- The bootloader-entry jump at word 0 reaches B_WORD, where the bootloader starts in its reset state, the flash as it was
(R101, R291, R292). The wait for the watchdog that a boot ends, the CPU's position, and that an arrival at B_WORD is the boot
sequence whatever came before, are the model's own (log entries 10, 13 and 14). -/
def Obligations.EntryJumpStartsTheBootloader : Prop :=
  ∀ s : State, s.cfg.Legal → s.cpu = some 0#12 →
    decode s.cfg (.cpu 0#12) [entryLo s.cfg, entryHi s.cfg] = .ok (.entryJump s.cfg.entryDisp) ∧
    (jumpTarget 0#12 s.cfg.entryDisp).toNat = s.cfg.bootStart / 2 ∧
    ∃ t, exec (.entryJump s.cfg.entryDisp) s = .next t ∧ AtReset s t ∧ SameFlash s t ∧ t.frame = [] ∧ t.txBytes = [] ∧
      t.host = s.host

/-- A launch reaches the application (R204, R211, R248): from a launched block whose trampoline slot holds the trampoline of
the captured reset vector, the word the CPU stands at decodes to a trampoline that takes it to the application's own reset
target. The CPU's position, and that a target past the flash stays as it is, are the model's own (log entries 13 and 30). -/
def Obligations.LaunchReachesTheApplication : Prop :=
  ∀ (s : State) (lsb msb : Byte), s.cfg.Legal → s.run = .launched s.cfg.trampWord → s.cpu = some s.cfg.trampWord →
    Memory.read s.cfg.trampSlot s.flash = BitVec.ofNat 8 (trampValue s.cfg lsb msb % 256) →
    Memory.read (s.cfg.trampSlot + 1) s.flash = BitVec.ofNat 8 (trampValue s.cfg lsb msb / 256) →
    (origWord lsb msb + 1) % 4096 ≠ s.cfg.bootStart / 2 →
    ∃ k, decode s.cfg (.cpu s.cfg.trampWord) [s.flashRead (2 * s.cfg.trampWord.toNat),
        s.flashRead (2 * s.cfg.trampWord.toNat + 1)] = .ok (.trampoline k) ∧
      exec (.trampoline k) s = .next { s with cpu := some (BitVec.ofNat 12 (origWord lsb msb + 1)) }

/-! ## Reset (70_reset_and_hazards.md) -/

/-- A reset (R290, R49): every field the table gives a value has it, the flash is unchanged, and the block runs, whatever it did
before. That an outside reset comes before a step in every state, a launched or a waiting one included, is the model's own
(log entry 11). -/
def Obligations.ResetSetsTheTableR49 : Prop :=
  ∀ (s : State) (rest : List Turn), s.host = .reset :: rest →
    ∃ t, step s = .next t ∧ t.phase = .checkAddress ∧ t.armed = false ∧ t.sdaDrive = false ∧ t.bitCount = .eight ∧
      t.pageAddress = 0x0000#16 ∧ t.pageIndex = 0#8 ∧ t.flags = 0x00#8 ∧ t.rx.head = 0 ∧ t.rx.tail = 0 ∧ t.rx.count = 0 ∧
      t.tx.head = 0 ∧ t.tx.tail = 0 ∧ t.tx.count = 0 ∧ t.idleCount = 0 ∧ t.run = .running ∧
      t.periph.startFlag = false ∧ t.periph.ovfFlag = false ∧ t.periph.stopFlag = false ∧
      t.interruptsEnabled = false ∧ t.cfg = s.cfg ∧ t.flash = s.flash ∧ t.host = rest

/-- The power-up state has the values of the table R49 and meets the invariant. Its configuration, its flash and the values of
the fields the table leaves unspecified are the model's own (log entries 2, 3, 5, 6). -/
def Obligations.PowerUpStateMeetsTheInvariant : Prop :=
  State.reset.Inv ∧ State.reset.VectorStaged ∧ State.reset.Runs ∧ idle State.reset = true ∧ State.reset.flags = 0x00#8 ∧
    State.reset.pageAddress = 0x0000#16 ∧ State.reset.pageIndex = 0#8 ∧ State.reset.idleCount = 0 ∧
    State.reset.frame = [] ∧ State.reset.txBytes = []

/-! ## Whole-machine rules -/

/-- The invariant is kept by every step, from every state that meets it (R47 and the ranges of R31 to R44). -/
def Obligations.EveryStepKeepsTheInvariant : Prop :=
  ∀ s t : State, s.Inv → step s = .next t → t.Inv

/-- No step writes a byte at or above BOOT_START (R43, R61, R79), and none changes the build. -/
def Obligations.BootloaderIsNeverWritten : Prop :=
  ∀ s t : State, s.Inv → step s = .next t →
    t.cfg = s.cfg ∧ ∀ a, s.cfg.bootStart ≤ a → Memory.read a t.flash = Memory.read a s.flash

/-- In an AUTO_PAGE_ADDR build the reset-vector page is never committed verbatim (R47 item 4, R206): what is staged for page 0
always begins with the bootloader-entry jump, every step keeps that, a reset from outside included, and a step that commits
page 0 leaves the bootloader-entry jump in flash word 0: itself where the build erases the page or the word's byte is still
erased, and ANDed into what stands there otherwise (R62). -/
def Obligations.ResetVectorIsNeverCommittedVerbatim : Prop :=
  ∀ s t : State, s.Inv → s.VectorStaged → s.cfg.autoPageAddr = true → step s = .next t →
    t.VectorStaged ∧
    ∀ u, Delivered s u → u.Runs → u.NackArm → initialized u = true → u.flag .exitToApp = false →
      u.flag .deleteFlash = false → ready u = true → u.pageAddress = 0#16 →
      let onto := fun a (e : Byte) =>
        if s.cfg.eraseBeforeWrite = true ∨ Memory.read a u.flash = 0xFF#8 then e else Memory.read a u.flash &&& e
      Memory.read 0 t.flash = onto 0 (entryLo s.cfg) ∧ Memory.read 1 t.flash = onto 1 (entryHi s.cfg)

/-- A write transaction (R141, R115): from an idle block, W{b_1, …, b_n} to the device's own address or the broadcast address
ends with the bytes behind those RX held, what does not fit dropped, every byte acknowledged, and no other store changed. The
record of what the host has seen is the model's own (log entry 16). -/
def Obligations.WriteTransactionFillsRx : Prop :=
  ∀ (s : State) (a : Byte) (bs : List Byte) (rest : List Turn), s.Inv → s.Runs → s.NoAutoLaunch → idle s = true →
    isWrite s.cfg a = true → s.host = writeTurns a bs ++ rest →
    ∃ t, Sys2Proof.core.run (2 * bs.length + 4) s = .next t ∧ t.host = rest ∧
      t.frame = (s.frame ++ bs).take s.cfg.rxCap ∧ t.rx.Wf s.cfg.rxCap ∧ t.tx = s.tx ∧
      t.flags = (s.lower .slowOpsReady).flags ∧ SameFlash s t ∧ SameWriter s t ∧ t.run = .running ∧ t.cfg = s.cfg ∧
      t.phase = .receiveAndAck ∧ t.armed = true ∧ t.periph.startFlag = false ∧ t.periph.stopFlag = true ∧
      t.seen = (bs.reverse.flatMap fun b => false :: bitsSeen b) ++ (false :: bitsSeen a) ++ s.seen

/-- A read transaction (R142, R115): from an idle initialized block, R[n + 1] runs the frame RX holds once, before the first
reply byte; with at least n + 1 reply bytes the host receives the first n + 1 in order, the rest stay in TX, and SlowOpsReady
is set in the pass of the NACK. Stated where that pass finds no slow operation to run (those have their own statements). The
record of what the host has seen, its released NACK bit included, is the model's own (log entry 16). -/
def Obligations.ReadTransactionSendsTheReply : Prop :=
  ∀ (s v : State) (i : Instr) (n : Nat) (rest : List Turn), s.Inv → s.Runs → initialized s = true → idle s = true →
    s.host = readTransaction (s.cfg.ownAddr ++ 1#1) n ++ rest →
    decode s.cfg .frame s.frame = .ok i → exec i s.flushTx.drainRx = .next v → n + 1 ≤ v.txBytes.length →
    v.flag .exitToApp = false → v.flag .deleteFlash = false → ready v = false →
    ∃ t, Sys2Proof.core.run (2 * n + 5) s = .next t ∧ t.host = .bus [.stop] :: rest ∧ t.frame = [] ∧
      t.txBytes = v.txBytes.drop (n + 1) ∧ t.flag .slowOpsReady = true ∧ OtherFlags .slowOpsReady v t ∧ idle t = true ∧
      SameFlash s t ∧ SameWriter v t ∧ t.run = .running ∧
      t.seen = true :: bitsSeen (v.txBytes.getD n 0) ++
        ((v.txBytes.take n).reverse.flatMap fun b => false :: bitsSeen b) ++
        (false :: bitsSeen (s.cfg.ownAddr ++ 1#1)) ++ s.seen
end

