-- ==== Sys2Proof/Laws/State.lean ====
section
/-! SUPPORT. What each named update of the state does to each field: one lemma per field per update, true by rfl. -/

namespace Sys2Proof.Machine

open Sys2Proof

/-! ## withFlash -/

@[simp] theorem State.withFlash_cfg (s : State) (m : Memory) : (s.withFlash m).cfg = s.cfg := rfl
@[simp] theorem State.withFlash_phase (s : State) (m : Memory) : (s.withFlash m).phase = s.phase := rfl
@[simp] theorem State.withFlash_armed (s : State) (m : Memory) : (s.withFlash m).armed = s.armed := rfl
@[simp] theorem State.withFlash_sdaDrive (s : State) (m : Memory) : (s.withFlash m).sdaDrive = s.sdaDrive := rfl
@[simp] theorem State.withFlash_bitCount (s : State) (m : Memory) : (s.withFlash m).bitCount = s.bitCount := rfl
@[simp] theorem State.withFlash_pageAddress (s : State) (m : Memory) :
    (s.withFlash m).pageAddress =
      s.pageAddress := rfl
@[simp] theorem State.withFlash_pageIndex (s : State) (m : Memory) : (s.withFlash m).pageIndex = s.pageIndex := rfl
@[simp] theorem State.withFlash_flags (s : State) (m : Memory) : (s.withFlash m).flags = s.flags := rfl
@[simp] theorem State.withFlash_appResetLsb (s : State) (m : Memory) :
    (s.withFlash m).appResetLsb =
      s.appResetLsb := rfl
@[simp] theorem State.withFlash_appResetMsb (s : State) (m : Memory) :
    (s.withFlash m).appResetMsb =
      s.appResetMsb := rfl
@[simp] theorem State.withFlash_stage (s : State) (m : Memory) : (s.withFlash m).stage = s.stage := rfl
@[simp] theorem State.withFlash_rx (s : State) (m : Memory) : (s.withFlash m).rx = s.rx := rfl
@[simp] theorem State.withFlash_tx (s : State) (m : Memory) : (s.withFlash m).tx = s.tx := rfl
@[simp] theorem State.withFlash_idleCount (s : State) (m : Memory) : (s.withFlash m).idleCount = s.idleCount := rfl
@[simp] theorem State.withFlash_run (s : State) (m : Memory) : (s.withFlash m).run = s.run := rfl
@[simp] theorem State.withFlash_flash (s : State) (m : Memory) : (s.withFlash m).flash = m := rfl
@[simp] theorem State.withFlash_periph (s : State) (m : Memory) : (s.withFlash m).periph = s.periph := rfl
@[simp] theorem State.withFlash_interruptsEnabled (s : State) (m : Memory) :
    (s.withFlash m).interruptsEnabled =
      s.interruptsEnabled := rfl
@[simp] theorem State.withFlash_restarting (s : State) (m : Memory) : (s.withFlash m).restarting = s.restarting := rfl
@[simp] theorem State.withFlash_cpu (s : State) (m : Memory) : (s.withFlash m).cpu = s.cpu := rfl
@[simp] theorem State.withFlash_draws (s : State) (m : Memory) : (s.withFlash m).draws = s.draws := rfl
@[simp] theorem State.withFlash_host (s : State) (m : Memory) : (s.withFlash m).host = s.host := rfl
@[simp] theorem State.withFlash_seen (s : State) (m : Memory) : (s.withFlash m).seen = s.seen := rfl

/-! ## flushTx -/

@[simp] theorem State.flushTx_cfg (s : State) : (s.flushTx).cfg = s.cfg := rfl
@[simp] theorem State.flushTx_phase (s : State) : (s.flushTx).phase = s.phase := rfl
@[simp] theorem State.flushTx_armed (s : State) : (s.flushTx).armed = s.armed := rfl
@[simp] theorem State.flushTx_sdaDrive (s : State) : (s.flushTx).sdaDrive = s.sdaDrive := rfl
@[simp] theorem State.flushTx_bitCount (s : State) : (s.flushTx).bitCount = s.bitCount := rfl
@[simp] theorem State.flushTx_pageAddress (s : State) : (s.flushTx).pageAddress = s.pageAddress := rfl
@[simp] theorem State.flushTx_pageIndex (s : State) : (s.flushTx).pageIndex = s.pageIndex := rfl
@[simp] theorem State.flushTx_flags (s : State) : (s.flushTx).flags = s.flags := rfl
@[simp] theorem State.flushTx_appResetLsb (s : State) : (s.flushTx).appResetLsb = s.appResetLsb := rfl
@[simp] theorem State.flushTx_appResetMsb (s : State) : (s.flushTx).appResetMsb = s.appResetMsb := rfl
@[simp] theorem State.flushTx_stage (s : State) : (s.flushTx).stage = s.stage := rfl
@[simp] theorem State.flushTx_rx (s : State) : (s.flushTx).rx = s.rx := rfl
@[simp] theorem State.flushTx_tx (s : State) : (s.flushTx).tx = Ring.empty (freeBytes s.draws s.cfg.txCap) := rfl
@[simp] theorem State.flushTx_idleCount (s : State) : (s.flushTx).idleCount = s.idleCount := rfl
@[simp] theorem State.flushTx_run (s : State) : (s.flushTx).run = s.run := rfl
@[simp] theorem State.flushTx_flash (s : State) : (s.flushTx).flash = s.flash := rfl
@[simp] theorem State.flushTx_periph (s : State) : (s.flushTx).periph = s.periph := rfl
@[simp] theorem State.flushTx_interruptsEnabled (s : State) : (s.flushTx).interruptsEnabled = s.interruptsEnabled := rfl
@[simp] theorem State.flushTx_restarting (s : State) : (s.flushTx).restarting = s.restarting := rfl
@[simp] theorem State.flushTx_cpu (s : State) : (s.flushTx).cpu = s.cpu := rfl
@[simp] theorem State.flushTx_draws (s : State) : (s.flushTx).draws = s.draws + s.cfg.txCap := rfl
@[simp] theorem State.flushTx_host (s : State) : (s.flushTx).host = s.host := rfl
@[simp] theorem State.flushTx_seen (s : State) : (s.flushTx).seen = s.seen := rfl

/-! ## reply -/

@[simp] theorem State.reply_cfg (s : State) (bs : List Byte) : (s.reply bs).cfg = s.cfg := rfl
@[simp] theorem State.reply_phase (s : State) (bs : List Byte) : (s.reply bs).phase = s.phase := rfl
@[simp] theorem State.reply_armed (s : State) (bs : List Byte) : (s.reply bs).armed = s.armed := rfl
@[simp] theorem State.reply_sdaDrive (s : State) (bs : List Byte) : (s.reply bs).sdaDrive = s.sdaDrive := rfl
@[simp] theorem State.reply_bitCount (s : State) (bs : List Byte) : (s.reply bs).bitCount = s.bitCount := rfl
@[simp] theorem State.reply_pageAddress (s : State) (bs : List Byte) : (s.reply bs).pageAddress = s.pageAddress := rfl
@[simp] theorem State.reply_pageIndex (s : State) (bs : List Byte) : (s.reply bs).pageIndex = s.pageIndex := rfl
@[simp] theorem State.reply_flags (s : State) (bs : List Byte) : (s.reply bs).flags = s.flags := rfl
@[simp] theorem State.reply_appResetLsb (s : State) (bs : List Byte) : (s.reply bs).appResetLsb = s.appResetLsb := rfl
@[simp] theorem State.reply_appResetMsb (s : State) (bs : List Byte) : (s.reply bs).appResetMsb = s.appResetMsb := rfl
@[simp] theorem State.reply_stage (s : State) (bs : List Byte) : (s.reply bs).stage = s.stage := rfl
@[simp] theorem State.reply_rx (s : State) (bs : List Byte) : (s.reply bs).rx = s.rx := rfl
@[simp] theorem State.reply_tx (s : State) (bs : List Byte) : (s.reply bs).tx = Ring.pushAll s.cfg.txCap s.tx bs := rfl
@[simp] theorem State.reply_idleCount (s : State) (bs : List Byte) : (s.reply bs).idleCount = s.idleCount := rfl
@[simp] theorem State.reply_run (s : State) (bs : List Byte) : (s.reply bs).run = s.run := rfl
@[simp] theorem State.reply_flash (s : State) (bs : List Byte) : (s.reply bs).flash = s.flash := rfl
@[simp] theorem State.reply_periph (s : State) (bs : List Byte) : (s.reply bs).periph = s.periph := rfl
@[simp] theorem State.reply_interruptsEnabled (s : State) (bs : List Byte) :
    (s.reply bs).interruptsEnabled =
      s.interruptsEnabled := rfl
@[simp] theorem State.reply_restarting (s : State) (bs : List Byte) : (s.reply bs).restarting = s.restarting := rfl
@[simp] theorem State.reply_cpu (s : State) (bs : List Byte) : (s.reply bs).cpu = s.cpu := rfl
@[simp] theorem State.reply_draws (s : State) (bs : List Byte) : (s.reply bs).draws = s.draws := rfl
@[simp] theorem State.reply_host (s : State) (bs : List Byte) : (s.reply bs).host = s.host := rfl
@[simp] theorem State.reply_seen (s : State) (bs : List Byte) : (s.reply bs).seen = s.seen := rfl

/-! ## receive -/

@[simp] theorem State.receive_cfg (s : State) (b : Byte) : (s.receive b).cfg = s.cfg := rfl
@[simp] theorem State.receive_phase (s : State) (b : Byte) : (s.receive b).phase = s.phase := rfl
@[simp] theorem State.receive_armed (s : State) (b : Byte) : (s.receive b).armed = s.armed := rfl
@[simp] theorem State.receive_sdaDrive (s : State) (b : Byte) : (s.receive b).sdaDrive = s.sdaDrive := rfl
@[simp] theorem State.receive_bitCount (s : State) (b : Byte) : (s.receive b).bitCount = s.bitCount := rfl
@[simp] theorem State.receive_pageAddress (s : State) (b : Byte) : (s.receive b).pageAddress = s.pageAddress := rfl
@[simp] theorem State.receive_pageIndex (s : State) (b : Byte) : (s.receive b).pageIndex = s.pageIndex := rfl
@[simp] theorem State.receive_flags (s : State) (b : Byte) : (s.receive b).flags = s.flags := rfl
@[simp] theorem State.receive_appResetLsb (s : State) (b : Byte) : (s.receive b).appResetLsb = s.appResetLsb := rfl
@[simp] theorem State.receive_appResetMsb (s : State) (b : Byte) : (s.receive b).appResetMsb = s.appResetMsb := rfl
@[simp] theorem State.receive_stage (s : State) (b : Byte) : (s.receive b).stage = s.stage := rfl
@[simp] theorem State.receive_rx (s : State) (b : Byte) : (s.receive b).rx = s.rx.push s.cfg.rxCap b := rfl
@[simp] theorem State.receive_tx (s : State) (b : Byte) : (s.receive b).tx = s.tx := rfl
@[simp] theorem State.receive_idleCount (s : State) (b : Byte) : (s.receive b).idleCount = s.idleCount := rfl
@[simp] theorem State.receive_run (s : State) (b : Byte) : (s.receive b).run = s.run := rfl
@[simp] theorem State.receive_flash (s : State) (b : Byte) : (s.receive b).flash = s.flash := rfl
@[simp] theorem State.receive_periph (s : State) (b : Byte) : (s.receive b).periph = s.periph := rfl
@[simp] theorem State.receive_interruptsEnabled (s : State) (b : Byte) :
    (s.receive b).interruptsEnabled =
      s.interruptsEnabled := rfl
@[simp] theorem State.receive_restarting (s : State) (b : Byte) : (s.receive b).restarting = s.restarting := rfl
@[simp] theorem State.receive_cpu (s : State) (b : Byte) : (s.receive b).cpu = s.cpu := rfl
@[simp] theorem State.receive_draws (s : State) (b : Byte) : (s.receive b).draws = s.draws := rfl
@[simp] theorem State.receive_host (s : State) (b : Byte) : (s.receive b).host = s.host := rfl
@[simp] theorem State.receive_seen (s : State) (b : Byte) : (s.receive b).seen = s.seen := rfl

/-! ## drainRx -/

@[simp] theorem State.drainRx_cfg (s : State) : (s.drainRx).cfg = s.cfg := rfl
@[simp] theorem State.drainRx_phase (s : State) : (s.drainRx).phase = s.phase := rfl
@[simp] theorem State.drainRx_armed (s : State) : (s.drainRx).armed = s.armed := rfl
@[simp] theorem State.drainRx_sdaDrive (s : State) : (s.drainRx).sdaDrive = s.sdaDrive := rfl
@[simp] theorem State.drainRx_bitCount (s : State) : (s.drainRx).bitCount = s.bitCount := rfl
@[simp] theorem State.drainRx_pageAddress (s : State) : (s.drainRx).pageAddress = s.pageAddress := rfl
@[simp] theorem State.drainRx_pageIndex (s : State) : (s.drainRx).pageIndex = s.pageIndex := rfl
@[simp] theorem State.drainRx_flags (s : State) : (s.drainRx).flags = s.flags := rfl
@[simp] theorem State.drainRx_appResetLsb (s : State) : (s.drainRx).appResetLsb = s.appResetLsb := rfl
@[simp] theorem State.drainRx_appResetMsb (s : State) : (s.drainRx).appResetMsb = s.appResetMsb := rfl
@[simp] theorem State.drainRx_stage (s : State) : (s.drainRx).stage = s.stage := rfl
@[simp] theorem State.drainRx_rx (s : State) : (s.drainRx).rx = (s.rx.popN s.cfg.rxCap s.rx.count).2 := rfl
@[simp] theorem State.drainRx_tx (s : State) : (s.drainRx).tx = s.tx := rfl
@[simp] theorem State.drainRx_idleCount (s : State) : (s.drainRx).idleCount = s.idleCount := rfl
@[simp] theorem State.drainRx_run (s : State) : (s.drainRx).run = s.run := rfl
@[simp] theorem State.drainRx_flash (s : State) : (s.drainRx).flash = s.flash := rfl
@[simp] theorem State.drainRx_periph (s : State) : (s.drainRx).periph = s.periph := rfl
@[simp] theorem State.drainRx_interruptsEnabled (s : State) : (s.drainRx).interruptsEnabled = s.interruptsEnabled := rfl
@[simp] theorem State.drainRx_restarting (s : State) : (s.drainRx).restarting = s.restarting := rfl
@[simp] theorem State.drainRx_cpu (s : State) : (s.drainRx).cpu = s.cpu := rfl
@[simp] theorem State.drainRx_draws (s : State) : (s.drainRx).draws = s.draws := rfl
@[simp] theorem State.drainRx_host (s : State) : (s.drainRx).host = s.host := rfl
@[simp] theorem State.drainRx_seen (s : State) : (s.drainRx).seen = s.seen := rfl

/-! ## withPhase -/

@[simp] theorem State.withPhase_cfg (s : State) (p : Phase) : (s.withPhase p).cfg = s.cfg := rfl
@[simp] theorem State.withPhase_phase (s : State) (p : Phase) : (s.withPhase p).phase = p := rfl
@[simp] theorem State.withPhase_armed (s : State) (p : Phase) : (s.withPhase p).armed = s.armed := rfl
@[simp] theorem State.withPhase_sdaDrive (s : State) (p : Phase) : (s.withPhase p).sdaDrive = s.sdaDrive := rfl
@[simp] theorem State.withPhase_bitCount (s : State) (p : Phase) : (s.withPhase p).bitCount = s.bitCount := rfl
@[simp] theorem State.withPhase_pageAddress (s : State) (p : Phase) : (s.withPhase p).pageAddress = s.pageAddress := rfl
@[simp] theorem State.withPhase_pageIndex (s : State) (p : Phase) : (s.withPhase p).pageIndex = s.pageIndex := rfl
@[simp] theorem State.withPhase_flags (s : State) (p : Phase) : (s.withPhase p).flags = s.flags := rfl
@[simp] theorem State.withPhase_appResetLsb (s : State) (p : Phase) : (s.withPhase p).appResetLsb = s.appResetLsb := rfl
@[simp] theorem State.withPhase_appResetMsb (s : State) (p : Phase) : (s.withPhase p).appResetMsb = s.appResetMsb := rfl
@[simp] theorem State.withPhase_stage (s : State) (p : Phase) : (s.withPhase p).stage = s.stage := rfl
@[simp] theorem State.withPhase_rx (s : State) (p : Phase) : (s.withPhase p).rx = s.rx := rfl
@[simp] theorem State.withPhase_tx (s : State) (p : Phase) : (s.withPhase p).tx = s.tx := rfl
@[simp] theorem State.withPhase_idleCount (s : State) (p : Phase) : (s.withPhase p).idleCount = s.idleCount := rfl
@[simp] theorem State.withPhase_run (s : State) (p : Phase) : (s.withPhase p).run = s.run := rfl
@[simp] theorem State.withPhase_flash (s : State) (p : Phase) : (s.withPhase p).flash = s.flash := rfl
@[simp] theorem State.withPhase_periph (s : State) (p : Phase) : (s.withPhase p).periph = s.periph := rfl
@[simp] theorem State.withPhase_interruptsEnabled (s : State) (p : Phase) :
    (s.withPhase p).interruptsEnabled =
      s.interruptsEnabled := rfl
@[simp] theorem State.withPhase_restarting (s : State) (p : Phase) : (s.withPhase p).restarting = s.restarting := rfl
@[simp] theorem State.withPhase_cpu (s : State) (p : Phase) : (s.withPhase p).cpu = s.cpu := rfl
@[simp] theorem State.withPhase_draws (s : State) (p : Phase) : (s.withPhase p).draws = s.draws := rfl
@[simp] theorem State.withPhase_host (s : State) (p : Phase) : (s.withPhase p).host = s.host := rfl
@[simp] theorem State.withPhase_seen (s : State) (p : Phase) : (s.withPhase p).seen = s.seen := rfl

/-! ## rearm -/

@[simp] theorem State.rearm_cfg (s : State) : (s.rearm).cfg = s.cfg := rfl
@[simp] theorem State.rearm_phase (s : State) : (s.rearm).phase = .checkAddress := rfl
@[simp] theorem State.rearm_armed (s : State) : (s.rearm).armed = false := rfl
@[simp] theorem State.rearm_sdaDrive (s : State) : (s.rearm).sdaDrive = false := rfl
@[simp] theorem State.rearm_bitCount (s : State) : (s.rearm).bitCount = .eight := rfl
@[simp] theorem State.rearm_pageAddress (s : State) : (s.rearm).pageAddress = s.pageAddress := rfl
@[simp] theorem State.rearm_pageIndex (s : State) : (s.rearm).pageIndex = s.pageIndex := rfl
@[simp] theorem State.rearm_flags (s : State) : (s.rearm).flags = s.flags := rfl
@[simp] theorem State.rearm_appResetLsb (s : State) : (s.rearm).appResetLsb = s.appResetLsb := rfl
@[simp] theorem State.rearm_appResetMsb (s : State) : (s.rearm).appResetMsb = s.appResetMsb := rfl
@[simp] theorem State.rearm_stage (s : State) : (s.rearm).stage = s.stage := rfl
@[simp] theorem State.rearm_rx (s : State) : (s.rearm).rx = s.rx := rfl
@[simp] theorem State.rearm_tx (s : State) : (s.rearm).tx = s.tx := rfl
@[simp] theorem State.rearm_idleCount (s : State) : (s.rearm).idleCount = s.idleCount := rfl
@[simp] theorem State.rearm_run (s : State) : (s.rearm).run = s.run := rfl
@[simp] theorem State.rearm_flash (s : State) : (s.rearm).flash = s.flash := rfl
@[simp] theorem State.rearm_periph (s : State) : (s.rearm).periph = s.periph := rfl
@[simp] theorem State.rearm_interruptsEnabled (s : State) : (s.rearm).interruptsEnabled = s.interruptsEnabled := rfl
@[simp] theorem State.rearm_restarting (s : State) : (s.rearm).restarting = s.restarting := rfl
@[simp] theorem State.rearm_cpu (s : State) : (s.rearm).cpu = s.cpu := rfl
@[simp] theorem State.rearm_draws (s : State) : (s.rearm).draws = s.draws := rfl
@[simp] theorem State.rearm_host (s : State) : (s.rearm).host = s.host := rfl
@[simp] theorem State.rearm_seen (s : State) : (s.rearm).seen = s.seen := rfl

/-! ## sendAck -/

@[simp] theorem State.sendAck_cfg (s : State) : (s.sendAck).cfg = s.cfg := rfl
@[simp] theorem State.sendAck_phase (s : State) : (s.sendAck).phase = s.phase := rfl
@[simp] theorem State.sendAck_armed (s : State) : (s.sendAck).armed = s.armed := rfl
@[simp] theorem State.sendAck_sdaDrive (s : State) : (s.sendAck).sdaDrive = true := rfl
@[simp] theorem State.sendAck_bitCount (s : State) : (s.sendAck).bitCount = .one := rfl
@[simp] theorem State.sendAck_pageAddress (s : State) : (s.sendAck).pageAddress = s.pageAddress := rfl
@[simp] theorem State.sendAck_pageIndex (s : State) : (s.sendAck).pageIndex = s.pageIndex := rfl
@[simp] theorem State.sendAck_flags (s : State) : (s.sendAck).flags = s.flags := rfl
@[simp] theorem State.sendAck_appResetLsb (s : State) : (s.sendAck).appResetLsb = s.appResetLsb := rfl
@[simp] theorem State.sendAck_appResetMsb (s : State) : (s.sendAck).appResetMsb = s.appResetMsb := rfl
@[simp] theorem State.sendAck_stage (s : State) : (s.sendAck).stage = s.stage := rfl
@[simp] theorem State.sendAck_rx (s : State) : (s.sendAck).rx = s.rx := rfl
@[simp] theorem State.sendAck_tx (s : State) : (s.sendAck).tx = s.tx := rfl
@[simp] theorem State.sendAck_idleCount (s : State) : (s.sendAck).idleCount = s.idleCount := rfl
@[simp] theorem State.sendAck_run (s : State) : (s.sendAck).run = s.run := rfl
@[simp] theorem State.sendAck_flash (s : State) : (s.sendAck).flash = s.flash := rfl
@[simp] theorem State.sendAck_periph (s : State) : (s.sendAck).periph = { s.periph with dr := 0x00#8 } := rfl
@[simp] theorem State.sendAck_interruptsEnabled (s : State) : (s.sendAck).interruptsEnabled = s.interruptsEnabled := rfl
@[simp] theorem State.sendAck_restarting (s : State) : (s.sendAck).restarting = s.restarting := rfl
@[simp] theorem State.sendAck_cpu (s : State) : (s.sendAck).cpu = s.cpu := rfl
@[simp] theorem State.sendAck_draws (s : State) : (s.sendAck).draws = s.draws := rfl
@[simp] theorem State.sendAck_host (s : State) : (s.sendAck).host = s.host := rfl
@[simp] theorem State.sendAck_seen (s : State) : (s.sendAck).seen = s.seen := rfl

/-! ## readAck -/

@[simp] theorem State.readAck_cfg (s : State) : (s.readAck).cfg = s.cfg := rfl
@[simp] theorem State.readAck_phase (s : State) : (s.readAck).phase = s.phase := rfl
@[simp] theorem State.readAck_armed (s : State) : (s.readAck).armed = s.armed := rfl
@[simp] theorem State.readAck_sdaDrive (s : State) : (s.readAck).sdaDrive = false := rfl
@[simp] theorem State.readAck_bitCount (s : State) : (s.readAck).bitCount = .one := rfl
@[simp] theorem State.readAck_pageAddress (s : State) : (s.readAck).pageAddress = s.pageAddress := rfl
@[simp] theorem State.readAck_pageIndex (s : State) : (s.readAck).pageIndex = s.pageIndex := rfl
@[simp] theorem State.readAck_flags (s : State) : (s.readAck).flags = s.flags := rfl
@[simp] theorem State.readAck_appResetLsb (s : State) : (s.readAck).appResetLsb = s.appResetLsb := rfl
@[simp] theorem State.readAck_appResetMsb (s : State) : (s.readAck).appResetMsb = s.appResetMsb := rfl
@[simp] theorem State.readAck_stage (s : State) : (s.readAck).stage = s.stage := rfl
@[simp] theorem State.readAck_rx (s : State) : (s.readAck).rx = s.rx := rfl
@[simp] theorem State.readAck_tx (s : State) : (s.readAck).tx = s.tx := rfl
@[simp] theorem State.readAck_idleCount (s : State) : (s.readAck).idleCount = s.idleCount := rfl
@[simp] theorem State.readAck_run (s : State) : (s.readAck).run = s.run := rfl
@[simp] theorem State.readAck_flash (s : State) : (s.readAck).flash = s.flash := rfl
@[simp] theorem State.readAck_periph (s : State) : (s.readAck).periph = { s.periph with dr := 0x00#8 } := rfl
@[simp] theorem State.readAck_interruptsEnabled (s : State) : (s.readAck).interruptsEnabled = s.interruptsEnabled := rfl
@[simp] theorem State.readAck_restarting (s : State) : (s.readAck).restarting = s.restarting := rfl
@[simp] theorem State.readAck_cpu (s : State) : (s.readAck).cpu = s.cpu := rfl
@[simp] theorem State.readAck_draws (s : State) : (s.readAck).draws = s.draws := rfl
@[simp] theorem State.readAck_host (s : State) : (s.readAck).host = s.host := rfl
@[simp] theorem State.readAck_seen (s : State) : (s.readAck).seen = s.seen := rfl

/-! ## sendByte -/

@[simp] theorem State.sendByte_cfg (s : State) (b : Byte) : (s.sendByte b).cfg = s.cfg := rfl
@[simp] theorem State.sendByte_phase (s : State) (b : Byte) : (s.sendByte b).phase = s.phase := rfl
@[simp] theorem State.sendByte_armed (s : State) (b : Byte) : (s.sendByte b).armed = s.armed := rfl
@[simp] theorem State.sendByte_sdaDrive (s : State) (b : Byte) : (s.sendByte b).sdaDrive = true := rfl
@[simp] theorem State.sendByte_bitCount (s : State) (b : Byte) : (s.sendByte b).bitCount = .eight := rfl
@[simp] theorem State.sendByte_pageAddress (s : State) (b : Byte) : (s.sendByte b).pageAddress = s.pageAddress := rfl
@[simp] theorem State.sendByte_pageIndex (s : State) (b : Byte) : (s.sendByte b).pageIndex = s.pageIndex := rfl
@[simp] theorem State.sendByte_flags (s : State) (b : Byte) : (s.sendByte b).flags = s.flags := rfl
@[simp] theorem State.sendByte_appResetLsb (s : State) (b : Byte) : (s.sendByte b).appResetLsb = s.appResetLsb := rfl
@[simp] theorem State.sendByte_appResetMsb (s : State) (b : Byte) : (s.sendByte b).appResetMsb = s.appResetMsb := rfl
@[simp] theorem State.sendByte_stage (s : State) (b : Byte) : (s.sendByte b).stage = s.stage := rfl
@[simp] theorem State.sendByte_rx (s : State) (b : Byte) : (s.sendByte b).rx = s.rx := rfl
@[simp] theorem State.sendByte_tx (s : State) (b : Byte) : (s.sendByte b).tx = s.tx := rfl
@[simp] theorem State.sendByte_idleCount (s : State) (b : Byte) : (s.sendByte b).idleCount = s.idleCount := rfl
@[simp] theorem State.sendByte_run (s : State) (b : Byte) : (s.sendByte b).run = s.run := rfl
@[simp] theorem State.sendByte_flash (s : State) (b : Byte) : (s.sendByte b).flash = s.flash := rfl
@[simp] theorem State.sendByte_periph (s : State) (b : Byte) : (s.sendByte b).periph = { s.periph with dr := b } := rfl
@[simp] theorem State.sendByte_interruptsEnabled (s : State) (b : Byte) :
    (s.sendByte b).interruptsEnabled =
      s.interruptsEnabled := rfl
@[simp] theorem State.sendByte_restarting (s : State) (b : Byte) : (s.sendByte b).restarting = s.restarting := rfl
@[simp] theorem State.sendByte_cpu (s : State) (b : Byte) : (s.sendByte b).cpu = s.cpu := rfl
@[simp] theorem State.sendByte_draws (s : State) (b : Byte) : (s.sendByte b).draws = s.draws := rfl
@[simp] theorem State.sendByte_host (s : State) (b : Byte) : (s.sendByte b).host = s.host := rfl
@[simp] theorem State.sendByte_seen (s : State) (b : Byte) : (s.sendByte b).seen = s.seen := rfl

/-! ## receiveByte -/

@[simp] theorem State.receiveByte_cfg (s : State) : (s.receiveByte).cfg = s.cfg := rfl
@[simp] theorem State.receiveByte_phase (s : State) : (s.receiveByte).phase = s.phase := rfl
@[simp] theorem State.receiveByte_armed (s : State) : (s.receiveByte).armed = s.armed := rfl
@[simp] theorem State.receiveByte_sdaDrive (s : State) : (s.receiveByte).sdaDrive = false := rfl
@[simp] theorem State.receiveByte_bitCount (s : State) : (s.receiveByte).bitCount = .eight := rfl
@[simp] theorem State.receiveByte_pageAddress (s : State) : (s.receiveByte).pageAddress = s.pageAddress := rfl
@[simp] theorem State.receiveByte_pageIndex (s : State) : (s.receiveByte).pageIndex = s.pageIndex := rfl
@[simp] theorem State.receiveByte_flags (s : State) : (s.receiveByte).flags = s.flags := rfl
@[simp] theorem State.receiveByte_appResetLsb (s : State) : (s.receiveByte).appResetLsb = s.appResetLsb := rfl
@[simp] theorem State.receiveByte_appResetMsb (s : State) : (s.receiveByte).appResetMsb = s.appResetMsb := rfl
@[simp] theorem State.receiveByte_stage (s : State) : (s.receiveByte).stage = s.stage := rfl
@[simp] theorem State.receiveByte_rx (s : State) : (s.receiveByte).rx = s.rx := rfl
@[simp] theorem State.receiveByte_tx (s : State) : (s.receiveByte).tx = s.tx := rfl
@[simp] theorem State.receiveByte_idleCount (s : State) : (s.receiveByte).idleCount = s.idleCount := rfl
@[simp] theorem State.receiveByte_run (s : State) : (s.receiveByte).run = s.run := rfl
@[simp] theorem State.receiveByte_flash (s : State) : (s.receiveByte).flash = s.flash := rfl
@[simp] theorem State.receiveByte_periph (s : State) : (s.receiveByte).periph = s.periph := rfl
@[simp] theorem State.receiveByte_interruptsEnabled (s : State) :
    (s.receiveByte).interruptsEnabled =
      s.interruptsEnabled := rfl
@[simp] theorem State.receiveByte_restarting (s : State) : (s.receiveByte).restarting = s.restarting := rfl
@[simp] theorem State.receiveByte_cpu (s : State) : (s.receiveByte).cpu = s.cpu := rfl
@[simp] theorem State.receiveByte_draws (s : State) : (s.receiveByte).draws = s.draws := rfl
@[simp] theorem State.receiveByte_host (s : State) : (s.receiveByte).host = s.host := rfl
@[simp] theorem State.receiveByte_seen (s : State) : (s.receiveByte).seen = s.seen := rfl

/-! ## clearOvf -/

@[simp] theorem State.clearOvf_cfg (s : State) : (s.clearOvf).cfg = s.cfg := rfl
@[simp] theorem State.clearOvf_phase (s : State) : (s.clearOvf).phase = s.phase := rfl
@[simp] theorem State.clearOvf_armed (s : State) : (s.clearOvf).armed = s.armed := rfl
@[simp] theorem State.clearOvf_sdaDrive (s : State) : (s.clearOvf).sdaDrive = s.sdaDrive := rfl
@[simp] theorem State.clearOvf_bitCount (s : State) : (s.clearOvf).bitCount = s.bitCount := rfl
@[simp] theorem State.clearOvf_pageAddress (s : State) : (s.clearOvf).pageAddress = s.pageAddress := rfl
@[simp] theorem State.clearOvf_pageIndex (s : State) : (s.clearOvf).pageIndex = s.pageIndex := rfl
@[simp] theorem State.clearOvf_flags (s : State) : (s.clearOvf).flags = s.flags := rfl
@[simp] theorem State.clearOvf_appResetLsb (s : State) : (s.clearOvf).appResetLsb = s.appResetLsb := rfl
@[simp] theorem State.clearOvf_appResetMsb (s : State) : (s.clearOvf).appResetMsb = s.appResetMsb := rfl
@[simp] theorem State.clearOvf_stage (s : State) : (s.clearOvf).stage = s.stage := rfl
@[simp] theorem State.clearOvf_rx (s : State) : (s.clearOvf).rx = s.rx := rfl
@[simp] theorem State.clearOvf_tx (s : State) : (s.clearOvf).tx = s.tx := rfl
@[simp] theorem State.clearOvf_idleCount (s : State) : (s.clearOvf).idleCount = s.idleCount := rfl
@[simp] theorem State.clearOvf_run (s : State) : (s.clearOvf).run = s.run := rfl
@[simp] theorem State.clearOvf_flash (s : State) : (s.clearOvf).flash = s.flash := rfl
@[simp] theorem State.clearOvf_periph (s : State) :
    (s.clearOvf).periph =
      { s.periph with ovfFlag := false, shifted := 0 } := rfl
@[simp] theorem State.clearOvf_interruptsEnabled (s : State) :
    (s.clearOvf).interruptsEnabled =
      s.interruptsEnabled := rfl
@[simp] theorem State.clearOvf_restarting (s : State) : (s.clearOvf).restarting = s.restarting := rfl
@[simp] theorem State.clearOvf_cpu (s : State) : (s.clearOvf).cpu = s.cpu := rfl
@[simp] theorem State.clearOvf_draws (s : State) : (s.clearOvf).draws = s.draws := rfl
@[simp] theorem State.clearOvf_host (s : State) : (s.clearOvf).host = s.host := rfl
@[simp] theorem State.clearOvf_seen (s : State) : (s.clearOvf).seen = s.seen := rfl

/-! ## sendNext -/

@[simp] theorem State.sendNext_cfg (s : State) : (s.sendNext).cfg = s.cfg := rfl
@[simp] theorem State.sendNext_phase (s : State) : (s.sendNext).phase = s.phase := rfl
@[simp] theorem State.sendNext_armed (s : State) : (s.sendNext).armed = s.armed := rfl
@[simp] theorem State.sendNext_sdaDrive (s : State) : (s.sendNext).sdaDrive = true := rfl
@[simp] theorem State.sendNext_bitCount (s : State) : (s.sendNext).bitCount = .eight := rfl
@[simp] theorem State.sendNext_pageAddress (s : State) : (s.sendNext).pageAddress = s.pageAddress := rfl
@[simp] theorem State.sendNext_pageIndex (s : State) : (s.sendNext).pageIndex = s.pageIndex := rfl
@[simp] theorem State.sendNext_flags (s : State) : (s.sendNext).flags = s.flags := rfl
@[simp] theorem State.sendNext_appResetLsb (s : State) : (s.sendNext).appResetLsb = s.appResetLsb := rfl
@[simp] theorem State.sendNext_appResetMsb (s : State) : (s.sendNext).appResetMsb = s.appResetMsb := rfl
@[simp] theorem State.sendNext_stage (s : State) : (s.sendNext).stage = s.stage := rfl
@[simp] theorem State.sendNext_rx (s : State) : (s.sendNext).rx = s.rx := rfl
@[simp] theorem State.sendNext_tx (s : State) : (s.sendNext).tx = (s.tx.pop s.cfg.txCap).2 := rfl
@[simp] theorem State.sendNext_idleCount (s : State) : (s.sendNext).idleCount = s.idleCount := rfl
@[simp] theorem State.sendNext_run (s : State) : (s.sendNext).run = s.run := rfl
@[simp] theorem State.sendNext_flash (s : State) : (s.sendNext).flash = s.flash := rfl
@[simp] theorem State.sendNext_periph (s : State) :
    (s.sendNext).periph =
      { s.periph with dr := (s.tx.pop s.cfg.txCap).1 } := rfl
@[simp] theorem State.sendNext_interruptsEnabled (s : State) :
    (s.sendNext).interruptsEnabled =
      s.interruptsEnabled := rfl
@[simp] theorem State.sendNext_restarting (s : State) : (s.sendNext).restarting = s.restarting := rfl
@[simp] theorem State.sendNext_cpu (s : State) : (s.sendNext).cpu = s.cpu := rfl
@[simp] theorem State.sendNext_draws (s : State) : (s.sendNext).draws = s.draws := rfl
@[simp] theorem State.sendNext_host (s : State) : (s.sendNext).host = s.host := rfl
@[simp] theorem State.sendNext_seen (s : State) : (s.sendNext).seen = s.seen := rfl

/-! ## launch -/

@[simp] theorem State.launch_cfg (s : State) (w : WordAddr) : (s.launch w).cfg = s.cfg := rfl
@[simp] theorem State.launch_phase (s : State) (w : WordAddr) : (s.launch w).phase = s.phase := rfl
@[simp] theorem State.launch_armed (s : State) (w : WordAddr) : (s.launch w).armed = s.armed := rfl
@[simp] theorem State.launch_sdaDrive (s : State) (w : WordAddr) : (s.launch w).sdaDrive = s.sdaDrive := rfl
@[simp] theorem State.launch_bitCount (s : State) (w : WordAddr) : (s.launch w).bitCount = s.bitCount := rfl
@[simp] theorem State.launch_pageAddress (s : State) (w : WordAddr) : (s.launch w).pageAddress = s.pageAddress := rfl
@[simp] theorem State.launch_pageIndex (s : State) (w : WordAddr) : (s.launch w).pageIndex = s.pageIndex := rfl
@[simp] theorem State.launch_flags (s : State) (w : WordAddr) : (s.launch w).flags = s.flags := rfl
@[simp] theorem State.launch_appResetLsb (s : State) (w : WordAddr) : (s.launch w).appResetLsb = s.appResetLsb := rfl
@[simp] theorem State.launch_appResetMsb (s : State) (w : WordAddr) : (s.launch w).appResetMsb = s.appResetMsb := rfl
@[simp] theorem State.launch_stage (s : State) (w : WordAddr) : (s.launch w).stage = s.stage := rfl
@[simp] theorem State.launch_rx (s : State) (w : WordAddr) : (s.launch w).rx = s.rx := rfl
@[simp] theorem State.launch_tx (s : State) (w : WordAddr) : (s.launch w).tx = s.tx := rfl
@[simp] theorem State.launch_idleCount (s : State) (w : WordAddr) : (s.launch w).idleCount = s.idleCount := rfl
@[simp] theorem State.launch_run (s : State) (w : WordAddr) : (s.launch w).run = .launched w := rfl
@[simp] theorem State.launch_flash (s : State) (w : WordAddr) : (s.launch w).flash = s.flash := rfl
@[simp] theorem State.launch_periph (s : State) (w : WordAddr) : (s.launch w).periph = s.periph := rfl
@[simp] theorem State.launch_interruptsEnabled (s : State) (w : WordAddr) :
    (s.launch w).interruptsEnabled =
      s.interruptsEnabled := rfl
@[simp] theorem State.launch_restarting (s : State) (w : WordAddr) : (s.launch w).restarting = s.restarting := rfl
@[simp] theorem State.launch_cpu (s : State) (w : WordAddr) : (s.launch w).cpu = some w := rfl
@[simp] theorem State.launch_draws (s : State) (w : WordAddr) : (s.launch w).draws = s.draws := rfl
@[simp] theorem State.launch_host (s : State) (w : WordAddr) : (s.launch w).host = s.host := rfl
@[simp] theorem State.launch_seen (s : State) (w : WordAddr) : (s.launch w).seen = s.seen := rfl

/-! ## launchApp -/

@[simp] theorem State.launchApp_cfg (s : State) : (s.launchApp).cfg = s.cfg := rfl
@[simp] theorem State.launchApp_phase (s : State) : (s.launchApp).phase = s.phase := rfl
@[simp] theorem State.launchApp_armed (s : State) : (s.launchApp).armed = s.armed := rfl
@[simp] theorem State.launchApp_sdaDrive (s : State) : (s.launchApp).sdaDrive = s.sdaDrive := rfl
@[simp] theorem State.launchApp_bitCount (s : State) : (s.launchApp).bitCount = s.bitCount := rfl
@[simp] theorem State.launchApp_pageAddress (s : State) : (s.launchApp).pageAddress = s.pageAddress := rfl
@[simp] theorem State.launchApp_pageIndex (s : State) : (s.launchApp).pageIndex = s.pageIndex := rfl
@[simp] theorem State.launchApp_flags (s : State) : (s.launchApp).flags = s.flags := rfl
@[simp] theorem State.launchApp_appResetLsb (s : State) : (s.launchApp).appResetLsb = s.appResetLsb := rfl
@[simp] theorem State.launchApp_appResetMsb (s : State) : (s.launchApp).appResetMsb = s.appResetMsb := rfl
@[simp] theorem State.launchApp_stage (s : State) : (s.launchApp).stage = s.stage := rfl
@[simp] theorem State.launchApp_rx (s : State) : (s.launchApp).rx = s.rx := rfl
@[simp] theorem State.launchApp_tx (s : State) : (s.launchApp).tx = s.tx := rfl
@[simp] theorem State.launchApp_idleCount (s : State) : (s.launchApp).idleCount = s.idleCount := rfl
@[simp] theorem State.launchApp_run (s : State) : (s.launchApp).run = .launched s.cfg.trampWord := rfl
@[simp] theorem State.launchApp_flash (s : State) : (s.launchApp).flash = s.flash := rfl
@[simp] theorem State.launchApp_periph (s : State) : (s.launchApp).periph = s.periph := rfl
@[simp] theorem State.launchApp_interruptsEnabled (s : State) :
    (s.launchApp).interruptsEnabled =
      s.interruptsEnabled := rfl
@[simp] theorem State.launchApp_restarting (s : State) : (s.launchApp).restarting = s.restarting := rfl
@[simp] theorem State.launchApp_cpu (s : State) : (s.launchApp).cpu = some s.cfg.trampWord := rfl
@[simp] theorem State.launchApp_draws (s : State) : (s.launchApp).draws = s.draws := rfl
@[simp] theorem State.launchApp_host (s : State) : (s.launchApp).host = s.host := rfl
@[simp] theorem State.launchApp_seen (s : State) : (s.launchApp).seen = s.seen := rfl

/-! ## raise -/

@[simp] theorem State.raise_cfg (s : State) (f : Flag) : (s.raise f).cfg = s.cfg := rfl
@[simp] theorem State.raise_phase (s : State) (f : Flag) : (s.raise f).phase = s.phase := rfl
@[simp] theorem State.raise_armed (s : State) (f : Flag) : (s.raise f).armed = s.armed := rfl
@[simp] theorem State.raise_sdaDrive (s : State) (f : Flag) : (s.raise f).sdaDrive = s.sdaDrive := rfl
@[simp] theorem State.raise_bitCount (s : State) (f : Flag) : (s.raise f).bitCount = s.bitCount := rfl
@[simp] theorem State.raise_pageAddress (s : State) (f : Flag) : (s.raise f).pageAddress = s.pageAddress := rfl
@[simp] theorem State.raise_pageIndex (s : State) (f : Flag) : (s.raise f).pageIndex = s.pageIndex := rfl
@[simp] theorem State.raise_flags (s : State) (f : Flag) : (s.raise f).flags = s.flags ||| f.mask := rfl
@[simp] theorem State.raise_appResetLsb (s : State) (f : Flag) : (s.raise f).appResetLsb = s.appResetLsb := rfl
@[simp] theorem State.raise_appResetMsb (s : State) (f : Flag) : (s.raise f).appResetMsb = s.appResetMsb := rfl
@[simp] theorem State.raise_stage (s : State) (f : Flag) : (s.raise f).stage = s.stage := rfl
@[simp] theorem State.raise_rx (s : State) (f : Flag) : (s.raise f).rx = s.rx := rfl
@[simp] theorem State.raise_tx (s : State) (f : Flag) : (s.raise f).tx = s.tx := rfl
@[simp] theorem State.raise_idleCount (s : State) (f : Flag) : (s.raise f).idleCount = s.idleCount := rfl
@[simp] theorem State.raise_run (s : State) (f : Flag) : (s.raise f).run = s.run := rfl
@[simp] theorem State.raise_flash (s : State) (f : Flag) : (s.raise f).flash = s.flash := rfl
@[simp] theorem State.raise_periph (s : State) (f : Flag) : (s.raise f).periph = s.periph := rfl
@[simp] theorem State.raise_interruptsEnabled (s : State) (f : Flag) :
    (s.raise f).interruptsEnabled =
      s.interruptsEnabled := rfl
@[simp] theorem State.raise_restarting (s : State) (f : Flag) : (s.raise f).restarting = s.restarting := rfl
@[simp] theorem State.raise_cpu (s : State) (f : Flag) : (s.raise f).cpu = s.cpu := rfl
@[simp] theorem State.raise_draws (s : State) (f : Flag) : (s.raise f).draws = s.draws := rfl
@[simp] theorem State.raise_host (s : State) (f : Flag) : (s.raise f).host = s.host := rfl
@[simp] theorem State.raise_seen (s : State) (f : Flag) : (s.raise f).seen = s.seen := rfl

/-! ## lower -/

@[simp] theorem State.lower_cfg (s : State) (f : Flag) : (s.lower f).cfg = s.cfg := rfl
@[simp] theorem State.lower_phase (s : State) (f : Flag) : (s.lower f).phase = s.phase := rfl
@[simp] theorem State.lower_armed (s : State) (f : Flag) : (s.lower f).armed = s.armed := rfl
@[simp] theorem State.lower_sdaDrive (s : State) (f : Flag) : (s.lower f).sdaDrive = s.sdaDrive := rfl
@[simp] theorem State.lower_bitCount (s : State) (f : Flag) : (s.lower f).bitCount = s.bitCount := rfl
@[simp] theorem State.lower_pageAddress (s : State) (f : Flag) : (s.lower f).pageAddress = s.pageAddress := rfl
@[simp] theorem State.lower_pageIndex (s : State) (f : Flag) : (s.lower f).pageIndex = s.pageIndex := rfl
@[simp] theorem State.lower_flags (s : State) (f : Flag) : (s.lower f).flags = s.flags &&& ~~~f.mask := rfl
@[simp] theorem State.lower_appResetLsb (s : State) (f : Flag) : (s.lower f).appResetLsb = s.appResetLsb := rfl
@[simp] theorem State.lower_appResetMsb (s : State) (f : Flag) : (s.lower f).appResetMsb = s.appResetMsb := rfl
@[simp] theorem State.lower_stage (s : State) (f : Flag) : (s.lower f).stage = s.stage := rfl
@[simp] theorem State.lower_rx (s : State) (f : Flag) : (s.lower f).rx = s.rx := rfl
@[simp] theorem State.lower_tx (s : State) (f : Flag) : (s.lower f).tx = s.tx := rfl
@[simp] theorem State.lower_idleCount (s : State) (f : Flag) : (s.lower f).idleCount = s.idleCount := rfl
@[simp] theorem State.lower_run (s : State) (f : Flag) : (s.lower f).run = s.run := rfl
@[simp] theorem State.lower_flash (s : State) (f : Flag) : (s.lower f).flash = s.flash := rfl
@[simp] theorem State.lower_periph (s : State) (f : Flag) : (s.lower f).periph = s.periph := rfl
@[simp] theorem State.lower_interruptsEnabled (s : State) (f : Flag) :
    (s.lower f).interruptsEnabled =
      s.interruptsEnabled := rfl
@[simp] theorem State.lower_restarting (s : State) (f : Flag) : (s.lower f).restarting = s.restarting := rfl
@[simp] theorem State.lower_cpu (s : State) (f : Flag) : (s.lower f).cpu = s.cpu := rfl
@[simp] theorem State.lower_draws (s : State) (f : Flag) : (s.lower f).draws = s.draws := rfl
@[simp] theorem State.lower_host (s : State) (f : Flag) : (s.lower f).host = s.host := rfl
@[simp] theorem State.lower_seen (s : State) (f : Flag) : (s.lower f).seen = s.seen := rfl

/-! ## enterStart -/

@[simp] theorem State.enterStart_cfg (s : State) : (s.enterStart).cfg = s.cfg := rfl
@[simp] theorem State.enterStart_phase (s : State) : (s.enterStart).phase = .checkAddress := rfl
@[simp] theorem State.enterStart_armed (s : State) : (s.enterStart).armed = s.armed := rfl
@[simp] theorem State.enterStart_sdaDrive (s : State) : (s.enterStart).sdaDrive = false := rfl
@[simp] theorem State.enterStart_bitCount (s : State) : (s.enterStart).bitCount = s.bitCount := rfl
@[simp] theorem State.enterStart_pageAddress (s : State) : (s.enterStart).pageAddress = s.pageAddress := rfl
@[simp] theorem State.enterStart_pageIndex (s : State) : (s.enterStart).pageIndex = s.pageIndex := rfl
@[simp] theorem State.enterStart_flags (s : State) : (s.enterStart).flags = s.flags := rfl
@[simp] theorem State.enterStart_appResetLsb (s : State) : (s.enterStart).appResetLsb = s.appResetLsb := rfl
@[simp] theorem State.enterStart_appResetMsb (s : State) : (s.enterStart).appResetMsb = s.appResetMsb := rfl
@[simp] theorem State.enterStart_stage (s : State) : (s.enterStart).stage = s.stage := rfl
@[simp] theorem State.enterStart_rx (s : State) : (s.enterStart).rx = s.rx := rfl
@[simp] theorem State.enterStart_tx (s : State) : (s.enterStart).tx = s.tx := rfl
@[simp] theorem State.enterStart_idleCount (s : State) : (s.enterStart).idleCount = s.idleCount := rfl
@[simp] theorem State.enterStart_run (s : State) : (s.enterStart).run = s.run := rfl
@[simp] theorem State.enterStart_flash (s : State) : (s.enterStart).flash = s.flash := rfl
@[simp] theorem State.enterStart_periph (s : State) : (s.enterStart).periph = s.periph := rfl
@[simp] theorem State.enterStart_interruptsEnabled (s : State) :
    (s.enterStart).interruptsEnabled =
      s.interruptsEnabled := rfl
@[simp] theorem State.enterStart_restarting (s : State) : (s.enterStart).restarting = s.restarting := rfl
@[simp] theorem State.enterStart_cpu (s : State) : (s.enterStart).cpu = s.cpu := rfl
@[simp] theorem State.enterStart_draws (s : State) : (s.enterStart).draws = s.draws := rfl
@[simp] theorem State.enterStart_host (s : State) : (s.enterStart).host = s.host := rfl
@[simp] theorem State.enterStart_seen (s : State) : (s.enterStart).seen = s.seen := rfl

/-! ## boot -/

@[simp] theorem State.boot_cfg (s : State) : (s.boot).cfg = s.cfg := rfl
@[simp] theorem State.boot_phase (s : State) : (s.boot).phase = .checkAddress := rfl
@[simp] theorem State.boot_armed (s : State) : (s.boot).armed = false := rfl
@[simp] theorem State.boot_sdaDrive (s : State) : (s.boot).sdaDrive = false := rfl
@[simp] theorem State.boot_bitCount (s : State) : (s.boot).bitCount = .eight := rfl
@[simp] theorem State.boot_pageAddress (s : State) : (s.boot).pageAddress = 0#16 := rfl
@[simp] theorem State.boot_pageIndex (s : State) : (s.boot).pageIndex = 0#8 := rfl
@[simp] theorem State.boot_flags (s : State) : (s.boot).flags = 0#8 := rfl
@[simp] theorem State.boot_appResetLsb (s : State) : (s.boot).appResetLsb = (Draw.free s.cfg s.draws).appResetLsb := rfl
@[simp] theorem State.boot_appResetMsb (s : State) : (s.boot).appResetMsb = (Draw.free s.cfg s.draws).appResetMsb := rfl
@[simp] theorem State.boot_stage (s : State) : (s.boot).stage = (Draw.free s.cfg s.draws).stage := rfl
@[simp] theorem State.boot_rx (s : State) : (s.boot).rx = Ring.empty (Draw.free s.cfg s.draws).rxBuf := rfl
@[simp] theorem State.boot_tx (s : State) : (s.boot).tx = Ring.empty (Draw.free s.cfg s.draws).txBuf := rfl
@[simp] theorem State.boot_idleCount (s : State) : (s.boot).idleCount = 0 := rfl
@[simp] theorem State.boot_run (s : State) : (s.boot).run = .running := rfl
@[simp] theorem State.boot_flash (s : State) : (s.boot).flash = s.flash := rfl
@[simp] theorem State.boot_periph (s : State) :
    (s.boot).periph =
      { startFlag := false, ovfFlag := false, stopFlag := false, scl := s.periph.scl, hostSda := s.periph.hostSda, dr := (Draw.free s.cfg s.draws).dr, shifted := 0 } := rfl
@[simp] theorem State.boot_interruptsEnabled (s : State) : (s.boot).interruptsEnabled = false := rfl
@[simp] theorem State.boot_restarting (s : State) : (s.boot).restarting = false := rfl
@[simp] theorem State.boot_cpu (s : State) : (s.boot).cpu = none := rfl
@[simp] theorem State.boot_draws (s : State) : (s.boot).draws = s.draws + Draw.size s.cfg := rfl
@[simp] theorem State.boot_host (s : State) : (s.boot).host = s.host := rfl
@[simp] theorem State.boot_seen (s : State) : (s.boot).seen = s.seen := rfl

/-! ## clockBit -/

@[simp] theorem State.clockBit_cfg (s : State) (b : Bool) : (s.clockBit b).cfg = s.cfg := rfl
@[simp] theorem State.clockBit_phase (s : State) (b : Bool) : (s.clockBit b).phase = s.phase := rfl
@[simp] theorem State.clockBit_armed (s : State) (b : Bool) : (s.clockBit b).armed = s.armed := rfl
@[simp] theorem State.clockBit_sdaDrive (s : State) (b : Bool) : (s.clockBit b).sdaDrive = s.sdaDrive := rfl
@[simp] theorem State.clockBit_bitCount (s : State) (b : Bool) : (s.clockBit b).bitCount = s.bitCount := rfl
@[simp] theorem State.clockBit_pageAddress (s : State) (b : Bool) : (s.clockBit b).pageAddress = s.pageAddress := rfl
@[simp] theorem State.clockBit_pageIndex (s : State) (b : Bool) : (s.clockBit b).pageIndex = s.pageIndex := rfl
@[simp] theorem State.clockBit_flags (s : State) (b : Bool) : (s.clockBit b).flags = s.flags := rfl
@[simp] theorem State.clockBit_appResetLsb (s : State) (b : Bool) : (s.clockBit b).appResetLsb = s.appResetLsb := rfl
@[simp] theorem State.clockBit_appResetMsb (s : State) (b : Bool) : (s.clockBit b).appResetMsb = s.appResetMsb := rfl
@[simp] theorem State.clockBit_stage (s : State) (b : Bool) : (s.clockBit b).stage = s.stage := rfl
@[simp] theorem State.clockBit_rx (s : State) (b : Bool) : (s.clockBit b).rx = s.rx := rfl
@[simp] theorem State.clockBit_tx (s : State) (b : Bool) : (s.clockBit b).tx = s.tx := rfl
@[simp] theorem State.clockBit_idleCount (s : State) (b : Bool) : (s.clockBit b).idleCount = s.idleCount := rfl
@[simp] theorem State.clockBit_run (s : State) (b : Bool) : (s.clockBit b).run = s.run := rfl
@[simp] theorem State.clockBit_flash (s : State) (b : Bool) : (s.clockBit b).flash = s.flash := rfl
@[simp] theorem State.clockBit_interruptsEnabled (s : State) (b : Bool) : (s.clockBit b).interruptsEnabled = s.interruptsEnabled := rfl
@[simp] theorem State.clockBit_restarting (s : State) (b : Bool) : (s.clockBit b).restarting = s.restarting := rfl
@[simp] theorem State.clockBit_cpu (s : State) (b : Bool) : (s.clockBit b).cpu = s.cpu := rfl
@[simp] theorem State.clockBit_host (s : State) (b : Bool) : (s.clockBit b).host = s.host := rfl
@[simp] theorem State.clockBit_seen (s : State) (b : Bool) : (s.clockBit b).seen = s.lineLevel b :: s.seen := rfl

/-! ## The data line (R44, R264) -/

/-- A line the block does not drive is as the host leaves it. -/
theorem State.sda_released {s : State} (h : s.sdaDrive = false) : s.sda = s.periph.hostSda := by
  simp [State.sda, State.lineLevel, h]

/-- A line the block drives carries dr[7], unless the host pulls it low. -/
theorem State.sda_driven {s : State} (h : s.sdaDrive = true) : s.sda = (s.periph.hostSda && s.periph.dr.getLsbD 7) := by
  simp [State.sda, State.lineLevel, h]

@[simp] theorem State.sda_rearm (s : State) : s.rearm.sda = s.periph.hostSda := State.sda_released rfl
@[simp] theorem State.sda_sendAck (s : State) : s.sendAck.sda = false := by simp [State.sda_driven (s := s.sendAck) rfl]
@[simp] theorem State.sda_readAck (s : State) : s.readAck.sda = s.periph.hostSda := State.sda_released rfl
@[simp] theorem State.sda_receiveByte (s : State) : s.receiveByte.sda = s.periph.hostSda := State.sda_released rfl
@[simp] theorem State.sda_enterStart (s : State) : s.enterStart.sda = s.periph.hostSda := State.sda_released rfl
@[simp] theorem State.sda_sendByte (s : State) (b : Byte) :
    (s.sendByte b).sda = (s.periph.hostSda && b.getLsbD 7) := State.sda_driven rfl

end Sys2Proof.Machine
end

