-- ==== Sys2Proof/Laws/Flags.lean ====
section
/-! SUPPORT. The flags register bit by bit: a write of one flag leaves the others and the reserved bits (R35). -/

namespace Sys2Proof.Machine

open Sys2Proof

@[simp] theorem Flag.mask_bit (f : Flag) (i : Nat) : f.mask.getLsbD i = decide (i = f.pos) := by
  cases f <;> simp only [mask, pos] <;>
    (rcases i with _ | _ | _ | _ | _ | _ | _ | _ | i <;> simp)

@[simp] theorem Flag.pos_inj {f g : Flag} : f.pos = g.pos ↔ f = g := by cases f <;> cases g <;> decide

theorem Flag.pos_lt (f : Flag) : f.pos < 5 := by cases f <;> decide

@[simp] theorem State.raise_bit (s : State) (f : Flag) (i : Nat) :
    (s.raise f).flags.getLsbD i = (s.flags.getLsbD i || decide (i = f.pos)) := by
  simp

@[simp] theorem State.lower_bit (s : State) (f : Flag) (i : Nat) :
    (s.lower f).flags.getLsbD i = (s.flags.getLsbD i && decide (i ≠ f.pos)) := by
  have := f.pos_lt
  by_cases hi : i < 8
  · rw [State.lower_flags, BitVec.getLsbD_and, BitVec.getLsbD_not, Flag.mask_bit]; simp [hi]
  · have hf : s.flags.getLsbD i = false := BitVec.getLsbD_of_ge _ _ (by omega)
    simp [hf]

@[simp] theorem State.flag_raise (s : State) (f g : Flag) : (s.raise f).flag g = (s.flag g || decide (g = f)) := by
  simp [State.flag]

@[simp] theorem State.flag_lower (s : State) (f g : Flag) : (s.lower f).flag g = (s.flag g && decide (g ≠ f)) := by
  unfold State.flag; rw [State.lower_bit]; simp

theorem State.flag_congr {s t : State} (h : s.flags = t.flags) (f : Flag) : s.flag f = t.flag f := by
  simp [State.flag, h]

theorem initialized_congr {s t : State} (hc : s.cfg = t.cfg) (hf : s.flags = t.flags) : initialized s = initialized t := by
  have : s.flag = t.flag := funext (State.flag_congr hf)
  simp [initialized, hc, this]

/-- The gate, spelled out (R243). -/
theorem initialized_iff (s : State) : initialized s = true ↔
    match s.cfg.handshake with
    | .oneStep => s.flag .init1 = true
    | .twoStep => s.flag .init1 = true ∧ s.flag .init2 = true := by
  unfold initialized requiredInit
  cases s.cfg.handshake <;> simp

end Sys2Proof.Machine
end

