-- ==== Sys2Proof/Laws/Bus.lean ====
section
/-! SUPPORT. What the host's bus events can change: the peripheral, the bits seen and the draws, and nothing else (R264). -/

namespace Sys2Proof.Machine

open Sys2Proof

/-- `u` differs from `s` in the peripheral, the bits seen and the draws only. -/
def OnlyBus (s u : State) : Prop := ∃ p seen draws, u = { s with periph := p, seen := seen, draws := draws }

theorem OnlyBus.refl (s : State) : OnlyBus s s := ⟨_, _, _, rfl⟩

theorem OnlyBus.trans {s t u : State} (h : OnlyBus s t) (h' : OnlyBus t u) : OnlyBus s u := by
  obtain ⟨p, b, d, rfl⟩ := h
  obtain ⟨p', b', d', rfl⟩ := h'
  exact ⟨p', b', d', rfl⟩

theorem onlyBus_clockBit (s : State) (b : Bool) : OnlyBus s (s.clockBit b) := ⟨_, _, _, rfl⟩

/-- Everything one bus event can do. -/
theorem deliver_cases {e : BusEvent} {s u : State} (h : deliver e s = .ok u) :
    (e = .start ∧ quietGap s = false ∧ u = { s with periph := { s.periph with startFlag := true, scl := true, hostSda := false } }) ∨
    (e = .stop ∧ u = { s with periph := { s.periph with stopFlag := true, scl := true, hostSda := true } }) ∨
    (e = .clockLow ∧ u = { s with periph := { s.periph with scl := false } }) ∨
    (∃ bit, e = .clock bit ∧ quietGap s = false ∧ handlerPending s = false ∧ u = s.clockBit bit) := by
  cases e with
  | start =>
    simp only [deliver] at h
    split at h
    · cases h
    · next hq => cases h; exact .inl ⟨rfl, by simpa using hq, rfl⟩
  | stop => cases h; exact .inr (.inl ⟨rfl, rfl⟩)
  | clockLow => cases h; exact .inr (.inr (.inl ⟨rfl, rfl⟩))
  | clock bit =>
    simp only [deliver] at h
    split at h
    · cases h
    · split at h
      · cases h
      · next hq hp => cases h; exact .inr (.inr (.inr ⟨bit, rfl, by simpa using hq, by simpa using hp, rfl⟩))

theorem onlyBus_deliver {e : BusEvent} {s u : State} (h : deliver e s = .ok u) : OnlyBus s u := by
  obtain ⟨-, -, rfl⟩ | ⟨-, rfl⟩ | ⟨-, rfl⟩ | ⟨bit, -, -, -, rfl⟩ := deliver_cases h
  · exact ⟨_, _, s.draws, rfl⟩
  · exact ⟨_, _, s.draws, rfl⟩
  · exact ⟨_, _, s.draws, rfl⟩
  · exact onlyBus_clockBit s bit

/-- What every event of a turn keeps, the turn keeps. -/
theorem deliverAll_induction {P : State → Prop} (hP : ∀ e s u, P s → deliver e s = .ok u → P u) :
    ∀ {es : List BusEvent} {s u : State}, P s → deliverAll es s = .ok u → P u
  | [], s, u, hs, h => by cases h; exact hs
  | e :: es, s, u, hs, h => by
    rw [deliverAll] at h
    split at h
    · next s' he => exact deliverAll_induction hP (hP e s s' hs he) h
    · cases h

theorem onlyBus_deliverAll {es : List BusEvent} {s u : State} (h : deliverAll es s = .ok u) : OnlyBus s u :=
  deliverAll_induction (P := OnlyBus s) (fun _ _ _ hs he => hs.trans (onlyBus_deliver he)) (OnlyBus.refl s) h

/-- The fields the device works on are those before the host's events. -/
theorem delivered_onlyBus {s u : State} (h : Delivered s u) :
    ∃ rest, OnlyBus { s with host := rest } u := by
  unfold Delivered at h
  split at h
  · subst h; next hh => exact ⟨[], by rw [← hh]; exact OnlyBus.refl _⟩
  · next rest _ => exact ⟨rest, onlyBus_deliverAll h⟩
  · cases h

/-- One bus event keeps the count of clocked bits below the bit count while the flag is not set (R264). -/
theorem bits_counted_deliver {e : BusEvent} {s u : State} (h : deliver e s = .ok u)
    (hs : s.periph.ovfFlag = false → s.periph.shifted < s.bitCount.toNat) :
    u.periph.ovfFlag = false → u.periph.shifted < u.bitCount.toNat := by
  obtain ⟨-, -, rfl⟩ | ⟨-, rfl⟩ | ⟨-, rfl⟩ | ⟨bit, -, -, -, rfl⟩ := deliver_cases h
  · exact hs
  · exact hs
  · exact hs
  · unfold State.clockBit
    cases s.armed
    · simpa using hs
    · simp only [Bool.or_eq_false_iff, Bool.true_and, if_true, decide_eq_false_iff_not, Nat.not_le]
      exact fun hu => hu.2

/-- The host's events keep the invariant. -/
theorem inv_deliver {e : BusEvent} {s u : State} (hs : s.Inv) (h : deliver e s = .ok u) : u.Inv := by
  have hb := bits_counted_deliver h hs.bits_counted
  obtain ⟨p, seen, draws, rfl⟩ := onlyBus_deliver h
  exact { hs with bits_counted := hb }

theorem inv_deliverAll {es : List BusEvent} {s u : State} (hs : s.Inv) (h : deliverAll es s = .ok u) : u.Inv :=
  deliverAll_induction (fun _ _ _ => inv_deliver) hs h

theorem inv_host {s : State} (hs : s.Inv) (host : List Turn) : ({ s with host := host } : State).Inv := { hs with }

theorem inv_delivered {s u : State} (hs : s.Inv) (h : Delivered s u) : u.Inv := by
  unfold Delivered at h
  split at h
  · subst h; exact hs
  · exact inv_deliverAll (inv_host hs _) h
  · cases h

/-! ## The wait for the watchdog (R209, R303) -/

/-- A stop and a falling clock are delivered whatever the block does, and change only the peripheral. -/
theorem deliverAll_wait : ∀ {es : List BusEvent}, (∀ e ∈ es, e = .stop ∨ e = .clockLow) → ∀ s : State,
    ∃ p, deliverAll es s = .ok { s with periph := p }
  | [], _, s => ⟨s.periph, rfl⟩
  | e :: es, h, s => by
    rcases h e (by simp) with rfl | rfl
    · exact deliverAll_wait (fun e he => h e (by simp [he]))
        { s with periph := { s.periph with stopFlag := true, scl := true, hostSda := true } }
    · exact deliverAll_wait (fun e he => h e (by simp [he])) { s with periph := { s.periph with scl := false } }

/-- A start or a clock in the wait is refused, whatever came before it (R302). -/
theorem deliverAll_wait_broken : ∀ {es : List BusEvent}, (∃ e ∈ es, e = .start ∨ ∃ b, e = .clock b) →
    ∀ {s : State}, s.restarting = true → deliverAll es s = .error .quietGapBroken
  | [], h, _, _ => by simp at h
  | .start :: _, _, s, hr => by simp [deliverAll, deliver, quietGap, hr]
  | .clock _ :: _, _, s, hr => by simp [deliverAll, deliver, quietGap, hr]
  | .stop :: es, h, s, hr =>
    deliverAll_wait_broken (es := es) (by simpa using h)
      (s := { s with periph := { s.periph with stopFlag := true, scl := true, hostSda := true } }) hr
  | .clockLow :: es, h, s, hr =>
    deliverAll_wait_broken (es := es) (by simpa using h) (s := { s with periph := { s.periph with scl := false } }) hr

/-- The host's turn leads to one state. -/
theorem delivered_unique {s u v : State} (h : Delivered s u) (h' : Delivered s v) : u = v := by
  unfold Delivered at h h'
  split at h
  · next hh => simp only [hh] at h'; rw [h, h']
  · next hh => simp only [hh] at h'; rw [h] at h'; cases h'; rfl
  · cases h

/-! ## Runs of bit clocks (R264) -/

/-- A bit clock that breaks no duty is delivered (R20 H4, H5). -/
theorem deliver_clock {s : State} (b : Bool) (hr : s.restarting = false) (hs : s.periph.startFlag = false)
    (ho : s.periph.ovfFlag = false) : deliver (.clock b) s = .ok (s.clockBit b) := by
  simp [deliver, quietGap, nackPending, handlerPending, hr, hs, ho]

/-- The shift register after the bits `l` have been shifted in, the first of them first. -/
def shiftedIn (dr : Byte) (l : List Bool) : Byte := l.foldl (fun d b => (d <<< 1) ||| (if b then 1#8 else 0#8)) dr

/-- Clocks while the device samples: each bit goes into dr, and the flag is set with the last bit counted (R264). -/
theorem clocks_in : ∀ (l : List Bool) {s : State}, s.restarting = false → s.periph.startFlag = false → s.armed = true →
    s.sdaDrive = false → s.periph.ovfFlag = false → s.periph.shifted < s.bitCount.toNat →
    s.periph.shifted + l.length ≤ s.bitCount.toNat →
    ∃ scl hostSda, deliverAll (l.map .clock) s = .ok { s with
      seen := l.reverse ++ s.seen
      periph := { s.periph with
        scl := scl, hostSda := hostSda, dr := shiftedIn s.periph.dr l, shifted := s.periph.shifted + l.length
        ovfFlag := decide (s.bitCount.toNat ≤ s.periph.shifted + l.length) } }
  | [], s, _, _, _, _, ho, hn, _ => by
    refine ⟨s.periph.scl, s.periph.hostSda, ?_⟩
    have : decide (s.bitCount.toNat ≤ s.periph.shifted) = s.periph.ovfFlag := by
      rw [ho]; exact decide_eq_false (by omega)
    simp only [List.map_nil, deliverAll, List.reverse_nil, List.nil_append, List.length_nil, Nat.add_zero, shiftedIn,
      List.foldl_nil, this]
  | b :: l, s, hr, hs, ha, hd, ho, hn, hl => by
    rw [List.length_cons] at hl
    have hline : s.lineLevel b = b := by simp [State.lineLevel, hd]
    have hc : s.clockBit b = { s with
        seen := b :: s.seen
        periph := { s.periph with
          scl := false, hostSda := b, dr := shiftedIn s.periph.dr [b], shifted := s.periph.shifted + 1
          ovfFlag := decide (s.bitCount.toNat ≤ s.periph.shifted + 1) } } := by
      simp [State.clockBit, ha, hd, hline, State.shiftIn, shiftedIn, ho]
    rw [List.map_cons, deliverAll, deliver_clock b hr hs ho]
    cases l with
    | nil => exact ⟨false, b, by simp only [List.map_nil, deliverAll, hc]; rfl⟩
    | cons b' l =>
      rw [List.length_cons] at hl
      have ih := clocks_in (b' :: l) (s := s.clockBit b) (by rw [hc]; exact hr) (by rw [hc]; exact hs)
        (by rw [hc]; exact ha) (by rw [hc]; exact hd) (by rw [hc]; exact decide_eq_false (by omega))
        (by rw [hc]; show s.periph.shifted + 1 < s.bitCount.toNat; omega)
        (by rw [hc, List.length_cons]; show s.periph.shifted + 1 + (l.length + 1) ≤ s.bitCount.toNat; omega)
      obtain ⟨scl, hostSda, ih⟩ := ih
      refine ⟨scl, hostSda, ?_⟩
      simp only
      rw [ih, hc]
      simp only [List.reverse_cons, List.append_assoc, List.cons_append, List.nil_append, List.length_cons, shiftedIn,
        List.foldl_cons, List.foldl_nil, Nat.add_assoc, Nat.add_comm 1]

/-- Clocks while the peripheral is not armed and the line is released: each bit goes into dr, and none is counted (R32, R264). -/
theorem clocks_unarmed : ∀ (l : List Bool) {s : State}, s.restarting = false → s.periph.startFlag = false →
    s.armed = false → s.sdaDrive = false →
    ∃ scl hostSda, deliverAll (l.map .clock) s = .ok { s with
      seen := l.reverse ++ s.seen
      periph := { s.periph with scl := scl, hostSda := hostSda, dr := shiftedIn s.periph.dr l } }
  | [], s, _, _, _, _ => ⟨s.periph.scl, s.periph.hostSda, rfl⟩
  | b :: l, s, hr, hs, ha, hd => by
    have hc : s.clockBit b = { s with
        seen := b :: s.seen
        periph := { s.periph with scl := false, hostSda := b, dr := shiftedIn s.periph.dr [b] } } := by
      simp [State.clockBit, State.lineLevel, ha, hd, State.shiftIn, shiftedIn]
    have hdel : deliver (.clock b) s = .ok (s.clockBit b) := by
      simp [deliver, quietGap, nackPending, handlerPending, hr, hs, ha]
    obtain ⟨scl, hostSda, ih⟩ := clocks_unarmed l (s := s.clockBit b) (by rw [hc]; exact hr) (by rw [hc]; exact hs)
      (by rw [hc]; exact ha) (by rw [hc]; exact hd)
    refine ⟨scl, hostSda, ?_⟩
    rw [List.map_cons, deliverAll, hdel]
    simp only
    rw [ih, hc]
    simp only [List.reverse_cons, List.append_assoc, List.cons_append, List.nil_append, shiftedIn, List.foldl_cons,
      List.foldl_nil]

/-- Clocks while the peripheral is not armed count nothing, whatever the line does (R264). -/
theorem clocks_unarmed_count : ∀ (l : List Bool) {s : State}, s.restarting = false → s.periph.startFlag = false →
    s.armed = false →
    ∃ u, deliverAll (l.map .clock) s = .ok u ∧ u.periph.ovfFlag = s.periph.ovfFlag ∧
      u.periph.shifted = s.periph.shifted
  | [], s, _, _, _ => ⟨s, rfl, rfl, rfl⟩
  | b :: l, s, hr, hs, ha => by
    have hdel : deliver (.clock b) s = .ok (s.clockBit b) := by
      simp [deliver, quietGap, nackPending, handlerPending, hr, hs, ha]
    obtain ⟨u, hu, h1, h2⟩ := clocks_unarmed_count l (s := s.clockBit b) hr hs ha
    refine ⟨u, ?_, h1.trans ?_, h2.trans ?_⟩
    · rw [List.map_cons, deliverAll, hdel]; exact hu
    · simp [State.clockBit, ha]
    · simp [State.clockBit, ha]

/-- The bits the host sees of dr in `n` clocks, the latest first. -/
def sentBits (dr : Byte) (n : Nat) : List Bool := ((List.range n).map fun i => dr.getLsbD (7 - i)).reverse

/-- Clocks while the device drives and the host releases the line: the host sees dr, MSB first (R264). What is shifted into dr
is not said (log entry 15). -/
theorem clocks_out : ∀ (n : Nat) {s : State}, s.restarting = false → s.periph.startFlag = false → s.armed = true →
    s.sdaDrive = true → s.bitCount = .eight → s.periph.ovfFlag = false → s.periph.shifted = 0 → n ≤ 8 →
    ∃ scl hostSda dr draws, (∀ j, j + n ≤ 7 → dr.getLsbD (j + n) = s.periph.dr.getLsbD j) ∧
      (0 < n → hostSda = true) ∧
      deliverAll (List.replicate n (.clock true)) s = .ok { s with
        seen := sentBits s.periph.dr n ++ s.seen, draws := draws
        periph := { s.periph with
          scl := scl, hostSda := hostSda, dr := dr, shifted := n, ovfFlag := decide (8 ≤ n) } }
  | 0, s, _, _, _, _, _, ho, hn, _ => by
    refine ⟨s.periph.scl, s.periph.hostSda, s.periph.dr, s.draws, fun j _ => rfl, fun h => absurd h (by decide), ?_⟩
    have hp : ({ s.periph with shifted := 0, ovfFlag := decide (8 ≤ 0) } : Periph) = s.periph := by
      revert ho hn
      generalize s.periph = p
      intro ho hn
      cases p
      simp_all
    show Except.ok s = Except.ok { s with periph := { s.periph with shifted := 0, ovfFlag := decide (8 ≤ 0) } }
    rw [hp]
  | n + 1, s, hr, hs, ha, hd, hb, ho, hn, hl => by
    obtain ⟨scl, hostSda, dr, draws, hdr, -, ih⟩ := clocks_out n hr hs ha hd hb ho hn (by omega)
    have hcat : List.replicate (n + 1) (BusEvent.clock true) = List.replicate n (.clock true) ++ [.clock true] := by
      rw [List.replicate_succ']
    have happ : ∀ (es : List BusEvent) (s u : State), deliverAll es s = .ok u →
        deliverAll (es ++ [.clock true]) s = deliverAll [.clock true] u := by
      intro es
      induction es with
      | nil => intro s u h; cases h; rfl
      | cons e es ihe =>
        intro s u h
        rw [deliverAll] at h
        rw [List.cons_append, deliverAll]
        split at h
        · next s' he => exact ihe s' u h
        · cases h
    have h7 : dr.getLsbD 7 = s.periph.dr.getLsbD (7 - n) := by
      have := hdr (7 - n) (by omega)
      rwa [show 7 - n + n = 7 by omega] at this
    rw [hcat, happ _ _ _ ih, deliverAll, deliver_clock (s := _) true (by exact hr) (by exact hs)
      (by exact decide_eq_false (by omega))]
    refine ⟨false, true, (dr <<< 1) ||| (Config.freeByte draws &&& 1#8), draws + 1, ?_, fun _ => rfl, ?_⟩
    · intro j hj
      have hbit : ∀ i, 0 < i → i < 8 → ((dr <<< 1) ||| (Config.freeByte draws &&& 1#8)).getLsbD i = dr.getLsbD (i - 1) := by
        intro i h0 h8
        rw [BitVec.getLsbD_or, BitVec.getLsbD_and, BitVec.getLsbD_shiftLeft]
        have h1 : (1#8).getLsbD i = false := by
          rw [BitVec.getLsbD_one]; simp; omega
        rw [h1, Bool.and_false, Bool.or_false, decide_eq_true h8, Bool.true_and]
        simp [show i ≠ 0 by omega]
      rw [hbit (j + (n + 1)) (by omega) (by omega), show j + (n + 1) - 1 = j + n by omega, hdr j (by omega)]
    · simp only [deliverAll, State.clockBit, ha, if_true, State.lineLevel, hd, State.shiftIn, hb, BitCount.toNat,
        Bool.not_true, Bool.false_or, Bool.true_and]
      rw [h7]
      have hsent : sentBits s.periph.dr (n + 1) = s.periph.dr.getLsbD (7 - n) :: sentBits s.periph.dr n := by
        simp [sentBits, List.range_succ]
      have hdec : (decide (8 ≤ n) || decide (8 ≤ n + 1)) = decide (8 ≤ n + 1) := by
        rw [decide_eq_false (by omega : ¬8 ≤ n), Bool.false_or]
      rw [hsent, hdec]
      rfl

theorem byteClocks_eq (b : Byte) : byteClocks b = ((List.range 8).map fun i => b.getLsbD (7 - i)).map .clock := rfl

theorem shiftedIn_byte (dr b : Byte) : shiftedIn dr ((List.range 8).map fun i => b.getLsbD (7 - i)) = b := by
  apply BitVec.eq_of_getLsbD_eq
  intro i hi
  simp only [shiftedIn, List.range, List.range.loop, List.map_cons, List.map_nil, List.foldl_cons, List.foldl_nil]
  have hb : ∀ c : Bool, (if c then 1#8 else 0#8) = (BitVec.ofBool c).setWidth 8 := by decide
  simp only [hb, BitVec.getLsbD_or, BitVec.getLsbD_shiftLeft, BitVec.getLsbD_setWidth, BitVec.getLsbD_ofBool]
  rcases i with _ | _ | _ | _ | _ | _ | _ | _ | i
  all_goals first | omega | simp

theorem bitsSeen_eq (b : Byte) : bitsSeen b = ((List.range 8).map fun i => b.getLsbD (7 - i)).reverse := rfl

/-! ## A step -/

/-- A turn of a running block whose events are all delivered goes on with the device's part. -/
theorem stepBus_of_deliverAll {es : List BusEvent} {s u : State} (hr : s.run = .running) (h : deliverAll es s = .ok u) :
    stepBus es s = advance u := by
  unfold stepBus
  split
  · next hw => rw [hr] at hw; cases hw
  · rw [h]

/-- A turn with a broken duty is refused (R303). -/
theorem stepBus_of_error {es : List BusEvent} {s : State} {r : Refusal} (hr : s.run = .running)
    (h : deliverAll es s = .error r) : stepBus es s = .refused r := by
  unfold stepBus
  split
  · next hw => rw [hr] at hw; cases hw
  · rw [h]

/-- The step, given what the host's events left: the device's part where the block runs. -/
theorem step_of_delivered {s u : State} (h : Delivered s u) (hr : u.run = .running) : step s = advance u := by
  unfold Delivered at h
  unfold step
  split at h
  · next hh => subst h; rw [hh]; exact stepBus_of_deliverAll hr rfl
  · next events rest hh =>
    rw [hh]
    refine stepBus_of_deliverAll ?_ h
    obtain ⟨p, b, d, rfl⟩ := onlyBus_deliverAll h
    exact hr
  · cases h

/-- Everything a step can do (R240): a reset from outside, or the device's part after the host's events of a running block. -/
theorem step_cases {s t : State} (h : step s = .next t) :
    (∃ rest, s.host = .reset :: rest ∧ t = ({ s with host := rest } : State).boot) ∨
    (s.run = .running ∧ ∃ u, Delivered s u ∧ u.run = .running ∧ advance u = .next t) := by
  unfold step at h
  split at h
  · next rest hh => cases h; exact .inl ⟨rest, hh, rfl⟩
  · next events rest hh =>
    right
    unfold stepBus at h
    split at h
    · cases h
    · next hr =>
      split at h
      · next u hu =>
        refine ⟨hr, u, by unfold Delivered; rw [hh]; exact hu, ?_, h⟩
        obtain ⟨p, b, d, rfl⟩ := onlyBus_deliverAll hu
        exact hr
      · cases h
  · next hh =>
    right
    unfold stepBus at h
    split at h
    · cases h
    · next hr => exact ⟨hr, s, by unfold Delivered; rw [hh], hr, h⟩

/-- Everything the device's part can do. -/
theorem advance_cases {u t : State} (h : advance u = .next t) :
    (u.restarting = true ∧ t = u.boot) ∨
    (u.restarting = false ∧ ∃ w, u.cpu = some w ∧ cpuStep w u = .next t) ∨
    (u.restarting = false ∧ u.cpu = none ∧ t = pass u) := by
  unfold advance at h
  split at h
  · next hr => cases h; exact .inl ⟨hr, rfl⟩
  · next hr =>
    have hr : u.restarting = false := by simpa using hr
    split at h
    · next w hw => exact .inr (.inl ⟨hr, w, hw, h⟩)
    · next hn => cases h; exact .inr (.inr ⟨hr, hn, rfl⟩)

theorem advance_of_runs {u : State} (h : u.Runs) : advance u = .next (pass u) := by
  simp [advance, h.2.1, h.2.2]

/-- A running block's step is its pass (R240). -/
theorem step_eq_pass {s u : State} (h : Delivered s u) (hr : u.Runs) : step s = .next (pass u) := by
  rw [step_of_delivered h hr.1, advance_of_runs hr]

end Sys2Proof.Machine
end

