-- ==== Sys2Proof/Laws/Config.lean ====
section
/-! SUPPORT. The parts of `Config.Legal` by name, and the arithmetic of the derived constants (R9, R10). -/

namespace Sys2Proof

theorem isPow2_exists {n : Nat} (h : IsPow2 n) : ∃ k, n = 2 ^ k := ⟨_, h⟩

theorem isPow2_pos {n : Nat} (h : IsPow2 n) : 0 < n := by rw [h]; exact Nat.two_pow_pos _

/-- Mask-based indexing is the remainder: "capacity is a power of two" (R66). -/
theorem and_pred_eq_mod {n : Nat} (h : IsPow2 n) (x : Nat) : x &&& (n - 1) = x % n := by
  obtain ⟨k, rfl⟩ := isPow2_exists h
  exact Nat.and_two_pow_sub_one_eq_mod x k

theorem isPow2_dvd {m n : Nat} (hm : IsPow2 m) (hn : IsPow2 n) (h : m ≤ n) : m ∣ n := by
  obtain ⟨j, rfl⟩ := isPow2_exists hm
  obtain ⟨k, rfl⟩ := isPow2_exists hn
  exact Nat.pow_dvd_pow 2 ((Nat.pow_le_pow_iff_right (by decide)).1 h)

namespace Config

variable {c : Config}

theorem Legal.ownAddr (h : c.Legal) : c.ownAddr ≠ 0#7 := h.1
theorem Legal.pageSize (h : c.Legal) : IsPow2 c.pageSize ∧ 2 ≤ c.pageSize ∧ c.pageSize ≤ 128 := h.2.1
theorem Legal.packetSize (h : c.Legal) : 1 ≤ c.packetSize ∧ c.packetSize ≤ c.pageSize := h.2.2.1
theorem Legal.flashBytes (h : c.Legal) : IsPow2 c.flashBytes ∧ c.flashBytes ≤ 8192 := h.2.2.2.1
theorem Legal.bootStart (h : c.Legal) :
    c.bootStart % c.pageSize = 0 ∧ 2 * c.pageSize ≤ c.bootStart ∧ c.bootStart < c.flashBytes := h.2.2.2.2.1
theorem Legal.rxCap (h : c.Legal) : IsPow2 c.rxCap ∧ c.longestFrame ≤ c.rxCap := h.2.2.2.2.2.1
theorem Legal.txCap (h : c.Legal) : IsPow2 c.txCap ∧ c.longestReply ≤ c.txCap := h.2.2.2.2.2.2.1
theorem Legal.readMax (h : c.Legal) : 1 ≤ c.readMax ∧ c.readMax + 2 ≤ c.txCap := h.2.2.2.2.2.2.2.1
theorem Legal.opcodes (h : c.Legal) : c.opcodes.Nodup := h.2.2.2.2.2.2.2.2.2.1

/-- BOOT_START is a whole number of pages. -/
theorem Legal.bootStart_eq (h : c.Legal) : c.bootStart = c.pageSize * (c.bootStart / c.pageSize) :=
  (Nat.mul_div_cancel' (Nat.dvd_of_mod_eq_zero h.bootStart.1)).symm

/-- BOOT_START is even, so the trampoline slot is word-aligned (R73). -/
theorem Legal.bootStart_even (h : c.Legal) : c.bootStart = 2 * c.bWord := by
  have hp : 2 ∣ c.pageSize := by
    obtain ⟨k, hk⟩ := isPow2_exists h.pageSize.1
    have h2 := h.pageSize.2.1
    cases k with
    | zero => simp at hk; omega
    | succ k => rw [hk, Nat.pow_succ]; exact Nat.dvd_mul_left 2 _
  have hb : 2 ∣ c.bootStart := Nat.dvd_trans hp (Nat.dvd_of_mod_eq_zero h.bootStart.1)
  unfold bWord
  omega

theorem Legal.bWord_bounds (h : c.Legal) : 2 ≤ c.bWord ∧ c.bWord < 4096 := by
  have := h.bootStart_even
  have := h.bootStart
  have := h.pageSize
  have := h.flashBytes
  omega

theorem Legal.appLimit_le (_h : c.Legal) : c.appLimit ≤ c.bootStart := by
  unfold appLimit trampPage
  split <;> omega

/-- APP_LIMIT is a whole number of pages. -/
theorem Legal.appLimit_mod (h : c.Legal) : c.appLimit % c.pageSize = 0 := by
  have hb := h.bootStart
  unfold appLimit trampPage
  split
  · exact hb.1
  · rw [← Nat.mod_eq_sub_mod (by omega)]; exact hb.1

/-- A page address below APP_LIMIT leaves room for its page (R61, R200). -/
theorem Legal.page_fits (h : c.Legal) {p : Nat} (hp : p % c.pageSize = 0) (hl : p < c.appLimit) :
    p + c.pageSize ≤ c.appLimit := by
  obtain ⟨a, ha⟩ := Nat.dvd_of_mod_eq_zero hp
  obtain ⟨b, hb⟩ := Nat.dvd_of_mod_eq_zero h.appLimit_mod
  rw [ha, hb] at hl
  have hab : a + 1 ≤ b := Nat.lt_of_mul_lt_mul_left hl
  have := Nat.mul_le_mul_left c.pageSize hab
  rw [Nat.mul_succ] at this
  omega

theorem Legal.pageSize_dvd_word (h : c.Legal) : c.pageSize ∣ 2 ^ 16 := by
  obtain ⟨k, hk⟩ := isPow2_exists h.pageSize.1
  have h128 := h.pageSize.2.2
  rw [hk] at h128 ⊢
  exact Nat.pow_dvd_pow 2 (by
    by_contra hc
    have : 2 ^ 17 ≤ 2 ^ k := Nat.pow_le_pow_right (by decide) (by omega)
    omega)

/-- The page mask clears exactly the offset in a page (R10). -/
theorem Legal.and_pageMask (h : c.Legal) (a : Word) : (a &&& c.pageMask).toNat = a.toNat % c.pageSize := by
  have h128 := h.pageSize.2.2
  rw [BitVec.toNat_and, pageMask, BitVec.toNat_ofNat, Nat.mod_eq_of_lt (by omega), and_pred_eq_mod h.pageSize.1]

/-- `addr & ~PAGE_MASK` is the page the address lies in (R96, R166). -/
theorem Legal.and_not_pageMask (h : c.Legal) (a : Word) :
    (a &&& ~~~c.pageMask).toNat = a.toNat - a.toNat % c.pageSize := by
  have hadd : (a &&& c.pageMask).toNat + (a &&& ~~~c.pageMask).toNat = a.toNat := by
    have hd : (a &&& c.pageMask) &&& (a &&& ~~~c.pageMask) = 0#16 := by
      ext i hi
      simp only [BitVec.getElem_and, BitVec.getElem_not, BitVec.getElem_zero]
      cases a[i] <;> cases c.pageMask[i] <;> rfl
    have hs : (a &&& c.pageMask) + (a &&& ~~~c.pageMask) = a := by
      rw [BitVec.add_eq_or_of_and_eq_zero _ _ hd]
      ext i hi
      simp only [BitVec.getElem_or, BitVec.getElem_and, BitVec.getElem_not]
      cases a[i] <;> cases c.pageMask[i] <;> rfl
    have hlt : (a &&& c.pageMask).toNat + (a &&& ~~~c.pageMask).toNat < 2 ^ 16 := by
      have hn : (a &&& ~~~c.pageMask).toNat ≤ 2 ^ 16 - 1 - c.pageMask.toNat := by
        rw [BitVec.toNat_and, BitVec.toNat_not]; exact Nat.and_le_right
      have hm : (a &&& c.pageMask).toNat ≤ c.pageMask.toNat := by
        rw [BitVec.toNat_and]; exact Nat.and_le_right
      have := c.pageMask.isLt
      omega
    have := congrArg BitVec.toNat hs
    rw [BitVec.toNat_add, Nat.mod_eq_of_lt hlt] at this
    exact this
  have := h.and_pageMask a
  omega

theorem Legal.pageMask_zero_iff (h : c.Legal) (a : Word) : a &&& c.pageMask = 0#16 ↔ a.toNat % c.pageSize = 0 := by
  rw [← h.and_pageMask a]
  exact ⟨fun e => by rw [e]; rfl, fun e => BitVec.eq_of_toNat_eq e⟩

end Config

end Sys2Proof
end

