-- ==== Sys2Proof/Laws/Memory.lean ====
section
/-! SUPPORT. The flash: read after write, and the canonical form that every operation keeps (R62 to R64). -/

namespace Sys2Proof.Machine

open Sys2Proof

/-- Every listed address is below `n`. -/
def Memory.Below (n : Nat) (m : Memory) : Prop := ∀ c ∈ m, c.1 < n

@[simp] theorem Memory.read_nil (a : Nat) : Memory.read a [] = erased := rfl

@[simp] theorem Memory.read_cons (a b : Nat) (v : Byte) (m : Memory) :
    Memory.read a ((b, v) :: m) = if a = b then v else Memory.read a m := rfl

theorem Memory.wfFrom_cons {lo a : Nat} {v : Byte} {m : Memory} :
    Memory.wfFrom lo ((a, v) :: m) = true ↔ lo ≤ a ∧ v ≠ erased ∧ Memory.wfFrom (a + 1) m = true := by
  simp [Memory.wfFrom, and_assoc]

theorem Memory.wfFrom_mono {lo hi : Nat} (h : lo ≤ hi) : ∀ {m : Memory}, Memory.wfFrom hi m = true → Memory.wfFrom lo m = true
  | [], _ => rfl
  | (_, _) :: _, hm => by
    rw [wfFrom_cons] at hm ⊢
    exact ⟨Nat.le_trans h hm.1, hm.2⟩

theorem Memory.read_below {lo a : Nat} (h : a < lo) : ∀ {m : Memory}, Memory.wfFrom lo m = true → Memory.read a m = erased
  | [], _ => rfl
  | (b, v) :: m, hm => by
    rw [wfFrom_cons] at hm
    have hab : a ≠ b := by omega
    simp only [read_cons, if_neg hab]
    exact Memory.read_below (by omega) hm.2.2

/-- Read after write. -/
theorem Memory.read_write (a x : Nat) (v : Byte) : ∀ {lo : Nat} {m : Memory}, Memory.wfFrom lo m = true →
    Memory.read x (Memory.write a v m) = if x = a then v else Memory.read x m
  | _, [], _ => by
    unfold write
    split
    · next h => subst h; simp
    · simp
  | lo, (b, u) :: m, hm => by
    have hm' := wfFrom_cons.1 hm
    unfold write
    split
    · next hab =>
      split
      · next hv =>
        subst hv
        split
        · next hx => subst hx; rw [Memory.read_below (lo := b) hab (wfFrom_cons.2 ⟨Nat.le_refl b, hm'.2⟩)]
        · rfl
      · simp
    · split
      · next hab hv =>
        subst hv
        split
        · next he =>
          subst he
          by_cases hx : x = a
          · subst hx; simp [Memory.read_below (lo := x + 1) (Nat.lt_succ_self x) hm'.2.2]
          · simp [hx]
        · by_cases hx : x = a <;> simp [hx]
      · next hab hne =>
        have ih := Memory.read_write a x v hm'.2.2
        simp only [read_cons, ih]
        by_cases hx : x = b
        · subst hx; simp [Ne.symm hne]
        · simp [hx]

theorem Memory.wfFrom_write (a : Nat) (v : Byte) : ∀ {lo : Nat} {m : Memory}, lo ≤ a → Memory.wfFrom lo m = true →
    Memory.wfFrom lo (Memory.write a v m) = true
  | lo, [], hl, _ => by
    unfold write
    split
    · rfl
    · next h => exact wfFrom_cons.2 ⟨hl, h, rfl⟩
  | lo, (b, u) :: m, hl, hm => by
    have hm' := wfFrom_cons.1 hm
    unfold write
    split
    · next hab =>
      split
      · exact hm
      · next hv => exact wfFrom_cons.2 ⟨hl, hv, wfFrom_cons.2 ⟨hab, hm'.2⟩⟩
    · split
      · next hab hv =>
        subst hv
        split
        · exact wfFrom_mono (by omega) hm'.2.2
        · next he => exact wfFrom_cons.2 ⟨hl, he, hm'.2.2⟩
      · next hab hne =>
        exact wfFrom_cons.2 ⟨hm'.1, hm'.2.1, Memory.wfFrom_write a v (by omega) hm'.2.2⟩

/-- A write keeps the canonical form. -/
theorem Memory.wf_write {m : Memory} (a : Nat) (v : Byte) (h : Memory.wf m = true) :
    Memory.wf (Memory.write a v m) = true := Memory.wfFrom_write a v (Nat.zero_le a) h

theorem Memory.below_write {n a : Nat} {v : Byte} (ha : a < n) : ∀ {m : Memory}, Memory.Below n m →
    Memory.Below n (Memory.write a v m)
  | [], _ => by
    unfold write; split
    · intro c hc; cases hc
    · intro c hc; simp at hc; subst hc; exact ha
  | (b, u) :: m, hm => by
    have hb : b < n := hm (b, u) (by simp)
    have ht : Memory.Below n m := fun c hc => hm c (by simp [hc])
    have ih : Memory.Below n (Memory.write a v m) := Memory.below_write ha ht
    unfold write
    split
    · split
      · exact hm
      · intro c hc
        simp at hc
        rcases hc with rfl | rfl | hc
        · exact ha
        · exact hb
        · exact ht c hc
    · split
      · split
        · exact ht
        · intro c hc
          simp at hc
          rcases hc with rfl | hc
          · exact ha
          · exact ht c hc
      · intro c hc
        simp at hc
        rcases hc with rfl | hc
        · exact hb
        · exact ih c hc

theorem Memory.wfFrom_filter (p : Host.Cell → Bool) : ∀ {lo : Nat} {m : Memory}, Memory.wfFrom lo m = true →
    Memory.wfFrom lo (m.filter p) = true
  | _, [], _ => rfl
  | lo, (a, v) :: m, hm => by
    have hm' := wfFrom_cons.1 hm
    have ih := Memory.wfFrom_filter p hm'.2.2
    rw [List.filter_cons]
    split
    · exact wfFrom_cons.2 ⟨hm'.1, hm'.2.1, ih⟩
    · exact wfFrom_mono (by omega) ih

/-- FlashErasePage keeps the canonical form. -/
theorem Memory.wf_erasePage {m : Memory} (ps p : Nat) (h : Memory.wf m = true) :
    Memory.wf (Memory.erasePage ps p m) = true := Memory.wfFrom_filter _ h

theorem Memory.below_erasePage {n : Nat} {m : Memory} (ps p : Nat) (h : Memory.Below n m) :
    Memory.Below n (Memory.erasePage ps p m) := fun c hc => h c (List.mem_of_mem_filter hc)

/-- FlashErasePage sets the page's bytes to the erased value and leaves every other byte (R63). -/
theorem Memory.read_erasePage (ps p a : Nat) : ∀ (m : Memory),
    Memory.read a (Memory.erasePage ps p m) = if p ≤ a ∧ a < p + ps then erased else Memory.read a m
  | [] => by simp [erasePage]
  | (b, v) :: m => by
    have ih := Memory.read_erasePage ps p a m
    unfold erasePage at ih ⊢
    rw [List.filter_cons]
    by_cases hb : p ≤ b ∧ b < p + ps
    · have hf : (!(decide (p ≤ b) && decide (b < p + ps))) = false := by simp [hb.1, hb.2]
      simp only [hf, Bool.false_eq_true, if_false, ih, read_cons]
      by_cases hab : a = b
      · subst hab; simp [hb]
      · simp [hab]
    · have hf : (!(decide (p ≤ b) && decide (b < p + ps))) = true := by
        simp only [Bool.not_eq_true', Bool.and_eq_false_iff, decide_eq_false_iff_not]
        by_cases h1 : p ≤ b
        · exact .inr fun h2 => hb ⟨h1, h2⟩
        · exact .inl h1
      simp only [hf, if_true, read_cons, ih]
      by_cases hab : a = b
      · subst hab; simp [hb]
      · simp [hab]

/-- FlashProgram keeps the canonical form. -/
theorem Memory.wf_program : ∀ (img : List Byte) (p : Nat) {m : Memory}, Memory.wf m = true →
    Memory.wf (Memory.program p img m) = true
  | [], _, _, h => h
  | _ :: img, p, _, h => Memory.wf_program img (p + 1) (Memory.wf_write p _ h)

theorem Memory.below_program {n : Nat} : ∀ (img : List Byte) (p : Nat) {m : Memory}, p + img.length ≤ n →
    Memory.Below n m → Memory.Below n (Memory.program p img m)
  | [], _, _, _, h => h
  | b :: img, p, m, hp, h => by
    rw [List.length_cons] at hp
    exact Memory.below_program img (p + 1) (by omega) (Memory.below_write (by omega) h)

/-- FlashProgram ANDs the image into the page and leaves every other byte (R62). -/
theorem Memory.read_program (a : Nat) : ∀ (img : List Byte) (p : Nat) {m : Memory}, Memory.wf m = true →
    Memory.read a (Memory.program p img m) =
      if p ≤ a ∧ a < p + img.length then Memory.read a m &&& img.getD (a - p) 0 else Memory.read a m
  | [], p, m, _ => by
    have : ¬(p ≤ a ∧ a < p + 0) := by omega
    simp only [program, List.length_nil, if_neg this]
  | b :: img, p, m, h => by
    have ih := Memory.read_program a img (p + 1) (Memory.wf_write p (Memory.read p m &&& b) h)
    have hrw := Memory.read_write p a (Memory.read p m &&& b) h
    rw [program, ih, hrw]
    by_cases hap : a = p
    · subst hap
      have h1 : ¬(a + 1 ≤ a ∧ a < a + 1 + img.length) := by omega
      have h2 : a ≤ a ∧ a < a + (b :: img).length := by simp
      rw [if_neg h1, if_pos rfl, if_pos h2]
      simp
    · simp only [if_neg hap]
      by_cases hin : p + 1 ≤ a ∧ a < p + 1 + img.length
      · have h2 : p ≤ a ∧ a < p + (b :: img).length := by simp; omega
        rw [if_pos hin, if_pos h2]
        have : a - p = (a - (p + 1)) + 1 := by omega
        rw [this, List.getD_cons_succ]
      · have h2 : ¬(p ≤ a ∧ a < p + (b :: img).length) := by simp; omega
        rw [if_neg hin, if_neg h2]

theorem Memory.wf_erasePages (ps : Nat) : ∀ (n : Nat) {m : Memory}, Memory.wf m = true →
    Memory.wf (Memory.erasePages ps n m) = true
  | 0, _, h => h
  | n + 1, _, h => Memory.wf_erasePages ps n (Memory.wf_erasePage ps _ h)

theorem Memory.below_erasePages {k : Nat} (ps : Nat) : ∀ (n : Nat) {m : Memory}, Memory.Below k m →
    Memory.Below k (Memory.erasePages ps n m)
  | 0, _, h => h
  | n + 1, _, h => Memory.below_erasePages ps n (Memory.below_erasePage ps _ h)

/-- The safety erase's range: every byte of the first `n` pages is erased, every other byte stays (R208). -/
theorem Memory.read_erasePages (ps a : Nat) : ∀ (n : Nat) (m : Memory),
    Memory.read a (Memory.erasePages ps n m) = if a < n * ps then erased else Memory.read a m
  | 0, m => by simp [erasePages]
  | n + 1, m => by
    rw [erasePages, Memory.read_erasePages ps a n, Memory.read_erasePage, Nat.succ_mul]
    by_cases h1 : a < n * ps
    · rw [if_pos h1, if_pos (by omega)]
    · rw [if_neg h1]
      by_cases h2 : a < n * ps + ps
      · rw [if_pos ⟨by omega, h2⟩, if_pos h2]
      · rw [if_neg (by omega), if_neg h2]

end Sys2Proof.Machine
end

