-- ==== Sys2Proof/Laws/Ring.lean ====
section
/-! SUPPORT. The ring buffers are first-in first-out queues of at most CAP bytes (R66 to R68). -/

namespace Sys2Proof.Machine

open Sys2Proof

variable {cap : Nat}

theorem Ring.wf_empty (hc : 0 < cap) {buf : List Byte} (h : buf.length = cap) : (Ring.empty buf).Wf cap := by
  refine ⟨h, hc, hc, Nat.zero_le _, ?_⟩
  simp [Ring.empty, Nat.mod_eq_of_lt hc]

@[simp] theorem Ring.contents_empty (buf : List Byte) : (Ring.empty buf).contents cap = [] := rfl

@[simp] theorem freeBytes_length (k n : Nat) : (freeBytes k n).length = n := by simp [freeBytes]

/-- Pop reads the byte `i` places behind the tail. -/
theorem Ring.popN_eq (hc : IsPow2 cap) : ∀ (n : Nat) (q : Ring), q.tail < cap →
    (q.popN cap n).1 = (List.range n).map fun i => q.buf.getD ((q.tail + i) % cap) 0
  | 0, _, _ => rfl
  | n + 1, q, ht => by
    have hpos := isPow2_pos hc
    have ht' : (q.pop cap).2.tail < cap := by
      simp only [pop, and_pred_eq_mod hc]
      exact Nat.mod_lt _ hpos
    have hpop : (q.pop cap).2.buf = q.buf ∧ (q.pop cap).2.tail = (q.tail + 1) % cap ∧
        (q.pop cap).1 = q.buf.getD q.tail 0 := by
      refine ⟨rfl, ?_, rfl⟩
      simp only [pop, and_pred_eq_mod hc]
    rw [popN, List.range_succ_eq_map, List.map_cons]
    simp only [hpop.2.2]
    rw [Ring.popN_eq hc n _ ht', hpop.1, hpop.2.1]
    simp only [Nat.add_zero, Nat.mod_eq_of_lt ht, List.map_map]
    congr 1
    apply List.map_congr_left
    intro i _
    have : ((q.tail + 1) % cap + i) % cap = (q.tail + (i + 1)) % cap := by
      rw [Nat.mod_add_mod]; congr 1; omega
    simp [this]

theorem Ring.contents_eq (hc : IsPow2 cap) {q : Ring} (h : q.Wf cap) :
    q.contents cap = (List.range q.count).map fun i => q.buf.getD ((q.tail + i) % cap) 0 :=
  Ring.popN_eq hc _ _ h.2.2.1

theorem Ring.contents_length (hc : IsPow2 cap) {q : Ring} (h : q.Wf cap) : (q.contents cap).length = q.count := by
  rw [Ring.contents_eq hc h]; simp

theorem Ring.wf_push (hc : IsPow2 cap) (b : Byte) {q : Ring} (h : q.Wf cap) : (q.push cap b).Wf cap := by
  obtain ⟨hl, hh, ht, hn, he⟩ := h
  unfold push
  split
  · exact ⟨hl, hh, ht, hn, he⟩
  · refine ⟨by simp [hl], ?_, ht, by simp only; omega, ?_⟩
    · simp only [and_pred_eq_mod hc]; exact Nat.mod_lt _ (by omega)
    · simp only [and_pred_eq_mod hc]
      rw [he, Nat.mod_add_mod]; congr 1

/-- Push puts the byte last, or drops it silently when the buffer is full (R66). -/
theorem Ring.contents_push (hc : IsPow2 cap) (b : Byte) {q : Ring} (h : q.Wf cap) :
    (q.push cap b).contents cap = if q.count = cap then q.contents cap else q.contents cap ++ [b] := by
  have hw := Ring.wf_push hc b h
  rw [Ring.contents_eq hc hw, Ring.contents_eq hc h]
  obtain ⟨hl, hh, ht, hn, he⟩ := h
  unfold push
  split
  · rfl
  · next hfull =>
    simp only [List.range_succ, List.map_append, List.map_cons, List.map_nil]
    congr 1
    · apply List.map_congr_left
      intro i hi
      rw [List.mem_range] at hi
      have hne : q.head ≠ (q.tail + i) % cap := by
        rw [he]
        intro e
        have h1 : (q.tail + q.count) % cap = (q.tail + i) % cap := e
        have h2 : (q.count - i) % cap = 0 := by
          have : q.tail + q.count = (q.tail + i) + (q.count - i) := by omega
          rw [this] at h1
          have h3 := Nat.sub_mod_eq_zero_of_mod_eq h1
          rwa [Nat.add_sub_cancel_left] at h3
        have h3 : q.count - i < cap := by omega
        rw [Nat.mod_eq_of_lt h3] at h2
        omega
      simp [List.getD_eq_getElem?_getD, List.getElem?_set_ne hne]
    · rw [← he]
      simp [List.getD_eq_getElem?_getD, hl, hh]

theorem Ring.wf_pushAll (hc : IsPow2 cap) : ∀ (bs : List Byte) {q : Ring}, q.Wf cap → (q.pushAll cap bs).Wf cap
  | [], _, h => h
  | b :: bs, _, h => Ring.wf_pushAll hc bs (Ring.wf_push hc b h)

/-- Push of bytes in order: what does not fit is dropped (R66). -/
theorem Ring.contents_pushAll (hc : IsPow2 cap) : ∀ (bs : List Byte) {q : Ring}, q.Wf cap →
    (q.pushAll cap bs).contents cap = (q.contents cap ++ bs).take cap
  | [], q, h => by
    have := Ring.contents_length hc h
    rw [pushAll, List.append_nil, List.take_of_length_le (by rw [this]; exact h.2.2.2.1)]
  | b :: bs, q, h => by
    have hl := Ring.contents_length hc h
    rw [pushAll, Ring.contents_pushAll hc bs (Ring.wf_push hc b h), Ring.contents_push hc b h]
    split
    · next hf =>
      rw [List.take_append_of_le_length (by omega), List.take_append_of_le_length (by omega)]
    · rw [List.append_assoc]; rfl

theorem Ring.wf_pop (hc : IsPow2 cap) {q : Ring} (h : q.Wf cap) (hn : 0 < q.count) : (q.pop cap).2.Wf cap := by
  obtain ⟨hl, hh, ht, hle, he⟩ := h
  have hpos := isPow2_pos hc
  refine ⟨hl, hh, ?_, by simp only [pop]; omega, ?_⟩
  · simp only [pop, and_pred_eq_mod hc]; exact Nat.mod_lt _ hpos
  · simp only [pop, and_pred_eq_mod hc]
    rw [Nat.mod_add_mod, he]; congr 1; omega

/-- Pop takes the first byte (R67). -/
theorem Ring.contents_pop {q : Ring} (hn : 0 < q.count) :
    q.contents cap = (q.pop cap).1 :: (q.pop cap).2.contents cap := by
  unfold contents
  obtain ⟨n, hn'⟩ : ∃ n, q.count = n + 1 := ⟨q.count - 1, by omega⟩
  have : (q.pop cap).2.count = n := by simp only [pop]; omega
  rw [this, hn', popN]

theorem Ring.wf_popN (hc : IsPow2 cap) : ∀ (n : Nat) {q : Ring}, q.Wf cap → n ≤ q.count → (q.popN cap n).2.Wf cap
  | 0, _, h, _ => h
  | n + 1, q, h, hn => by
    rw [popN]
    exact Ring.wf_popN hc n (Ring.wf_pop hc h (by omega)) (by simp only [pop]; omega)

theorem Ring.popN_count : ∀ (n : Nat) (q : Ring), (q.popN cap n).2.count = q.count - n
  | 0, _ => rfl
  | n + 1, q => by
    rw [popN]
    simp only
    rw [Ring.popN_count n]
    simp only [pop]
    omega

@[simp] theorem Ring.popN_buf : ∀ (n : Nat) (q : Ring), (q.popN cap n).2.buf = q.buf
  | 0, _ => rfl
  | n + 1, q => by rw [popN]; exact Ring.popN_buf n _

/-- RX drained whole is empty (R160). -/
theorem Ring.contents_drained {q : Ring} : ((q.popN cap q.count).2).contents cap = [] := by
  unfold contents
  rw [Ring.popN_count, Nat.sub_self]
  rfl

theorem Ring.contents_eq_nil (hc : IsPow2 cap) {q : Ring} (h : q.Wf cap) : q.contents cap = [] ↔ q.count = 0 := by
  rw [← Ring.contents_length hc h, List.length_eq_zero_iff]

end Sys2Proof.Machine
end

