-- ==== Sys2Proof/Laws/Commands.lean ====
section
/-! SUPPORT. What the commands can change: TX, the flags Init1, Init2, DeleteFlash and ExitToApp, and the page writer's
registers (41_dispatcher.md R160 to R171). -/

namespace Sys2Proof.Machine

open Sys2Proof

/-- `t` differs from `s` in TX, the flags and the page writer's registers only. -/
def OnlyCommand (s t : State) : Prop :=
  ∃ tx flags pa pi lsb msb stage, t = { s with
    tx := tx, flags := flags, pageAddress := pa, pageIndex := pi, appResetLsb := lsb, appResetMsb := msb, stage := stage }

theorem OnlyCommand.trans {s t u : State} (h : OnlyCommand s t) (h' : OnlyCommand t u) : OnlyCommand s u := by
  obtain ⟨_, _, _, _, _, _, _, rfl⟩ := h
  obtain ⟨_, _, _, _, _, _, _, rfl⟩ := h'
  exact ⟨_, _, _, _, _, _, _, rfl⟩

theorem onlyCommand_reply (s : State) (bs : List Byte) : OnlyCommand s (s.reply bs) := ⟨_, _, _, _, _, _, _, rfl⟩

theorem onlyCommand_raise (s : State) (f : Flag) : OnlyCommand s (s.raise f) := ⟨_, _, _, _, _, _, _, rfl⟩

theorem onlyCommand_stageByte (s : State) (b : Byte) : OnlyCommand s (stageByte s b) := by
  unfold stageByte
  simp only
  split
  · exact ⟨_, _, _, _, _, _, _, rfl⟩
  · split <;> exact ⟨_, _, _, _, _, _, _, rfl⟩

theorem onlyCommand_stageBytes : ∀ (d : List Byte) (s : State), OnlyCommand s (stageBytes d s)
  | [], _ => ⟨_, _, _, _, _, _, _, rfl⟩
  | b :: d, s => (onlyCommand_stageByte s b).trans (onlyCommand_stageBytes d (stageByte s b))

theorem onlyCommand_runCommand (i : Instr) (s : State) : OnlyCommand s (runCommand i s) := by
  have refl : OnlyCommand s s := ⟨_, _, _, _, _, _, _, rfl⟩
  cases i with
  | getVersion => exact (onlyCommand_reply s _).trans (onlyCommand_raise _ _)
  | exit => exact (onlyCommand_reply s _).trans (onlyCommand_raise _ _)
  | deleteFlash => exact (onlyCommand_reply s _).trans (onlyCommand_raise _ _)
  | setPageAddr hi lo =>
    simp only [runCommand, setPageAddress]
    split
    · exact ⟨_, _, _, _, _, _, _, rfl⟩
    · exact onlyCommand_reply s _
  | writePage d cs =>
    simp only [runCommand, writePage]
    split
    · split
      · exact (onlyCommand_stageBytes d s).trans (onlyCommand_reply _ _)
      · exact (onlyCommand_stageBytes d s).trans ((onlyCommand_raise _ _).trans (onlyCommand_reply _ _))
    · exact (onlyCommand_raise _ _).trans (onlyCommand_reply _ _)
  | readFlash hi lo len rcs =>
    simp only [runCommand, readFlash]
    split
    · exact onlyCommand_reply s _
    · exact onlyCommand_reply s _
  | softInit =>
    simp only [runCommand, softInit]
    split
    · exact (onlyCommand_reply s _).trans (onlyCommand_raise _ _)
    · exact onlyCommand_reply s _
  | unknown op rest => exact onlyCommand_reply s _
  | addrRead _ | addrWrite _ | addrBroadcast | rjmp _ | entryJump _ | trampoline _ => exact refl

/-! ## Staging (R167) -/

@[simp] theorem stageByte_flags (s : State) (b : Byte) : (stageByte s b).flags = s.flags := by
  unfold stageByte; simp only; split
  · rfl
  · split <;> rfl

@[simp] theorem stageByte_tx (s : State) (b : Byte) : (stageByte s b).tx = s.tx := by
  unfold stageByte; simp only; split
  · rfl
  · split <;> rfl

@[simp] theorem stageByte_cfg (s : State) (b : Byte) : (stageByte s b).cfg = s.cfg := by
  unfold stageByte; simp only; split
  · rfl
  · split <;> rfl

@[simp] theorem stageByte_pageAddress (s : State) (b : Byte) : (stageByte s b).pageAddress = s.pageAddress := by
  unfold stageByte; simp only; split
  · rfl
  · split <;> rfl

@[simp] theorem stageByte_pageIndex (s : State) (b : Byte) : (stageByte s b).pageIndex = s.pageIndex + 1#8 := by
  unfold stageByte; simp only; split
  · rfl
  · split <;> rfl

/-- The byte R167 stages for `b`. -/
def stagedByte (s : State) (b : Byte) : Byte :=
  if stageDest s = 0#16 then loByte (entryJumpWord s.cfg)
  else if stageDest s = 1#16 then hiByte (entryJumpWord s.cfg) else b

theorem stageByte_stage (s : State) (b : Byte) :
    (stageByte s b).stage = s.stage.set s.pageIndex.toNat (stagedByte s b) := by
  unfold stageByte stagedByte; simp only; split
  · rfl
  · split <;> rfl

theorem stageByte_lsb (s : State) (b : Byte) :
    (stageByte s b).appResetLsb = if stageDest s = 0#16 then b else s.appResetLsb := by
  unfold stageByte; simp only; split
  · rfl
  · split <;> rfl

theorem stageByte_msb (s : State) (b : Byte) :
    (stageByte s b).appResetMsb = if stageDest s = 1#16 then b else s.appResetMsb := by
  unfold stageByte; simp only; split
  · next h => rw [if_neg (by rw [h]; decide)]
  · split <;> rfl

@[simp] theorem stageBytes_flags : ∀ (d : List Byte) (s : State), (stageBytes d s).flags = s.flags
  | [], _ => rfl
  | b :: d, s => by rw [stageBytes, stageBytes_flags d, stageByte_flags]

@[simp] theorem stageBytes_tx : ∀ (d : List Byte) (s : State), (stageBytes d s).tx = s.tx
  | [], _ => rfl
  | b :: d, s => by rw [stageBytes, stageBytes_tx d, stageByte_tx]

@[simp] theorem stageBytes_cfg : ∀ (d : List Byte) (s : State), (stageBytes d s).cfg = s.cfg
  | [], _ => rfl
  | b :: d, s => by rw [stageBytes, stageBytes_cfg d, stageByte_cfg]

@[simp] theorem stageBytes_pageAddress : ∀ (d : List Byte) (s : State), (stageBytes d s).pageAddress = s.pageAddress
  | [], _ => rfl
  | b :: d, s => by rw [stageBytes, stageBytes_pageAddress d, stageByte_pageAddress]

theorem stageByte_index {s : State} (b : Byte) (h : s.pageIndex.toNat < 255) :
    (stageByte s b).pageIndex.toNat = s.pageIndex.toNat + 1 := by
  rw [stageByte_pageIndex, BitVec.toNat_add]
  simp
  omega

theorem stageBytes_index : ∀ (d : List Byte) {s : State}, s.pageIndex.toNat + d.length ≤ 255 →
    (stageBytes d s).pageIndex.toNat = s.pageIndex.toNat + d.length
  | [], _, _ => rfl
  | b :: d, s, h => by
    rw [List.length_cons] at h
    have hi := stageByte_index (s := s) b (by omega)
    rw [stageBytes, stageBytes_index d (by omega), hi, List.length_cons]
    omega

@[simp] theorem stageBytes_stage_length : ∀ (d : List Byte) (s : State), (stageBytes d s).stage.length = s.stage.length
  | [], _ => rfl
  | b :: d, s => by rw [stageBytes, stageBytes_stage_length d, stageByte_stage, List.length_set]

/-- A page address leaves room for its page below 65536 (R33, R47). -/
theorem page_room {s : State} (h : s.Inv) : s.pageAddress.toNat + s.cfg.pageSize ≤ 65536 := by
  obtain ⟨a, ha⟩ := Nat.dvd_of_mod_eq_zero ((h.legal.pageMask_zero_iff s.pageAddress).1 h.page_aligned)
  obtain ⟨b, hb⟩ := h.legal.pageSize_dvd_word
  have hlt := s.pageAddress.isLt
  have hab : a + 1 ≤ b := by
    rw [ha, hb] at hlt
    exact Nat.lt_of_mul_lt_mul_left hlt
  have := Nat.mul_le_mul_left s.cfg.pageSize hab
  rw [Nat.mul_succ] at this
  omega

/-- The destination address does not wrap in a page (R167). -/
theorem stageDest_toNat {s : State} (hr : s.pageAddress.toNat + s.cfg.pageSize ≤ 65536)
    (hi : s.pageIndex.toNat < s.cfg.pageSize) : (stageDest s).toNat = s.pageAddress.toNat + s.pageIndex.toNat := by
  have hw : (s.pageIndex.setWidth 16).toNat = s.pageIndex.toNat := by
    rw [BitVec.toNat_setWidth]
    have := s.pageIndex.isLt
    omega
  unfold stageDest
  rw [BitVec.toNat_add, hw, Nat.mod_eq_of_lt (by omega)]

/-- Byte `j` of the staging buffer after the loop of R167, and the captured reset-vector bytes. -/
theorem stageBytes_spec : ∀ (d : List Byte) {s : State}, s.stage.length = s.cfg.pageSize →
    s.pageAddress.toNat + s.cfg.pageSize ≤ 65536 → s.cfg.pageSize ≤ 128 →
    s.pageIndex.toNat + d.length ≤ s.cfg.pageSize →
    (∀ j < s.cfg.pageSize, (stageBytes d s).stage.getD j 0 =
      if s.pageIndex.toNat ≤ j ∧ j < s.pageIndex.toNat + d.length then
        (if s.pageAddress.toNat + j = 0 then loByte (entryJumpWord s.cfg)
          else if s.pageAddress.toNat + j = 1 then hiByte (entryJumpWord s.cfg)
          else d.getD (j - s.pageIndex.toNat) 0)
      else s.stage.getD j 0) ∧
    (stageBytes d s).appResetLsb = (if s.pageAddress.toNat + s.pageIndex.toNat = 0 ∧ 0 < d.length then d.getD 0 0
      else s.appResetLsb) ∧
    (stageBytes d s).appResetMsb = (if s.pageAddress.toNat + s.pageIndex.toNat ≤ 1 ∧
        1 < s.pageAddress.toNat + s.pageIndex.toNat + d.length then
      d.getD (1 - (s.pageAddress.toNat + s.pageIndex.toNat)) 0 else s.appResetMsb)
  | [], s, _, _, _, _ => by
    refine ⟨fun j _ => ?_, ?_, ?_⟩
    · rw [if_neg (by simp only [List.length_nil]; omega)]; rfl
    · rw [if_neg (by simp)]; rfl
    · rw [if_neg (by simp only [List.length_nil]; omega)]; rfl
  | b :: d, s, hl, hr, hps, hf => by
    rw [List.length_cons] at hf
    have hdest := stageDest_toNat hr (by omega)
    have h0 : stageDest s = 0#16 ↔ s.pageAddress.toNat + s.pageIndex.toNat = 0 := by
      rw [← hdest, ← BitVec.toNat_inj]; rfl
    have h1 : stageDest s = 1#16 ↔ s.pageAddress.toNat + s.pageIndex.toNat = 1 := by
      rw [← hdest, ← BitVec.toNat_inj]; rfl
    have hi := stageByte_index (s := s) b (by omega)
    have ih := stageBytes_spec d (s := stageByte s b) (by rw [stageByte_stage, List.length_set, hl, stageByte_cfg])
      (by rw [stageByte_pageAddress, stageByte_cfg]; exact hr) (by rw [stageByte_cfg]; exact hps)
      (by rw [hi, stageByte_cfg]; omega)
    rw [stageByte_cfg, stageByte_pageAddress, hi, stageByte_lsb, stageByte_msb, stageByte_stage] at ih
    obtain ⟨ih1, ih2, ih3⟩ := ih
    rw [stageBytes]
    refine ⟨fun j hj => ?_, ?_, ?_⟩
    · rw [ih1 j hj, List.length_cons]
      by_cases hlt : s.pageIndex.toNat + 1 ≤ j ∧ j < s.pageIndex.toNat + 1 + d.length
      · have hlt' : s.pageIndex.toNat ≤ j ∧ j < s.pageIndex.toNat + (d.length + 1) := by omega
        rw [if_pos hlt, if_pos hlt', show j - s.pageIndex.toNat = (j - (s.pageIndex.toNat + 1)) + 1 by omega,
          List.getD_cons_succ]
      · rw [if_neg hlt]
        by_cases he : j = s.pageIndex.toNat
        · subst he
          have hlt' : s.pageIndex.toNat ≤ s.pageIndex.toNat ∧
              s.pageIndex.toNat < s.pageIndex.toNat + (d.length + 1) := by omega
          rw [if_pos hlt', Nat.sub_self, List.getD_cons_zero, List.getD_eq_getElem?_getD,
            List.getElem?_set_self (by omega), Option.getD_some]
          unfold stagedByte
          simp only [h0, h1]
        · have hlt' : ¬(s.pageIndex.toNat ≤ j ∧ j < s.pageIndex.toNat + (d.length + 1)) := by omega
          rw [if_neg hlt', List.getD_eq_getElem?_getD, List.getElem?_set_ne (Ne.symm he),
            ← List.getD_eq_getElem?_getD]
    · rw [ih2, if_neg (by omega)]
      simp [h0]
    · rw [ih3]
      simp only [h1, List.length_cons]
      by_cases he : s.pageAddress.toNat + s.pageIndex.toNat = 0
      · by_cases hd : 0 < d.length
        · rw [if_pos (by omega), if_pos (by omega)]
          simp [he, show s.pageAddress.toNat + (s.pageIndex.toNat + 1) = 1 by omega]
        · rw [if_neg (by omega), if_neg (by omega), if_neg (by omega)]
      · rw [if_neg (by omega)]
        by_cases he1 : s.pageAddress.toNat + s.pageIndex.toNat = 1
        · rw [if_pos he1, if_pos (by omega), he1]; rfl
        · rw [if_neg he1, if_neg (by omega)]

/-! ## What each command leaves (R161 to R171) -/

/-- A command raises at most one flag, and never SlowOpsReady (R35). -/
theorem runCommand_flags (i : Instr) (s : State) :
    (runCommand i s).flags = s.flags ∨ ∃ f : Flag, f ≠ .slowOpsReady ∧ (runCommand i s).flags = s.flags ||| f.mask := by
  cases i with
  | getVersion => exact .inr ⟨versionFlag s.cfg.handshake, by cases s.cfg.handshake <;> decide, rfl⟩
  | exit => exact .inr ⟨.exitToApp, by decide, rfl⟩
  | deleteFlash => exact .inr ⟨.deleteFlash, by decide, rfl⟩
  | setPageAddr hi lo => left; simp only [runCommand, setPageAddress]; split <;> rfl
  | writePage d cs =>
    simp only [runCommand, writePage]
    split
    · split
      · left; simp
      · right; exact ⟨.deleteFlash, by decide, by simp⟩
    · right; exact ⟨.deleteFlash, by decide, by simp⟩
  | readFlash hi lo len rcs => left; simp only [runCommand, readFlash]; split <;> rfl
  | softInit =>
    simp only [runCommand, softInit]
    split
    · right; exact ⟨.init1, by decide, rfl⟩
    · left; rfl
  | unknown op rest => left; rfl
  | addrRead _ | addrWrite _ | addrBroadcast | rjmp _ | entryJump _ | trampoline _ => left; rfl

theorem raise_bits_high {f : Flag} {x : Byte} (h : x >>> 5 = 0#8) : (x ||| f.mask) >>> 5 = 0#8 := by
  have hf : f.mask >>> 5 = 0#8 := by cases f <;> decide
  rw [BitVec.ushiftRight_or_distrib, h, hf]; rfl

/-- A command keeps the reserved bits zero (R35). -/
theorem runCommand_reserved (i : Instr) {s : State} (h : s.flags >>> 5 = 0#8) : (runCommand i s).flags >>> 5 = 0#8 := by
  obtain he | ⟨f, -, he⟩ := runCommand_flags i s
  · rw [he]; exact h
  · rw [he]; exact raise_bits_high h

/-- No command touches SlowOpsReady (R35). -/
theorem runCommand_slow (i : Instr) (s : State) : (runCommand i s).flag .slowOpsReady = s.flag .slowOpsReady := by
  obtain he | ⟨f, hf, he⟩ := runCommand_flags i s
  · exact State.flag_congr he _
  · have : (runCommand i s).flag .slowOpsReady = (s.raise f).flag .slowOpsReady := State.flag_congr he _
    rw [this, State.flag_raise]
    simp [Ne.symm hf]

/-- A command keeps TX a ring buffer. -/
theorem runCommand_tx_wf (i : Instr) {s : State} (hc : IsPow2 s.cfg.txCap) (h : s.tx.Wf s.cfg.txCap) :
    (runCommand i s).tx.Wf s.cfg.txCap := by
  have hp : ∀ bs, (Ring.pushAll s.cfg.txCap s.tx bs).Wf s.cfg.txCap := fun bs => Ring.wf_pushAll hc bs h
  cases i with
  | getVersion => exact hp _
  | exit => exact hp _
  | deleteFlash => exact hp _
  | setPageAddr hi lo => simp only [runCommand, setPageAddress]; split <;> exact hp _
  | writePage d cs =>
    simp only [runCommand, writePage]
    split
    · split <;> simp only [State.reply_tx, State.raise_cfg, State.raise_tx, stageBytes_cfg, stageBytes_tx] <;> exact hp _
    · exact hp _
  | readFlash hi lo len rcs => simp only [runCommand, readFlash]; split <;> exact hp _
  | softInit => simp only [runCommand, softInit]; split <;> exact hp _
  | unknown op rest => exact hp _
  | addrRead _ | addrWrite _ | addrBroadcast | rjmp _ | entryJump _ | trampoline _ => exact h

/-- A command keeps the page writer's registers in range (R33, R34, R37). -/
theorem runCommand_writer (i : Instr) {s : State} (h : s.Inv) :
    (runCommand i s).pageAddress &&& s.cfg.pageMask = 0#16 ∧ (runCommand i s).pageIndex.toNat ≤ s.cfg.pageSize ∧
      (runCommand i s).stage.length = s.cfg.pageSize := by
  have h0 : s.pageAddress &&& s.cfg.pageMask = 0#16 ∧ s.pageIndex.toNat ≤ s.cfg.pageSize ∧
      s.stage.length = s.cfg.pageSize := ⟨h.page_aligned, h.page_index, h.stage_length⟩
  cases i with
  | setPageAddr hi lo =>
    simp only [runCommand, setPageAddress]
    split
    · refine ⟨?_, h0.2.1, h0.2.2⟩
      simp only [State.reply_pageAddress]
      ext i hi
      simp only [BitVec.getElem_and, BitVec.getElem_not, BitVec.getElem_zero]
      cases (wordOf _ _)[i] <;> cases s.cfg.pageMask[i] <;> rfl
    · exact h0
  | writePage d cs =>
    simp only [runCommand, writePage]
    split
    · next hf =>
      have hf : s.pageIndex.toNat + d.length ≤ s.cfg.pageSize := by simpa [fits] using hf
      have hps := h.legal.pageSize
      have hs : (stageBytes d s).pageAddress &&& s.cfg.pageMask = 0#16 ∧
          (stageBytes d s).pageIndex.toNat ≤ s.cfg.pageSize ∧ (stageBytes d s).stage.length = s.cfg.pageSize := by
        rw [stageBytes_index d (by omega)]
        simp [h0, hf]
      split
      · exact hs
      · exact hs
    · exact h0
  | readFlash hi lo len rcs => simp only [runCommand, readFlash]; split <;> exact h0
  | softInit => simp only [runCommand, softInit]; split <;> exact h0
  | getVersion | exit | deleteFlash | unknown _ _ | addrRead _ | addrWrite _ | addrBroadcast | rjmp _ | entryJump _
  | trampoline _ => exact h0

/-- A command keeps the invariant. -/
theorem inv_runCommand (i : Instr) {s : State} (h : s.Inv) : (runCommand i s).Inv := by
  have hw := runCommand_writer i h
  have htx := runCommand_tx_wf i h.legal.txCap.1 h.tx_wf
  have hr := runCommand_reserved i h.flags_reserved
  have hsl := runCommand_slow i s
  obtain ⟨tx, flags, pa, pi, lsb, msb, stage, he⟩ := onlyCommand_runCommand i s
  rw [he] at hw htx hr hsl ⊢
  exact { h with
    page_aligned := hw.1, page_index := hw.2.1, stage_length := hw.2.2, tx_wf := htx, flags_reserved := hr
    slow_idle := fun hs => h.slow_idle (by rw [← hsl]; exact hs) }

/-- On a command, exec is its run (R160). -/
theorem exec_command {i : Instr} {c : Config} (h : i.standsIn c .frame = true) (s : State) :
    exec i s = .next (runCommand i s) := by
  cases i with
  | getVersion | exit | deleteFlash | setPageAddr _ _ | writePage _ _ | readFlash _ _ _ _ | softInit | unknown _ _ => rfl
  | addrRead _ | addrWrite _ | addrBroadcast | rjmp _ | entryJump _ | trampoline _ => cases h

/-- The bytes of RX are a command, or RX is empty (R160). -/
theorem decodeFrame_cases (c : Config) (bs : List Byte) :
    (bs = [] ∧ decode c .frame bs = .error .empty) ∨
    (∃ i, decode c .frame bs = .ok i ∧ i.standsIn c .frame = true) := by
  cases bs with
  | nil => exact .inl ⟨rfl, rfl⟩
  | cons op rest =>
    right
    simp only [decode, decodeFrame]
    split
    · exact ⟨_, rfl, rfl⟩
    · next k _ =>
      split
      · exact ⟨_, rfl, rfl⟩
      · exact ⟨_, rfl, by cases k <;> rfl⟩

/-! ## Dispatch (R160) -/

/-- Everything a dispatch can do. -/
theorem dispatch_cases (s : State) :
    (s.frame = [] ∧ dispatch s = s.flushTx) ∨
    (∃ i, decode s.cfg .frame s.frame = .ok i ∧ i.standsIn s.cfg .frame = true ∧
      dispatch s = runCommand i s.flushTx.drainRx) := by
  unfold dispatch
  obtain ⟨hn, he⟩ | ⟨i, he, hi⟩ := decodeFrame_cases s.cfg s.frame
  · left; rw [he]; exact ⟨hn, rfl⟩
  · right; rw [he]; exact ⟨i, rfl, hi, rfl⟩

theorem flushTx_wf {s : State} (h : IsPow2 s.cfg.txCap) : s.flushTx.tx.Wf s.cfg.txCap := by
  rw [State.flushTx_tx]
  exact Ring.wf_empty (isPow2_pos h) (freeBytes_length _ _)

theorem inv_flushTx {s : State} (h : s.Inv) : s.flushTx.Inv :=
  { h with tx_wf := flushTx_wf h.legal.txCap.1 }

theorem inv_drainRx {s : State} (h : s.Inv) : s.drainRx.Inv :=
  { h with rx_wf := Ring.wf_popN h.legal.rxCap.1 _ h.rx_wf (Nat.le_refl _) }

theorem inv_dispatch {s : State} (h : s.Inv) : (dispatch s).Inv := by
  obtain ⟨-, he⟩ | ⟨i, -, -, he⟩ := dispatch_cases s
  · rw [he]; exact inv_flushTx h
  · rw [he]; exact inv_runCommand i (inv_drainRx (inv_flushTx h))

/-- A dispatch changes TX, RX, the flags, the page writer's registers and the draws, and nothing else. -/
theorem dispatch_only (s : State) : ∃ rx tx flags pa pi lsb msb stage draws, dispatch s = { s with
    rx := rx, tx := tx, flags := flags, pageAddress := pa, pageIndex := pi, appResetLsb := lsb, appResetMsb := msb
    stage := stage, draws := draws } := by
  obtain ⟨-, he⟩ | ⟨i, -, -, he⟩ := dispatch_cases s
  · rw [he]; exact ⟨s.rx, _, _, _, _, _, _, _, _, rfl⟩
  · obtain ⟨_, _, _, _, _, _, _, h⟩ := onlyCommand_runCommand i s.flushTx.drainRx
    rw [he, h]; exact ⟨_, _, _, _, _, _, _, _, _, rfl⟩

theorem dispatch_slow (s : State) : (dispatch s).flag .slowOpsReady = s.flag .slowOpsReady := by
  obtain ⟨-, he⟩ | ⟨i, -, -, he⟩ := dispatch_cases s
  · rw [he]; rfl
  · rw [he, runCommand_slow]; rfl

end Sys2Proof.Machine
end

