-- ==== Sys2Proof/Laws/Transport.lean ====
section
/-! SUPPORT. The transport's handlers: everything each can do, and that they keep the invariant (40_transport.md). -/

namespace Sys2Proof.Machine

open Sys2Proof

/-- A byte is the address bits above its direction bit (R90). -/
theorem addr_split (a : Byte) : a = a.extractLsb' 1 7 ++ (if a.getLsbD 0 then 1#1 else 0#1) := by
  revert a; decide

/-- CheckAddress by the rule's conditions (R91, R123 to R125). -/
theorem checkAddress_eq (s : State) : checkAddress s =
    if isRead s.cfg s.periph.dr = true then readArm s
    else if isWrite s.cfg s.periph.dr = true then writeArm s else foreignArm s := by
  unfold checkAddress decodeAddress isRead isWrite matchesAddr addrRead addrWrite addrBroadcast
  generalize hd : s.periph.dr = a
  have hz : a.getLsbD 0 = true → (a == 0x00#8) = false := by
    intro h; apply beq_false_of_ne; rintro rfl; simp at h
  by_cases h0 : a.getLsbD 0 = true
  · by_cases ho : a.extractLsb' 1 7 = s.cfg.ownAddr
    · simp [h0, ho]
    · simp [h0, ho, hz h0]
  · have h0' : a[0] = false := by simpa using h0
    by_cases hb : a = 0x00#8
    · simp [hb]
    · by_cases ho : a.extractLsb' 1 7 = s.cfg.ownAddr
      · simp [h0', ho, hb]
      · simp [h0', ho, hb]

/-- Everything the overflow handler can do: the rows of the transition table R140. -/
theorem overflowHandler_cases (s : State) :
    (s.phase = .checkAddress ∧ isRead s.cfg s.periph.dr = true ∧ overflowHandler s = readArm s) ∨
    (s.phase = .checkAddress ∧ isWrite s.cfg s.periph.dr = true ∧ overflowHandler s = writeArm s) ∨
    (s.phase = .checkAddress ∧ matchesAddr s.cfg s.periph.dr = false ∧ overflowHandler s = foreignArm s) ∨
    ((s.phase = .sendData ∨ s.phase = .checkAck ∧ s.periph.dr.getLsbD 0 = false) ∧ 0 < s.tx.count ∧
      overflowHandler s = (s.sendNext.withPhase .waitAckAfterSend).clearOvf) ∨
    ((s.phase = .sendData ∨ s.phase = .checkAck ∧ s.periph.dr.getLsbD 0 = false) ∧ s.tx.count = 0 ∧
      overflowHandler s = s.rearm.clearOvf) ∨
    (s.phase = .waitAckAfterSend ∧ overflowHandler s = (s.readAck.withPhase .checkAck).clearOvf) ∨
    (s.phase = .checkAck ∧ s.periph.dr.getLsbD 0 = true ∧
      overflowHandler s = (s.rearm.raise .slowOpsReady).clearOvf) ∨
    (s.phase = .waitReceive ∧ overflowHandler s = (s.receiveByte.withPhase .receiveAndAck).clearOvf) ∨
    (s.phase = .receiveAndAck ∧
      overflowHandler s = ((s.receive s.periph.dr).sendAck.withPhase .waitReceive).clearOvf) := by
  have send : ∀ h : s.phase = .sendData ∨ s.phase = .checkAck ∧ s.periph.dr.getLsbD 0 = false,
      sendDataAction s = (s.sendNext.withPhase .waitAckAfterSend).clearOvf ∧ 0 < s.tx.count ∨
      sendDataAction s = s.rearm.clearOvf ∧ s.tx.count = 0 := by
    intro _
    unfold sendDataAction
    split
    · next h => exact .inl ⟨rfl, h⟩
    · next h => exact .inr ⟨rfl, by omega⟩
  cases hp : s.phase with
  | checkAddress =>
    have he : overflowHandler s = checkAddress s := by simp [overflowHandler, hp]
    rw [checkAddress_eq] at he
    by_cases hr : isRead s.cfg s.periph.dr = true
    · rw [if_pos hr] at he; exact .inl ⟨rfl, hr, he⟩
    · rw [if_neg hr] at he
      by_cases hw : isWrite s.cfg s.periph.dr = true
      · rw [if_pos hw] at he; exact .inr (.inl ⟨rfl, hw, he⟩)
      · rw [if_neg hw] at he
        refine .inr (.inr (.inl ⟨rfl, ?_, he⟩))
        unfold isRead at hr
        unfold isWrite at hw
        cases hm : matchesAddr s.cfg s.periph.dr
        · rfl
        · rw [hm, Bool.true_and] at hr hw
          cases hb : s.periph.dr.getLsbD 0
          · rw [hb] at hw; exact absurd rfl hw
          · exact absurd hb hr
  | sendData =>
    have he : overflowHandler s = sendDataAction s := by simp [overflowHandler, hp]
    rw [he]
    rcases send (.inl hp) with ⟨h1, h2⟩ | ⟨h1, h2⟩
    · exact .inr (.inr (.inr (.inl ⟨.inl rfl, h2, h1⟩)))
    · exact .inr (.inr (.inr (.inr (.inl ⟨.inl rfl, h2, h1⟩))))
  | checkAck =>
    have he : overflowHandler s = checkAck s := by simp [overflowHandler, hp]
    rw [he]
    unfold checkAck
    by_cases hb : s.periph.dr.getLsbD 0 = true
    · rw [if_pos hb]; exact .inr (.inr (.inr (.inr (.inr (.inr (.inl ⟨rfl, hb, rfl⟩))))))
    · have hb' : s.periph.dr.getLsbD 0 = false := by simpa using hb
      rw [if_neg hb]
      rcases send (.inr ⟨hp, hb'⟩) with ⟨h1, h2⟩ | ⟨h1, h2⟩
      · exact .inr (.inr (.inr (.inl ⟨.inr ⟨rfl, hb'⟩, h2, h1⟩)))
      · exact .inr (.inr (.inr (.inr (.inl ⟨.inr ⟨rfl, hb'⟩, h2, h1⟩))))
  | waitAckAfterSend =>
    exact .inr (.inr (.inr (.inr (.inr (.inl ⟨rfl, by simp [overflowHandler, hp, waitAckAfterSend]⟩)))))
  | waitReceive =>
    exact .inr (.inr (.inr (.inr (.inr (.inr (.inr (.inl ⟨rfl, by simp [overflowHandler, hp, waitReceive]⟩)))))))
  | receiveAndAck =>
    exact .inr (.inr (.inr (.inr (.inr (.inr (.inr (.inr ⟨rfl, by simp [overflowHandler, hp, receiveAndAck]⟩)))))))

/-- A frame that a dispatch runs is decoded from RX and no other buffer (R160). -/
theorem dispatch_frame (s : State) : (dispatch s).frame = [] := by
  obtain ⟨hn, he⟩ | ⟨i, -, -, he⟩ := dispatch_cases s
  · rw [he]; exact hn
  · obtain ⟨_, _, _, _, _, _, _, h⟩ := onlyCommand_runCommand i s.flushTx.drainRx
    rw [he, h]
    exact Ring.contents_drained

/-! ## The invariant -/

/-- What an armed transport with its flag cleared must still show. -/
theorem inv_armed {s t : State} (h : s.Inv) (hs : t.flag .slowOpsReady = false) (ha : t.armed = true)
    (hw : t = { s with
      phase := t.phase, armed := t.armed, sdaDrive := t.sdaDrive, bitCount := t.bitCount, periph := t.periph })
    (hn : t.periph.shifted = 0) : t.Inv := by
  rw [hw] at hs ha hn ⊢
  exact { h with
    slow_idle := fun hf => by rw [hs] at hf; cases hf
    unarmed := fun hf => by rw [ha] at hf; cases hf
    bits_counted := fun _ => by
      simp only at hn ⊢
      rw [hn]
      cases t.bitCount <;> decide }

theorem inv_rearm_clearOvf {s : State} (h : s.Inv) : s.rearm.clearOvf.Inv :=
  { h with
    slow_idle := fun _ => rfl
    unarmed := fun _ => ⟨rfl, rfl, rfl⟩
    bits_counted := fun _ => by show 0 < 8; decide }

theorem inv_raise {f : Flag} {s : State} (h : s.Inv) (hs : f = .slowOpsReady → idle s = true) : (s.raise f).Inv :=
  { h with
    flags_reserved := raise_bits_high h.flags_reserved
    slow_idle := fun hf => by
      rw [State.flag_raise, Bool.or_eq_true, decide_eq_true_iff] at hf
      rcases hf with hf | hf
      · exact h.slow_idle hf
      · exact hs hf.symm }

/-- The overflow handler keeps the invariant (R120). -/
theorem inv_overflowHandler {s : State} (h : s.Inv) (ha : s.armed = true) (hs : s.flag .slowOpsReady = false) :
    (overflowHandler s).Inv := by
  obtain ⟨-, -, he⟩ | ⟨-, -, he⟩ | ⟨-, -, he⟩ | ⟨-, hn, he⟩ | ⟨-, -, he⟩ | ⟨-, he⟩ | ⟨-, -, he⟩ | ⟨-, he⟩ | ⟨-, he⟩ :=
    overflowHandler_cases s
  · rw [he]
    have hd : (dispatch s).armed = true := by
      obtain ⟨_, _, _, _, _, _, _, _, _, hd⟩ := dispatch_only s; rw [hd]; exact ha
    exact inv_armed (s := dispatch s) (inv_dispatch h) ((dispatch_slow s).trans hs) hd rfl rfl
  · rw [he]; exact inv_armed h hs ha rfl rfl
  · rw [he]; exact inv_rearm_clearOvf h
  · rw [he]
    have hp : ({ s with tx := (s.tx.pop s.cfg.txCap).2 } : State).Inv :=
      { h with tx_wf := Ring.wf_pop h.legal.txCap.1 h.tx_wf hn }
    exact inv_armed hp hs ha rfl rfl
  · rw [he]; exact inv_rearm_clearOvf h
  · rw [he]; exact inv_armed h hs ha rfl rfl
  · rw [he]; exact inv_raise (inv_rearm_clearOvf h) fun _ => rfl
  · rw [he]; exact inv_armed h hs ha rfl rfl
  · rw [he]
    have hp : (s.receive s.periph.dr).Inv := { h with rx_wf := Ring.wf_push h.legal.rxCap.1 _ h.rx_wf }
    exact inv_armed hp hs ha rfl rfl

theorem inv_clearOvf {s : State} (h : s.Inv) : s.clearOvf.Inv :=
  { h with bits_counted := fun _ => by show 0 < s.bitCount.toNat; cases s.bitCount <;> decide }

theorem inv_lower {s : State} (f : Flag) (h : s.Inv) : (s.lower f).Inv :=
  { h with
    flags_reserved := by
      rw [State.lower_flags, BitVec.ushiftRight_and_distrib, h.flags_reserved]
      exact BitVec.zero_and
    slow_idle := fun hf => h.slow_idle (by
      rw [State.flag_lower, Bool.and_eq_true] at hf; exact hf.1) }

theorem inv_enterStart {s : State} (h : s.Inv) (hs : s.flag .slowOpsReady = false) : s.enterStart.Inv :=
  { h with
    slow_idle := fun hf => by rw [show s.enterStart.flag .slowOpsReady = _ from hs] at hf; cases hf
    unarmed := fun hf => ⟨rfl, rfl, (h.unarmed hf).2.2⟩ }

/-- The two outcomes of the start handler (R122). -/
theorem startHandler_cases (s : State) :
    (s.periph.scl = false ∧ startHandler s = { s with
      phase := .checkAddress, armed := true, sdaDrive := false, bitCount := .eight
      periph := { s.periph with startFlag := false, stopFlag := false, ovfFlag := false, shifted := 0 } }) ∨
    (s.periph.scl = true ∧ startHandler s = { s with
      phase := .checkAddress, armed := false, sdaDrive := false, bitCount := .eight
      periph := { s.periph with startFlag := false, stopFlag := false, ovfFlag := false, shifted := 0 } }) := by
  unfold startHandler
  cases hc : s.periph.scl
  · left; simp [State.enterStart, State.clearOvf]
  · right; simp [State.enterStart, State.clearOvf, State.rearm]

theorem inv_startHandler {s : State} (h : s.Inv) (hs : s.flag .slowOpsReady = false) : (startHandler s).Inv := by
  obtain ⟨-, he⟩ | ⟨-, he⟩ := startHandler_cases s
  · rw [he]
    exact { h with
      slow_idle := fun hf => nomatch hs.symm.trans (show s.flag .slowOpsReady = true from hf)
      unarmed := fun hf => nomatch hf
      bits_counted := fun _ => by show 0 < 8; decide }
  · rw [he]
    exact { h with
      slow_idle := fun _ => rfl
      unarmed := fun _ => ⟨rfl, rfl, rfl⟩
      bits_counted := fun _ => by show 0 < 8; decide }

end Sys2Proof.Machine
end

