-- ==== Sys2Proof/Laws/PageWriter.lean ====
section
/-! SUPPORT. The page writer and the reset: what they leave in flash, and that they keep the invariant (42_page_writer.md,
70_reset_and_hazards.md). -/

namespace Sys2Proof.Machine

open Sys2Proof

/-! ## The trampoline word (R203) -/

theorem wordBytes_word (x : Word) : wordOf (hiByte x) (loByte x) = x := by
  apply BitVec.eq_of_getLsbD_eq
  intro i hi
  unfold wordOf hiByte loByte
  rw [BitVec.getLsbD_append]
  split
  · next h => rw [BitVec.getLsbD_extractLsb']; simp [h]
  · next h =>
    rw [BitVec.getLsbD_extractLsb', show 8 + (i - 8) = i by omega, decide_eq_true (by omega : i - 8 < 8), Bool.true_and]

theorem wordOf_toNat (hi lo : Byte) : (wordOf hi lo).toNat = hi.toNat * 256 + lo.toNat := by
  unfold wordOf
  rw [BitVec.toNat_append, Nat.shiftLeft_eq, Nat.mul_comm, ← Nat.two_pow_add_eq_or_of_lt lo.isLt, Nat.mul_comm]

theorem loByte_toNat (x : Word) : (loByte x).toNat = x.toNat % 256 := by
  unfold loByte; rw [BitVec.extractLsb'_toNat]; simp

theorem hiByte_toNat (x : Word) : (hiByte x).toNat = x.toNat / 256 := by
  unfold hiByte
  rw [BitVec.extractLsb'_toNat, Nat.shiftRight_eq_div_pow]
  have := x.isLt
  omega

theorem jumpWord_toNat (k : BitVec 12) : (jumpWord k).toNat = 0xC000 + k.toNat := by
  unfold jumpWord
  rw [BitVec.toNat_append, Nat.shiftLeft_eq, Nat.mul_comm, ← Nat.two_pow_add_eq_or_of_lt k.isLt]
  rfl

/-- The trampoline word as a jump word (R203, the equivalent form). -/
theorem tramp_eq (c : Config) (lsb msb : Byte) : tramp c lsb msb =
    jumpWord (BitVec.ofInt 12 (((wordOf msb lsb).toNat + 1) % 4096 - c.bWord)) := by
  apply BitVec.eq_of_toNat_eq
  rw [jumpWord_toNat]
  unfold tramp jumpOpcodeBase
  simp only
  generalize (wordOf msb lsb).toNat = n
  rw [BitVec.toNat_ofNat, BitVec.toNat_ofInt]
  have hlt : (-((c.bWord : Int) - ((n + 1) % 4096 : Nat)) % 4096).toNat < 2 ^ 12 := by omega
  have := Nat.two_pow_add_eq_or_of_lt hlt 12
  rw [show (0xC000 : Nat) = 2 ^ 12 * 12 from rfl, Nat.or_comm, ← this]
  push_cast
  omega

/-! ## The commit (R202 to R207) -/

@[simp] theorem trampImage_length (s : State) (h : 2 ≤ s.cfg.pageSize) : (trampImage s).length = s.cfg.pageSize := by
  simp [trampImage, wordBytes]; omega

@[simp] theorem commitImage_length (s : State) : (commitImage s).length = s.stage.length := by
  unfold commitImage slotImage; split <;> simp

theorem slotCheck_only (s : State) : ∃ flags, slotCheck s = { s with flags := flags } := by
  unfold slotCheck; split
  · exact ⟨_, rfl⟩
  · exact ⟨s.flags, rfl⟩

theorem slotCheck_flags (s : State) : (slotCheck s).flags = s.flags ∨ (slotCheck s).flags = (s.raise .deleteFlash).flags := by
  unfold slotCheck; split
  · exact .inr rfl
  · exact .inl rfl

/-- The flash a commit leaves (R202, R204). -/
def committedFlash (s : State) : Memory :=
  if s.pageAddress = 0#16 then
    Memory.program s.cfg.trampPage (trampImage s) (Memory.erasePage s.cfg.pageSize s.cfg.trampPage (programPage s))
  else programPage s

/-- Everything a commit does. -/
theorem commitPage_eq (s : State) : commitPage s = { s with
    flags := (slotCheck s).flags
    flash := committedFlash s
    pageIndex := 0#8
    pageAddress := if s.cfg.autoPageAddr then s.pageAddress + BitVec.ofNat 16 s.cfg.pageSize else s.pageAddress } := by
  obtain ⟨flags, hf⟩ := slotCheck_only s
  have hfl : (slotCheck s).flags = flags := by rw [hf]
  unfold commitPage committedFlash
  simp only
  split
  · rw [hfl, hf]; rfl
  · rw [hfl, hf]; rfl

theorem wf_programPage {s : State} (h : s.Inv) : Memory.wf (programPage s) = true := by
  unfold programPage
  apply Memory.wf_program
  split
  · exact Memory.wf_erasePage _ _ h.flash_wf
  · exact h.flash_wf

theorem wf_committedFlash {s : State} (h : s.Inv) : Memory.wf (committedFlash s) = true := by
  unfold committedFlash
  split
  · exact Memory.wf_program _ _ (Memory.wf_erasePage _ _ (wf_programPage h))
  · exact wf_programPage h

theorem ready_iff (s : State) :
    ready s = true ↔ s.pageIndex.toNat = s.cfg.pageSize ∧ s.pageAddress.toNat < s.cfg.appLimit := by
  simp [ready]

/-- A page that is ready lies below the bootloader (R61, R200). -/
theorem page_below {s : State} (h : s.Inv) (hr : s.pageAddress.toNat < s.cfg.appLimit) :
    s.pageAddress.toNat + s.cfg.pageSize ≤ s.cfg.bootStart :=
  Nat.le_trans (h.legal.page_fits ((h.legal.pageMask_zero_iff _).1 h.page_aligned) hr) h.legal.appLimit_le

theorem below_committedFlash {s : State} (h : s.Inv) (hr : s.pageAddress.toNat < s.cfg.appLimit) :
    Memory.Below s.cfg.flashBytes (committedFlash s) := by
  have hb := page_below h hr
  have hl := h.legal.bootStart
  have hp : Memory.Below s.cfg.flashBytes (programPage s) := by
    unfold programPage
    apply Memory.below_program
    · rw [commitImage_length, h.stage_length]; omega
    · split
      · exact Memory.below_erasePage _ _ h.flash_below
      · exact h.flash_below
  unfold committedFlash
  split
  · apply Memory.below_program _ _ _ (Memory.below_erasePage _ _ hp)
    rw [trampImage_length s h.legal.pageSize.2.1]
    unfold Config.trampPage
    omega
  · exact hp

/-- One byte of the page a commit programs, and of every other (R202). -/
theorem read_programPage {s : State} (h : s.Inv) (a : Nat) : Memory.read a (programPage s) =
    if s.pageAddress.toNat ≤ a ∧ a < s.pageAddress.toNat + s.cfg.pageSize then
      (if s.cfg.eraseBeforeWrite = true then erased else Memory.read a s.flash) &&&
        (commitImage s).getD (a - s.pageAddress.toNat) 0
    else Memory.read a s.flash := by
  unfold programPage
  simp only
  split
  · rw [Memory.read_program _ _ _ (Memory.wf_erasePage _ _ h.flash_wf), commitImage_length, h.stage_length,
      Memory.read_erasePage]
    split <;> rfl
  · rw [Memory.read_program _ _ _ h.flash_wf, commitImage_length, h.stage_length]

/-- One byte of the trampoline page after the install (R204). -/
theorem trampImage_getD (s : State) (h : 2 ≤ s.cfg.pageSize) {i : Nat} (hi : i < s.cfg.pageSize) :
    (trampImage s).getD i 0 =
      if i = s.cfg.pageSize - 2 then loByte (trampWordOf s)
      else if i = s.cfg.pageSize - 1 then hiByte (trampWordOf s) else erased := by
  unfold trampImage wordBytes
  rw [List.getD_eq_getElem?_getD]
  by_cases h1 : i < s.cfg.pageSize - 2
  · rw [List.getElem?_append_left (by simpa using h1), List.getElem?_replicate, if_pos h1, if_neg (by omega),
      if_neg (by omega)]; rfl
  · rw [List.getElem?_append_right (by simpa using Nat.not_lt.1 h1), List.length_replicate]
    by_cases h2 : i = s.cfg.pageSize - 2
    · rw [if_pos h2, h2, Nat.sub_self]; rfl
    · have : i = s.cfg.pageSize - 1 := by omega
      rw [if_neg h2, if_pos this, show i - (s.cfg.pageSize - 2) = 1 by omega]; rfl

/-- One byte after a commit (R202, R204). -/
theorem read_committedFlash {s : State} (h : s.Inv) (a : Nat) : Memory.read a (committedFlash s) =
    if s.pageAddress = 0#16 ∧ s.cfg.trampPage ≤ a ∧ a < s.cfg.bootStart then
      (if a = s.cfg.trampSlot then loByte (trampWordOf s)
        else if a = s.cfg.trampSlot + 1 then hiByte (trampWordOf s) else erased)
    else Memory.read a (programPage s) := by
  have hps := h.legal.pageSize.2.1
  have hb := h.legal.bootStart
  unfold committedFlash
  by_cases hp : s.pageAddress = 0#16
  · rw [if_pos hp, Memory.read_program _ _ _ (Memory.wf_erasePage _ _ (wf_programPage h)), trampImage_length s hps,
      Memory.read_erasePage]
    have he : s.cfg.trampPage + s.cfg.pageSize = s.cfg.bootStart := by unfold Config.trampPage; omega
    rw [he]
    by_cases hin : s.cfg.trampPage ≤ a ∧ a < s.cfg.bootStart
    · rw [if_pos hin, if_pos hin, if_pos ⟨hp, hin⟩, trampImage_getD s hps (by omega)]
      have h1 : (a - s.cfg.trampPage = s.cfg.pageSize - 2) = (a = s.cfg.trampSlot) := by
        unfold Config.trampSlot; apply propext; omega
      have h2 : (a - s.cfg.trampPage = s.cfg.pageSize - 1) = (a = s.cfg.trampSlot + 1) := by
        unfold Config.trampSlot; apply propext; omega
      simp only [h1, h2]
      unfold erased
      rw [show (0xFF#8) = BitVec.allOnes 8 from rfl, BitVec.allOnes_and]
    · rw [if_neg hin, if_neg hin, if_neg (fun hc => hin hc.2)]
  · rw [if_neg hp, if_neg (fun hc => hp hc.1)]

/-- A commit keeps the invariant (R47). -/
theorem inv_commitPage {s : State} (h : s.Inv) (hr : ready s = true) : (commitPage s).Inv := by
  have hlim := ((ready_iff s).1 hr).2
  have hmod := (h.legal.pageMask_zero_iff _).1 h.page_aligned
  have hle := h.legal.appLimit_le
  have hb := h.legal.bootStart
  have hf := h.legal.flashBytes.2
  have hps := h.legal.pageSize.2
  have hflags : (slotCheck s).flags >>> 5 = 0#8 ∧
      ((slotCheck s).flags.getLsbD 4 = true → s.flags.getLsbD 4 = true) := by
    rcases slotCheck_flags s with he | he
    · rw [he]; exact ⟨h.flags_reserved, id⟩
    · rw [he]
      refine ⟨raise_bits_high h.flags_reserved, fun hs => ?_⟩
      rw [State.raise_bit] at hs
      simpa [Flag.pos] using hs
  rw [commitPage_eq]
  exact { h with
    flash_wf := wf_committedFlash h
    flash_below := below_committedFlash h hlim
    page_aligned := by
      split
      · have hn : (s.pageAddress + BitVec.ofNat 16 s.cfg.pageSize).toNat = s.pageAddress.toNat + s.cfg.pageSize := by
          rw [BitVec.toNat_add, BitVec.toNat_ofNat]; omega
        rw [h.legal.pageMask_zero_iff, hn, Nat.add_mod_right]
        exact hmod
      · exact h.page_aligned
    page_index := Nat.zero_le _
    flags_reserved := hflags.1
    slow_idle := fun hs => h.slow_idle (hflags.2 hs) }

/-! ## The reset and the safety erase (R208, R209, R290) -/

/-- A reset state meets the invariant where its flash does (R49). -/
theorem inv_boot {s : State} (h : s.cfg.Legal) (hw : Memory.wf s.flash = true)
    (hb : ∀ c ∈ s.flash, c.1 < s.cfg.flashBytes) : s.boot.Inv where
  legal := h
  flash_wf := hw
  flash_below := hb
  page_aligned := by rw [State.boot_pageAddress]; exact BitVec.zero_and
  page_index := Nat.zero_le _
  stage_length := freeBytes_length _ _
  rx_wf := Ring.wf_empty (isPow2_pos h.rxCap.1) (freeBytes_length _ _)
  tx_wf := Ring.wf_empty (isPow2_pos h.txCap.1) (freeBytes_length _ _)
  flags_reserved := by rw [State.boot_flags]; rfl
  slow_idle := fun _ => rfl
  unarmed := fun _ => ⟨rfl, rfl, rfl⟩
  interrupts_off := rfl
  launch_target := fun w hw => nomatch hw
  bits_counted := fun _ => by show 0 < 8; decide

theorem read_eraseApplication {s : State} (h : s.cfg.Legal) (a : Nat) :
    Memory.read a (eraseApplication s).flash = if a < s.cfg.bootStart then 0xFF#8 else Memory.read a s.flash := by
  have he : s.cfg.bootStart / s.cfg.pageSize * s.cfg.pageSize = s.cfg.bootStart := by
    rw [Nat.mul_comm]; exact h.bootStart_eq.symm
  unfold eraseApplication
  rw [State.withFlash_flash, Memory.read_erasePages, he]
  rfl

theorem inv_eraseApplication {s : State} (h : s.Inv) : (eraseApplication s).Inv :=
  { h with
    flash_wf := Memory.wf_erasePages _ _ h.flash_wf
    flash_below := Memory.below_erasePages _ _ h.flash_below }

/-- The safety erase keeps the invariant. -/
theorem inv_deleteAll {s : State} (h : s.Inv) : (deleteAll s).Inv := by
  have he := inv_eraseApplication h
  unfold deleteAll restart
  split
  · exact inv_boot he.legal he.flash_wf he.flash_below
  · exact { he with }

end Sys2Proof.Machine
end

