-- ==== Sys2Proof/Laws/Decode.lean ====
section
/-! SUPPORT. What the decoder's parts do: the command of an opcode, a frame that is long enough, a jump word. -/

namespace Sys2Proof.Machine

open Sys2Proof

/-- The opcodes of a legal build are pairwise distinct (R9). -/
theorem opcode_inj {c : Config} (h : c.Legal) : ∀ k k' : Command, c.opcode k = c.opcode k' → k = k' := by
  have hn := h.opcodes
  unfold Config.opcodes Config.commands at hn
  simp only [List.map_cons, List.map_nil, List.nodup_cons, List.mem_cons, List.not_mem_nil, not_or, or_false,
    Config.opcode] at hn
  intro k k' he
  cases k <;> cases k' <;> first | rfl | (simp only [Config.opcode] at he; simp_all)

theorem commandOf_eq_some {c : Config} (h : c.Legal) (op : Byte) (k : Command) :
    c.commandOf op = some k ↔ c.present k = true ∧ c.opcode k = op := by
  unfold Config.commandOf
  constructor
  · intro hf
    simpa using List.find?_some hf
  · rintro ⟨hp, rfl⟩
    rw [List.find?_eq_some_iff_append]
    cases hfind : Config.commands.find? (fun k' => c.present k' && c.opcode k' == c.opcode k) with
    | none =>
      rw [List.find?_eq_none] at hfind
      have := hfind k (by cases k <;> decide)
      simp [hp] at this
    | some k' =>
      have h2 := List.find?_some hfind
      simp only [Bool.and_eq_true, beq_iff_eq] at h2
      have := opcode_inj h _ _ h2.2
      subst this
      exact List.find?_eq_some_iff_append.1 hfind

theorem commandOf_eq_none {c : Config} (op : Byte) :
    c.commandOf op = none ↔ ∀ k, c.present k = true → c.opcode k ≠ op := by
  unfold Config.commandOf
  rw [List.find?_eq_none]
  constructor
  · intro h k hp ho
    have := h k (by cases k <;> decide)
    simp [hp, ho] at this
  · intro h k _
    simp only [Bool.and_eq_true, beq_iff_eq, not_and]
    exact h k

/-- A frame that is long enough for its command. -/
theorem decodeFrame_of {c : Config} {op : Byte} {k : Command} (h : c.commandOf op = some k) {rest : List Byte}
    (hl : c.frameLength k ≤ rest.length + 1) : decodeFrame c (op :: rest) = .ok (decodeOperands c k rest) := by
  unfold decodeFrame; simp only [h]; rw [if_neg (by omega)]

/-- A jump word decodes by its place alone, with its displacement. -/
theorem decodeJump_jumpWord (k : BitVec 12) (c : Config) (w : WordAddr) :
    decodeJump c w (jumpWord k) =
      .ok (if w = c.trampWord then .trampoline k
        else if w = 0#12 ∧ k = c.entryDisp then .entryJump k else .rjmp k) := by
  have h1 : (jumpWord k).extractLsb' 12 4 = 0xC#4 := by
    apply BitVec.eq_of_toNat_eq
    rw [BitVec.extractLsb'_toNat, jumpWord_toNat, Nat.shiftRight_eq_div_pow]
    have := k.isLt
    show _ = 12
    omega
  have h2 : (jumpWord k).extractLsb' 0 12 = k := by
    apply BitVec.eq_of_toNat_eq
    rw [BitVec.extractLsb'_toNat, jumpWord_toNat]
    have := k.isLt
    simp only [Nat.shiftRight_zero]
    omega
  unfold decodeJump
  simp only [h1, h2, ne_eq, not_true_eq_false, if_false]
  split <;> [rfl; (split <;> rfl)]

/-- The device's own read address byte is a read (R91). -/
theorem isRead_own {c : Config} : isRead c (c.ownAddr ++ 1#1) = true := by
  have h1 : (c.ownAddr ++ 1#1).extractLsb' 1 7 = c.ownAddr := by generalize c.ownAddr = a; revert a; decide
  have h2 : (c.ownAddr ++ 1#1).getLsbD 0 = true := by generalize c.ownAddr = a; revert a; decide
  simp only [isRead, matchesAddr, h1, h2]; simp

end Sys2Proof.Machine
end

