-- ==== Sys2Proof/Laws/Step.lean ====
section
/-! SUPPORT. The pass and the CPU's step: everything each can do, and that they keep the invariant (43_scheduler.md R240 to
R250, 30_encoding.md R100). -/

namespace Sys2Proof.Machine

open Sys2Proof

/-! ## The end of a pass (R243 to R249) -/

/-- The idle loop ends the run or does not (R244). -/
theorem idleTick_cases (s : State) :
    ((0 < s.cfg.autoLaunchPasses ∧ s.cfg.autoLaunchPasses ≤ s.idleCount + 1) ∧
      idleTick s = ({ s with idleCount := s.idleCount + 1 } : State).launchApp) ∨
    (¬(0 < s.cfg.autoLaunchPasses ∧ s.cfg.autoLaunchPasses ≤ s.idleCount + 1) ∧
      idleTick s = { s with idleCount := s.idleCount + 1 }) := by
  unfold idleTick
  simp only
  split
  · next h => exact .inl ⟨h, rfl⟩
  · next h => exact .inr ⟨h, rfl⟩

/-- Everything the slow operations can do, in their order (R246). -/
theorem slowOps_cases (s : State) :
    (s.flag .exitToApp = true ∧ slowOps s = s.launchApp) ∨
    (s.flag .exitToApp = false ∧ s.flag .deleteFlash = true ∧ slowOps s = deleteAll s) ∨
    (s.flag .exitToApp = false ∧ s.flag .deleteFlash = false ∧ ready s = true ∧ slowOps s = commitPage s) ∨
    (s.flag .exitToApp = false ∧ s.flag .deleteFlash = false ∧ ready s = false ∧ slowOps s = s) := by
  unfold slowOps
  cases s.flag .exitToApp
  · cases s.flag .deleteFlash
    · cases ready s
      · exact .inr (.inr (.inr ⟨rfl, rfl, rfl, rfl⟩))
      · exact .inr (.inr (.inl ⟨rfl, rfl, rfl, rfl⟩))
    · exact .inr (.inl ⟨rfl, rfl, rfl⟩)
  · exact .inl ⟨rfl, rfl⟩

/-- A pass of an initialized block without a completed transaction ends as its handlers leave it (R241). -/
theorem finishPass_of_not_slow {s : State} (h : s.flag .slowOpsReady = false) :
    finishPass s = if initialized s = true then s else idleTick s := by
  unfold finishPass; rw [h]; simp

theorem finishPass_of_slow {s : State} (h : s.flag .slowOpsReady = true) :
    finishPass s = if initialized s = true then slowOps s else idleTick s := by
  unfold finishPass; rw [h]; simp

/-- Everything the end of a pass can do. -/
theorem finishPass_cases (s : State) :
    (initialized s = false ∧ finishPass s = idleTick s) ∨
    (initialized s = true ∧ s.flag .slowOpsReady = false ∧ finishPass s = s) ∨
    (initialized s = true ∧ s.flag .slowOpsReady = true ∧ finishPass s = slowOps s) := by
  unfold finishPass
  cases initialized s
  · exact .inl ⟨rfl, rfl⟩
  · cases s.flag .slowOpsReady
    · exact .inr (.inl ⟨rfl, rfl, rfl⟩)
    · exact .inr (.inr ⟨rfl, rfl, rfl⟩)

/-! ## The pass (R240, R242) -/

@[simp] theorem lower_slow (s : State) : (s.lower .slowOpsReady).flag .slowOpsReady = false := by
  rw [State.flag_lower]; simp

theorem startHandler_ovf (s : State) : (startHandler s).periph.ovfFlag = false := by
  obtain ⟨-, he⟩ | ⟨-, he⟩ := startHandler_cases s <;> rw [he]

/-- Everything a pass can do, by its events. -/
theorem pass_cases (s : State) :
    (s.periph.startFlag = true ∧ startHolds s = true ∧ pass s = (s.lower .slowOpsReady).enterStart) ∨
    (s.periph.startFlag = true ∧ startHolds s = false ∧ pass s = finishPass (startHandler (s.lower .slowOpsReady))) ∨
    (s.periph.startFlag = false ∧ s.periph.ovfFlag = true ∧ s.armed = true ∧
      pass s = finishPass (overflowHandler (s.lower .slowOpsReady))) ∨
    (s.periph.startFlag = false ∧ s.periph.ovfFlag = true ∧ s.armed = false ∧
      pass s = finishPass (s.lower .slowOpsReady).clearOvf) ∨
    (s.periph.startFlag = false ∧ s.periph.ovfFlag = false ∧ pass s = finishPass (s.lower .slowOpsReady)) := by
  have hh : startHolds (s.lower .slowOpsReady) = startHolds s := rfl
  unfold pass
  simp only [State.lower_periph, hh]
  cases hs : s.periph.startFlag
  · right; right
    have hp : pollStart (s.lower .slowOpsReady) = s.lower .slowOpsReady := by simp [pollStart, hs]
    rw [hp]
    unfold pollOverflow
    simp only [State.lower_periph, State.lower_armed]
    by_cases ho : s.periph.ovfFlag = true
    · by_cases ha : s.armed = true
      · exact .inl ⟨trivial, ho, ha, by simp [ho, ha]⟩
      · exact .inr (.inl ⟨trivial, ho, by simpa using ha, by simp [ho, ha]⟩)
    · exact .inr (.inr ⟨trivial, by simpa using ho, by simp [ho]⟩)
  · cases hl : startHolds s
    · refine .inr (.inl ⟨rfl, rfl, ?_⟩)
      have hp : pollStart (s.lower .slowOpsReady) = startHandler (s.lower .slowOpsReady) := by simp [pollStart, hs]
      rw [hp]
      simp [pollOverflow, startHandler_ovf]
    · exact .inl ⟨rfl, rfl, rfl⟩

/-- A pass whose event is the shift-complete runs the arm of the phase (R120, R240). -/
theorem pass_of_shiftComplete {s : State} (h : s.ShiftComplete) :
    pass s = finishPass (overflowHandler (s.lower .slowOpsReady)) := by
  obtain ⟨ha, ho, hs⟩ := h
  obtain ⟨h1, -⟩ | ⟨h1, -⟩ | ⟨-, -, -, he⟩ | ⟨-, -, h1, -⟩ | ⟨-, h1, -⟩ := pass_cases s
  · rw [hs] at h1; cases h1
  · rw [hs] at h1; cases h1
  · exact he
  · rw [ha] at h1; cases h1
  · rw [ho] at h1; cases h1

/-- The state in which the slow operations run (R131, R246). -/
def State.completed (s : State) : State := ((s.lower .slowOpsReady).rearm.raise .slowOpsReady).clearOvf

/-- The NACK arm (R131). -/
theorem overflowHandler_nack {s : State} (h : s.NackArm) : overflowHandler (s.lower .slowOpsReady) = s.completed := by
  unfold overflowHandler
  simp only [State.lower_phase, h.2.1, checkAck, State.lower_periph, h.2.2, if_true]
  rfl

/-- The pass of a completing NACK (R131, R246). -/
theorem pass_of_nack {s : State} (h : s.NackArm) (hi : initialized s = true) : pass s = slowOps s.completed := by
  rw [pass_of_shiftComplete h.1]
  have hf : s.completed.flag .slowOpsReady = true := by
    unfold State.completed
    rw [State.flag_congr (State.clearOvf_flags _), State.flag_raise]; simp
  have hi' : initialized s.completed = true := by
    rw [initialized_iff] at hi ⊢
    have hg : ∀ f, f ≠ .slowOpsReady → s.completed.flag f = s.flag f := fun f hf => by
      unfold State.completed
      rw [State.flag_congr (State.clearOvf_flags _), State.flag_raise, State.flag_congr (State.rearm_flags _),
        State.flag_lower]
      simp [hf]
    rw [show s.completed.cfg = s.cfg from rfl, hg .init1 (by decide), hg .init2 (by decide)]
    exact hi
  rw [overflowHandler_nack h, finishPass_of_slow hf, if_pos hi']

/-! ## The invariant -/

theorem inv_launchApp {s : State} (h : s.Inv) : s.launchApp.Inv :=
  { h with launch_target := fun w hw => by rw [State.launchApp_run] at hw; cases hw; rfl }

theorem inv_idleTick {s : State} (h : s.Inv) : (idleTick s).Inv := by
  have hi : ({ s with idleCount := s.idleCount + 1 } : State).Inv := { h with }
  obtain ⟨-, he⟩ | ⟨-, he⟩ := idleTick_cases s
  · rw [he]; exact inv_launchApp hi
  · rw [he]; exact hi

theorem inv_slowOps {s : State} (h : s.Inv) : (slowOps s).Inv := by
  obtain ⟨-, he⟩ | ⟨-, -, he⟩ | ⟨-, -, hr, he⟩ | ⟨-, -, -, he⟩ := slowOps_cases s
  · rw [he]; exact inv_launchApp h
  · rw [he]; exact inv_deleteAll h
  · rw [he]; exact inv_commitPage h hr
  · rw [he]; exact h

theorem inv_finishPass {s : State} (h : s.Inv) : (finishPass s).Inv := by
  obtain ⟨-, he⟩ | ⟨-, -, he⟩ | ⟨-, -, he⟩ := finishPass_cases s
  · rw [he]; exact inv_idleTick h
  · rw [he]; exact h
  · rw [he]; exact inv_slowOps h

/-- A pass keeps the invariant. -/
theorem inv_pass {s : State} (h : s.Inv) : (pass s).Inv := by
  have hl := inv_lower .slowOpsReady h
  have hf := lower_slow s
  obtain ⟨-, -, he⟩ | ⟨-, -, he⟩ | ⟨-, -, ha, he⟩ | ⟨-, -, -, he⟩ | ⟨-, -, he⟩ := pass_cases s
  · rw [he]; exact inv_enterStart hl hf
  · rw [he]; exact inv_finishPass (inv_startHandler hl hf)
  · rw [he]; exact inv_finishPass (inv_overflowHandler hl ha hf)
  · rw [he]; exact inv_finishPass (inv_clearOvf hl)
  · rw [he]; exact inv_finishPass hl

/-! ## The CPU outside the block (R100) -/

/-- What the decoder answers for a CPU word. -/
theorem decodeJump_cases {c : Config} {w : WordAddr} {x : Word} {i : Instr} (h : decodeJump c w x = .ok i) :
    ∃ k, x = jumpWord k ∧ (i = .rjmp k ∨ i = .entryJump k ∨ i = .trampoline k) := by
  unfold decodeJump at h
  simp only at h
  split at h
  · cases h
  · next hop =>
    have hop : x.extractLsb' 12 4 = 0xC#4 := by simpa using hop
    refine ⟨x.extractLsb' 0 12, ?_, ?_⟩
    · unfold jumpWord
      rw [← hop]
      apply BitVec.eq_of_getLsbD_eq
      intro i hi
      rw [BitVec.getLsbD_append]
      split
      · next h => rw [BitVec.getLsbD_extractLsb']; simp [h]
      · next h =>
        rw [BitVec.getLsbD_extractLsb', show 12 + (i - 12) = i by omega, decide_eq_true (by omega : i - 12 < 4),
          Bool.true_and]
    · split at h
      · cases h; exact .inr (.inr rfl)
      · split at h
        · cases h; exact .inr (.inl rfl)
        · cases h; exact .inl rfl

/-- On a jump word, exec is the relative jump (R100). -/
theorem exec_jump {i : Instr} {k : BitVec 12} (h : i = .rjmp k ∨ i = .entryJump k ∨ i = .trampoline k) (s : State) :
    exec i s = relativeJump k s := by
  rcases h with rfl | rfl | rfl <;> rfl

theorem relativeJump_of_cpu {s : State} {w : WordAddr} (h : s.cpu = some w) (k : BitVec 12) :
    relativeJump k s = .next (s.arrive (jumpTarget w k)) := by
  unfold relativeJump; rw [h]

/-- The CPU's step is the relative jump in the flash word it stands at, or no next state (R100). -/
theorem cpuStep_cases {s t : State} {w : WordAddr} (hc : s.cpu = some w) (h : cpuStep w s = .next t) :
    ∃ k, s.flashWord w = jumpWord k ∧ t = s.arrive (jumpTarget w k) := by
  unfold cpuStep fetchJump at h
  split at h
  · next i hi =>
    split at hi
    · next j hj =>
      cases hi
      obtain ⟨k, hx, hk⟩ := decodeJump_cases hj
      rw [exec_jump hk, relativeJump_of_cpu hc] at h
      cases h
      exact ⟨k, (wordBytes_word _).symm.trans hx, rfl⟩
    · cases hi
  · cases h

theorem inv_arrive {s : State} (h : s.Inv) (w : WordAddr) : (s.arrive w).Inv := by
  unfold State.arrive
  split
  · exact inv_boot h.legal h.flash_wf h.flash_below
  · exact { h with }

/-! ## Runs -/

/-- A run goes on from its first step. -/
theorem run_succ {s t : State} (h : step s = .next t) (k : Nat) :
    Sys2Proof.core.run (k + 1) s = Sys2Proof.core.run k t := by
  simp only [Host.Core.run]
  rw [show Sys2Proof.core.step s = .next t from h]

theorem run_one {s t : State} (h : step s = .next t) : Sys2Proof.core.run 1 s = .next t := run_succ h 0

/-- A run goes on from where its first part ends. -/
theorem run_add : ∀ (m n : Nat) {s t : State}, Sys2Proof.core.run m s = .next t →
    Sys2Proof.core.run (m + n) s = Sys2Proof.core.run n t
  | 0, n, s, t, h => by
    rw [Nat.zero_add]
    cases (show Host.Outcome.next s = .next t from h)
    rfl
  | m + 1, n, s, t, h => by
    have hs : Sys2Proof.core.step s = step s := rfl
    rw [Nat.succ_add]
    simp only [Host.Core.run, hs] at h ⊢
    cases hst : step s with
    | next s' => rw [hst] at h; exact run_add m n h
    | fault r => rw [hst] at h; cases h
    | refused r => rw [hst] at h; cases h

end Sys2Proof.Machine
end

