-- ==== Sys2Proof/Laws/Frames.lean ====
section
/-! SUPPORT. The lemmas that give the terms of Safety.lean: replies, flags, frames, and the numbers the rules name. -/

namespace Sys2Proof.Machine

open Sys2Proof

/-! ## Replies and frames -/

theorem replied_pushAll {s t : State} (hc : s.cfg.Legal) (h : s.tx.Wf s.cfg.txCap) (bs : List Byte) (ht : t.cfg = s.cfg)
    (htx : t.tx = Ring.pushAll s.cfg.txCap s.tx bs) : Replied bs s t := by
  unfold Replied State.txBytes
  rw [ht, htx]
  exact ⟨Ring.contents_pushAll hc.txCap.1 bs h, Ring.wf_pushAll hc.txCap.1 bs h⟩

/-- A command that changes only what commands change has their frame. -/
theorem commandFrame_of_only {s t : State} (h : OnlyCommand s t) : CommandFrame s t := by
  obtain ⟨_, _, _, _, _, _, _, rfl⟩ := h
  exact ⟨fun _ => rfl, ⟨rfl, rfl, rfl, rfl⟩, ⟨rfl, rfl, rfl, rfl, rfl, rfl, rfl⟩, rfl, rfl, rfl, rfl⟩

/-! ## Flags -/

theorem otherFlags_raise {s t : State} {f : Flag} (h : t.flags = (s.raise f).flags) : OtherFlags f s t := by
  intro i hi; rw [h, State.raise_bit]; simp [hi]

theorem flag_raised {s t : State} {f : Flag} (h : t.flags = (s.raise f).flags) : t.flag f = true := by
  rw [State.flag_congr h, State.flag_raise]; simp

theorem otherFlags_lower {v t : State} (h : OtherFlags .slowOpsReady v t) :
    OtherFlags .slowOpsReady v (t.lower .slowOpsReady) := fun i hi => by
  rw [State.lower_bit, h i hi]; simp [hi]

theorem initialized_of_otherFlags {v t : State} (hc : t.cfg = v.cfg) (h : OtherFlags .slowOpsReady v t) :
    initialized t = initialized v := by
  have : ∀ f, f ≠ .slowOpsReady → t.flag f = v.flag f := fun f hf => h f.pos (by simpa using hf)
  unfold initialized requiredInit
  rw [hc]
  cases v.cfg.handshake <;> simp [this .init1 (by decide), this .init2 (by decide)]

theorem initialized_lower (u : State) : initialized (u.lower .slowOpsReady) = initialized u :=
  initialized_of_otherFlags rfl (otherFlags_lower fun _ _ => rfl)

theorem completed_flags (u : State) : u.completed.flags = ((u.lower .slowOpsReady).raise .slowOpsReady).flags := rfl

theorem completed_slow (u : State) : u.completed.flag .slowOpsReady = true :=
  flag_raised (s := u.lower .slowOpsReady) rfl

theorem completed_other (u : State) : OtherFlags .slowOpsReady u u.completed := by
  intro i hi; rw [completed_flags, State.raise_bit, State.lower_bit]; simp [hi]

theorem completed_flag (u : State) {f : Flag} (h : f ≠ .slowOpsReady) : u.completed.flag f = u.flag f :=
  completed_other u f.pos (by simpa using h)

theorem initialized_completed (u : State) : initialized u.completed = initialized u :=
  initialized_of_otherFlags (v := u) (t := u.completed) rfl (completed_other u)

theorem inv_completed {u : State} (h : u.Inv) : u.completed.Inv :=
  inv_raise (inv_rearm_clearOvf (inv_lower .slowOpsReady h)) fun _ => rfl

/-! ## A handler keeps a flag that is set -/

/-- `f` stays set. -/
def KeepsFlag (f : Flag) (s t : State) : Prop := s.flag f = true → t.flag f = true

theorem keepsFlag_of_flags {f : Flag} {s t : State} (h : t.flags = s.flags) : KeepsFlag f s t := fun hx => by
  rw [State.flag_congr h]; exact hx

theorem keepsFlag_raise {f g : Flag} {s t : State} (h : t.flags = (s.raise g).flags) : KeepsFlag f s t := fun hx => by
  rw [State.flag_congr h, State.flag_raise, hx]; rfl

theorem keepsFlag_runCommand (f : Flag) (i : Instr) (s : State) : KeepsFlag f s (runCommand i s) := by
  obtain he | ⟨g, -, he⟩ := runCommand_flags i s
  · exact keepsFlag_of_flags he
  · exact keepsFlag_raise he

theorem keepsFlag_overflowHandler (f : Flag) (s : State) : KeepsFlag f s (overflowHandler s) := by
  obtain ⟨-, -, he⟩ | ⟨-, -, he⟩ | ⟨-, -, he⟩ | ⟨-, hn, he⟩ | ⟨-, -, he⟩ | ⟨-, he⟩ | ⟨-, -, he⟩ | ⟨-, he⟩ | ⟨-, he⟩ :=
    overflowHandler_cases s
  · rw [he]
    show KeepsFlag f s (dispatch s)
    obtain ⟨-, he⟩ | ⟨i, -, -, he⟩ := dispatch_cases s
    · rw [he]; exact keepsFlag_of_flags rfl
    · rw [he]; exact keepsFlag_runCommand f i s.flushTx.drainRx
  all_goals rw [he]; first | exact keepsFlag_of_flags rfl | exact keepsFlag_raise rfl

/-! ## What the handlers leave -/

theorem startHandler_keeps (s : State) :
    (startHandler s).flash = s.flash ∧ (startHandler s).cfg = s.cfg ∧ (startHandler s).run = s.run := by
  obtain ⟨-, he⟩ | ⟨-, he⟩ := startHandler_cases s <;> rw [he] <;> exact ⟨rfl, rfl, rfl⟩

theorem overflowHandler_keeps (s : State) :
    (overflowHandler s).flash = s.flash ∧ (overflowHandler s).cfg = s.cfg ∧ (overflowHandler s).run = s.run := by
  obtain ⟨-, -, he⟩ | ⟨-, -, he⟩ | ⟨-, -, he⟩ | ⟨-, hn, he⟩ | ⟨-, -, he⟩ | ⟨-, he⟩ | ⟨-, -, he⟩ | ⟨-, he⟩ | ⟨-, he⟩ :=
    overflowHandler_cases s
  · rw [he]
    obtain ⟨_, _, _, _, _, _, _, _, _, hd⟩ := dispatch_only s
    unfold readArm; rw [hd]; exact ⟨rfl, rfl, rfl⟩
  all_goals rw [he]; exact ⟨rfl, rfl, rfl⟩

/-- Only the NACK arm sets SlowOpsReady (R131). -/
theorem overflowHandler_slow (s : State) (h : s.flag .slowOpsReady = false)
    (hx : (overflowHandler s).flag .slowOpsReady = true) : s.phase = .checkAck ∧ s.periph.dr.getLsbD 0 = true := by
  obtain ⟨-, -, he⟩ | ⟨-, -, he⟩ | ⟨-, -, he⟩ | ⟨-, hn, he⟩ | ⟨-, -, he⟩ | ⟨-, he⟩ | ⟨h1, h2, he⟩ | ⟨-, he⟩ | ⟨-, he⟩ :=
    overflowHandler_cases s
  · rw [he] at hx
    have : (dispatch s).flag .slowOpsReady = true := hx
    rw [dispatch_slow, h] at this; cases this
  all_goals
    first
    | exact ⟨h1, h2⟩
    | (rw [he] at hx; have : s.flag .slowOpsReady = true := hx; rw [h] at this; cases this)

/-- The handlers change nothing of the run and count no pass. -/
theorem sameRun_overflowHandler (s : State) : SameRun s (overflowHandler s) ∧ (overflowHandler s).idleCount = s.idleCount := by
  obtain ⟨-, -, he⟩ | ⟨-, -, he⟩ | ⟨-, -, he⟩ | ⟨-, hn, he⟩ | ⟨-, -, he⟩ | ⟨-, he⟩ | ⟨-, -, he⟩ | ⟨-, he⟩ | ⟨-, he⟩ :=
    overflowHandler_cases s
  · rw [he]
    obtain ⟨_, _, _, _, _, _, _, _, _, hd⟩ := dispatch_only s
    unfold readArm; rw [hd]; exact ⟨⟨rfl, rfl, rfl, rfl, rfl, rfl, rfl⟩, rfl⟩
  all_goals rw [he]; exact ⟨⟨rfl, rfl, rfl, rfl, rfl, rfl, rfl⟩, rfl⟩

theorem sameRun_startHandler (s : State) : SameRun s (startHandler s) ∧ (startHandler s).idleCount = s.idleCount := by
  obtain ⟨-, he⟩ | ⟨-, he⟩ := startHandler_cases s <;> rw [he] <;> exact ⟨⟨rfl, rfl, rfl, rfl, rfl, rfl, rfl⟩, rfl⟩

/-- Only the arm that dispatches can complete the handshake (R124, R161, R169). -/
theorem initialized_overflowHandler (s : State)
    (h : ¬(s.phase = .checkAddress ∧ isRead s.cfg s.periph.dr = true)) :
    initialized (overflowHandler s) = initialized s := by
  obtain ⟨h1, h2, he⟩ | ⟨-, -, he⟩ | ⟨-, -, he⟩ | ⟨-, hn, he⟩ | ⟨-, -, he⟩ | ⟨-, he⟩ | ⟨-, -, he⟩ | ⟨-, he⟩ | ⟨-, he⟩ :=
    overflowHandler_cases s
  · exact absurd ⟨h1, h2⟩ h
  all_goals rw [he]
  all_goals first
    | exact initialized_congr rfl rfl
    | exact initialized_of_otherFlags rfl (otherFlags_raise (s := s.rearm) rfl)

theorem finishPass_cfg (s : State) : (finishPass s).cfg = s.cfg := by
  obtain ⟨-, he⟩ | ⟨-, -, he⟩ | ⟨-, -, he⟩ := finishPass_cases s
  · rw [he]; obtain ⟨-, he⟩ | ⟨-, he⟩ := idleTick_cases s <;> rw [he]; rfl
  · rw [he]
  · rw [he]
    obtain ⟨-, he⟩ | ⟨-, -, he⟩ | ⟨-, -, hr, he⟩ | ⟨-, -, -, he⟩ := slowOps_cases s
    · rw [he]; rfl
    · rw [he]; unfold deleteAll restart; split <;> rfl
    · rw [he, commitPage_eq]
    · rw [he]

theorem pass_cfg (s : State) : (pass s).cfg = s.cfg := by
  obtain ⟨-, -, he⟩ | ⟨-, -, he⟩ | ⟨-, -, -, he⟩ | ⟨-, -, -, he⟩ | ⟨-, -, he⟩ := pass_cases s <;> rw [he]
  · rfl
  · rw [finishPass_cfg, (startHandler_keeps _).2.1]; rfl
  · rw [finishPass_cfg, (overflowHandler_keeps _).2.1]; rfl
  · exact finishPass_cfg _
  · exact finishPass_cfg _

/-! ## The reset in a pass -/

/-- A reset leaves the values of the table R49. -/
theorem atReset_boot (s : State) : AtReset s s.boot :=
  ⟨rfl, rfl, rfl, rfl, rfl, rfl, rfl, rfl, ⟨rfl, rfl, rfl⟩, ⟨rfl, rfl, rfl⟩, rfl, rfl, ⟨rfl, rfl, rfl⟩, rfl, rfl, rfl⟩

theorem atReset_of_cfg {s u t : State} (hc : u.cfg = s.cfg) (h : AtReset u t) : AtReset s t := { h with cfg := h.cfg.trans hc }

/-- The slow operations run the safety erase of a DirectJump build, which ends in the reset state (R246, R209). -/
def ResetsHere (s : State) : Prop :=
  initialized s = true ∧ s.flag .slowOpsReady = true ∧ s.flag .exitToApp = false ∧ s.flag .deleteFlash = true ∧
    s.cfg.restartMode = .directJump

theorem finishPass_resets {s : State} (h : ResetsHere s) : finishPass s = (eraseApplication s).boot := by
  obtain ⟨hi, hs, hx, hd, hm⟩ := h
  rw [finishPass_of_slow hs, if_pos hi]
  unfold slowOps deleteAll restart
  rw [hx, hd, show (eraseApplication s).cfg.restartMode = .directJump from hm]; rfl

theorem keepsFlag_finishPass (f : Flag) (s : State) : ResetsHere s ∨ KeepsFlag f s (finishPass s) := by
  obtain ⟨-, he⟩ | ⟨-, -, he⟩ | ⟨hi, hs, he⟩ := finishPass_cases s
  · right; rw [he]; obtain ⟨-, he⟩ | ⟨-, he⟩ := idleTick_cases s <;> rw [he] <;> exact keepsFlag_of_flags rfl
  · right; rw [he]; exact fun h => h
  · rw [he]
    obtain ⟨-, he⟩ | ⟨hx, hd, he⟩ | ⟨-, -, hr, he⟩ | ⟨-, -, -, he⟩ := slowOps_cases s
    · right; rw [he]; exact keepsFlag_of_flags rfl
    · cases hm : s.cfg.restartMode
      · right; rw [he]; unfold deleteAll restart
        rw [show (eraseApplication s).cfg.restartMode = .watchdog from hm]; exact keepsFlag_of_flags rfl
      · exact .inl ⟨hi, hs, hx, hd, hm⟩
    · right; rw [he, commitPage_eq]
      rcases slotCheck_flags s with h | h
      · exact keepsFlag_of_flags h
      · exact keepsFlag_raise h
    · right; rw [he]; exact fun h => h

/-- A pass keeps the handshake bits and the requests, unless it is the completing NACK's of a safety erase that resets. -/
theorem keepsFlag_pass (f : Flag) (hf : f ≠ .slowOpsReady) (u : State) :
    (u.NackArm ∧ initialized u = true ∧ u.flag .exitToApp = false ∧ u.flag .deleteFlash = true ∧
      u.cfg.restartMode = .directJump) ∨ KeepsFlag f u (pass u) := by
  have hl : KeepsFlag f u (u.lower .slowOpsReady) := fun h => by rw [State.flag_lower, h]; simp [hf]
  have tr : ∀ t, t.flag .slowOpsReady = false → KeepsFlag f u t → KeepsFlag f u (finishPass t) := fun t hs h => by
    rcases keepsFlag_finishPass f t with h' | h'
    · exact absurd h'.2.1 (by rw [hs]; decide)
    · exact fun hx => h' (h hx)
  obtain ⟨-, -, he⟩ | ⟨-, -, he⟩ | ⟨hs, ho, ha, he⟩ | ⟨-, -, -, he⟩ | ⟨-, -, he⟩ := pass_cases u
  · right; rw [he]; exact hl
  · right; rw [he]
    have : (startHandler (u.lower .slowOpsReady)).flags = (u.lower .slowOpsReady).flags := by
      obtain ⟨-, he⟩ | ⟨-, he⟩ := startHandler_cases (u.lower .slowOpsReady) <;> rw [he]
    exact tr _ ((State.flag_congr this _).trans (lower_slow u)) fun h => keepsFlag_of_flags this (hl h)
  · have hk : KeepsFlag f u (overflowHandler (u.lower .slowOpsReady)) := fun h => keepsFlag_overflowHandler f _ (hl h)
    cases hx : (overflowHandler (u.lower .slowOpsReady)).flag .slowOpsReady
    · right; rw [he]; exact tr _ hx hk
    · obtain ⟨hp, hd⟩ := overflowHandler_slow _ (lower_slow u) hx
      have hn : u.NackArm := ⟨⟨ha, ho, hs⟩, hp, hd⟩
      cases hi : initialized u
      · right; rw [he]
        have hu : overflowHandler (u.lower .slowOpsReady) = u.completed := overflowHandler_nack hn
        have hc : initialized u.completed = false := (initialized_completed u).trans hi
        rw [hu] at hk ⊢
        rcases finishPass_cases u.completed with ⟨-, he⟩ | ⟨h, -⟩ | ⟨h, -⟩
        · rw [he]; obtain ⟨-, he⟩ | ⟨-, he⟩ := idleTick_cases u.completed <;> rw [he] <;> exact fun h => hk h
        all_goals rw [hc] at h; cases h
      · rw [pass_of_nack hn hi]
        have h2 : finishPass u.completed = slowOps u.completed := by
          rw [finishPass_of_slow (completed_slow u), if_pos ((initialized_completed u).trans hi)]
        rcases keepsFlag_finishPass f u.completed with ⟨-, -, h3, h4, h5⟩ | h
        · rw [completed_flag u (by decide)] at h3 h4; exact .inl ⟨hn, rfl, h3, h4, h5⟩
        · right; rw [← h2]; exact fun hx => h ((completed_flag u hf).trans hx)
  · right; rw [he]; exact tr _ (lower_slow u) hl
  · right; rw [he]; exact tr _ (lower_slow u) hl

theorem initialized_runCommand (i : Instr) (s : State) (h : initialized s = true) : initialized (runCommand i s) = true := by
  have hc : (runCommand i s).cfg = s.cfg := by obtain ⟨_, _, _, _, _, _, _, h⟩ := onlyCommand_runCommand i s; rw [h]
  rw [initialized_iff] at h ⊢
  rw [hc]
  cases hh : s.cfg.handshake <;> rw [hh] at h
  · exact keepsFlag_runCommand .init1 i s h
  · exact ⟨keepsFlag_runCommand .init1 i s h.1, keepsFlag_runCommand .init2 i s h.2⟩

/-! ## The end of a pass without a completed transaction -/

theorem finishPass_eq_self {t : State} (hi : initialized t = true) (hs : t.flag .slowOpsReady = false) :
    finishPass t = t := by
  rw [finishPass_of_not_slow hs, if_pos hi]

/-- The end of a pass without a completed transaction, by the idle count (R243, R244). -/
theorem finishPass_counts {u t : State} (hc : t.cfg = u.cfg) (hi : initialized t = initialized u)
    (hs : t.flag .slowOpsReady = false) (hk : t.idleCount = u.idleCount) :
    (initialized u = true ∧ finishPass t = t) ∨
    (initialized u = false ∧ u.CountReached ∧
      finishPass t = ({ t with idleCount := t.idleCount + 1 } : State).launchApp) ∨
    (initialized u = false ∧ ¬ u.CountReached ∧ finishPass t = { t with idleCount := t.idleCount + 1 }) := by
  rw [finishPass_of_not_slow hs, hi]
  unfold State.CountReached
  rw [← hc, ← hk]
  cases initialized u
  · right
    obtain ⟨h, he⟩ | ⟨h, he⟩ := idleTick_cases t
    · exact .inl ⟨rfl, h, he⟩
    · exact .inr ⟨rfl, h, he⟩
  · exact .inl ⟨rfl, rfl⟩

theorem finishPass_noAutoLaunch {u t : State} (h : u.NoAutoLaunch) (hc : t.cfg = u.cfg)
    (hi : initialized t = initialized u) (hs : t.flag .slowOpsReady = false) :
    finishPass t = { t with idleCount := t.idleCount + if initialized u = true then 0 else 1 } := by
  rw [finishPass_of_not_slow hs, hi]
  by_cases hin : initialized u = true
  · rw [if_pos hin, if_pos hin]; rfl
  · rw [if_neg hin, if_neg hin]
    have hz : u.cfg.autoLaunchPasses = 0 := by rcases h with h | h; exact absurd h hin; exact h
    obtain ⟨h, -⟩ | ⟨-, he⟩ := idleTick_cases t
    · rw [hc, hz] at h; omega
    · exact he

theorem finishPass_not_slow (t : State) (hs : t.flag .slowOpsReady = false) :
    (finishPass t).flash = t.flash ∧ (initialized t = true → (finishPass t).run = t.run) := by
  rw [finishPass_of_not_slow hs]
  split
  · exact ⟨rfl, fun _ => rfl⟩
  · next hn =>
    obtain ⟨-, he⟩ | ⟨-, he⟩ := idleTick_cases t <;> rw [he]
    · exact ⟨rfl, fun h => absurd h hn⟩
    · exact ⟨rfl, fun _ => rfl⟩

/-! ## Slow operations -/

theorem step_slowOps {s u : State} (hd : Delivered s u) (hr : u.Runs) (hn : u.NackArm) (hi : initialized u = true) :
    step s = .next (slowOps u.completed) := by
  rw [step_eq_pass hd hr, pass_of_nack hn hi]

theorem slowOps_commit {u : State} (hx : u.flag .exitToApp = false) (hdl : u.flag .deleteFlash = false)
    (hrd : ready u = true) : slowOps u.completed = commitPage u.completed := by
  have h1 := completed_flag u (f := .exitToApp) (by decide)
  have h2 := completed_flag u (f := .deleteFlash) (by decide)
  have h3 : ready u.completed = true := hrd
  unfold slowOps
  rw [h1, hx, h2, hdl, h3]; rfl

/-- A commit writes no byte at or above BOOT_START. -/
theorem read_commit_high {s : State} (h : s.Inv) (hr : s.pageAddress.toNat < s.cfg.appLimit) {a : Nat}
    (ha : s.cfg.bootStart ≤ a) : Memory.read a (committedFlash s) = Memory.read a s.flash := by
  have := page_below h hr
  rw [read_committedFlash h, if_neg (by omega), read_programPage h, if_neg (by omega)]

/-! ## The numbers the rules name -/

theorem entryJumpWord_toNat {c : Config} (h : c.Legal) : (entryJumpWord c).toNat = 0xC000 + (c.bWord - 1) := by
  have := h.bWord_bounds
  unfold entryJumpWord Config.entryDisp
  rw [jumpWord_toNat, BitVec.toNat_ofNat]; omega

theorem entryLo_eq {c : Config} (h : c.Legal) : loByte (entryJumpWord c) = entryLo c := by
  apply BitVec.eq_of_toNat_eq
  have := h.bWord_bounds
  rw [loByte_toNat, entryJumpWord_toNat h]; unfold entryLo; rw [BitVec.toNat_ofNat]; omega

theorem entryHi_eq {c : Config} (h : c.Legal) : hiByte (entryJumpWord c) = entryHi c := by
  apply BitVec.eq_of_toNat_eq
  have := h.bWord_bounds
  rw [hiByte_toNat, entryJumpWord_toNat h]; unfold entryHi; rw [BitVec.toNat_ofNat]; omega

theorem tramp_toNat {c : Config} (hb : c.bWord < 4096) (lsb msb : Byte) :
    (tramp c lsb msb).toNat = trampValue c lsb msb := by
  have ho : (wordOf msb lsb).toNat = origWord lsb msb := wordOf_toNat _ _
  rw [tramp_eq, jumpWord_toNat, BitVec.toNat_ofInt, ho]
  unfold trampValue; omega

theorem tramp_lo {c : Config} (hc : c.Legal) (lsb msb : Byte) :
    loByte (tramp c lsb msb) = BitVec.ofNat 8 (trampValue c lsb msb % 256) := by
  apply BitVec.eq_of_toNat_eq; rw [loByte_toNat, tramp_toNat hc.bWord_bounds.2, BitVec.toNat_ofNat]; omega

theorem tramp_hi {c : Config} (hc : c.Legal) (lsb msb : Byte) :
    hiByte (tramp c lsb msb) = BitVec.ofNat 8 (trampValue c lsb msb / 256) := by
  apply BitVec.eq_of_toNat_eq; rw [hiByte_toNat, tramp_toNat hc.bWord_bounds.2, BitVec.toNat_ofNat]
  have : trampValue c lsb msb < 65536 := by unfold trampValue; omega
  omega

/-- The equal form of R100: the displacement need not be sign-extended. -/
theorem jumpTarget_toNat (w : WordAddr) (k : BitVec 12) : (jumpTarget w k).toNat = (w.toNat + 1 + k.toNat) % 4096 := by
  have h := Int.bmod_emod (x := (k.toNat : Int)) (m := 2 ^ 12)
  unfold jumpTarget
  rw [BitVec.toNat_ofInt, BitVec.toInt_eq_toNat_bmod]
  omega

theorem checksum_eq_iff (d : List Byte) (cs : Byte) :
    checksum d = cs ↔ cs.toNat = (d.map BitVec.toNat).sum % 256 := by
  unfold checksum
  rw [← BitVec.toNat_inj, BitVec.toNat_ofNat]
  exact eq_comm

/-- A page address is 0 or past the reset vector. -/
theorem pageAddress_zero_or {s : State} (h : s.Inv) : s.pageAddress.toNat = 0 ∨ 2 ≤ s.pageAddress.toNat := by
  have h1 := (h.legal.pageMask_zero_iff _).1 h.page_aligned
  have h2 := h.legal.pageSize.2.1
  obtain ⟨k, hk⟩ := Nat.dvd_of_mod_eq_zero h1
  rcases k with _ | k
  · left; simpa using hk
  · right; rw [hk, Nat.mul_succ]; omega

/-! ## The reset-vector page (R47 item 4) -/

theorem vectorStaged_of_same {s t : State} (h : s.VectorStaged) (a : t.cfg = s.cfg) (b : t.pageAddress = s.pageAddress)
    (c : t.pageIndex = s.pageIndex) (d : t.stage = s.stage) : t.VectorStaged := by
  unfold State.VectorStaged at *; rw [a, b, c, d]; exact h

theorem vectorStaged_boot (s : State) : s.boot.VectorStaged := by
  intro _
  refine ⟨by rw [State.boot_pageAddress]; simp, fun _ h => ?_, fun _ h => ?_⟩ <;>
    rw [State.boot_pageIndex] at h <;> simp at h

theorem vectorStaged_runCommand (i : Instr) {s : State} (hI : s.Inv) (h : s.VectorStaged)
    (ha : s.cfg.autoPageAddr = true) : (runCommand i s).VectorStaged := by
  cases i with
  | setPageAddr hi lo =>
    have : setPageAddress hi lo s = unknownCommand s := by simp [setPageAddress, Config.present, ha]
    show (setPageAddress hi lo s).VectorStaged
    rw [this]; exact vectorStaged_of_same h rfl rfl rfl rfl
  | writePage d cs =>
    show (writePage d cs s).VectorStaged
    unfold writePage
    split
    · next hf =>
      have hf : s.pageIndex.toNat + d.length ≤ s.cfg.pageSize := by simpa [fits] using hf
      have hps := hI.legal.pageSize.2
      have key : (stageBytes d s).VectorStaged := by
        intro _
        obtain ⟨s1, s2, s3⟩ := stageBytes_spec d hI.stage_length (page_room hI) hps.2 hf
        obtain ⟨h1, h2, h3⟩ := h ha
        rw [stageBytes_cfg, stageBytes_pageAddress, stageBytes_index d (by omega)]
        refine ⟨h1, fun hp hi => ?_, fun hp hi => ?_⟩
        · rw [s1 0 (by omega), hp]
          split
          · rfl
          · exact h2 hp (by omega)
        · rw [s1 1 (by omega), hp]
          split
          · rfl
          · exact h3 hp (by omega)
      split
      · exact vectorStaged_of_same key rfl rfl rfl rfl
      · exact vectorStaged_of_same key rfl rfl rfl rfl
    · exact vectorStaged_of_same h rfl rfl rfl rfl
  | readFlash _ _ _ _ => simp only [runCommand, readFlash]; split <;> exact vectorStaged_of_same h rfl rfl rfl rfl
  | softInit => simp only [runCommand, softInit]; split <;> exact vectorStaged_of_same h rfl rfl rfl rfl
  | getVersion | exit | deleteFlash | unknown _ _ | addrRead _ | addrWrite _ | addrBroadcast | rjmp _ | entryJump _
  | trampoline _ => exact vectorStaged_of_same h rfl rfl rfl rfl

theorem vectorStaged_overflowHandler {s : State} (hI : s.Inv) (h : s.VectorStaged) (ha : s.cfg.autoPageAddr = true) :
    (overflowHandler s).VectorStaged := by
  obtain ⟨-, -, he⟩ | ⟨-, -, he⟩ | ⟨-, -, he⟩ | ⟨-, hn, he⟩ | ⟨-, -, he⟩ | ⟨-, he⟩ | ⟨h1, h2, he⟩ | ⟨-, he⟩ | ⟨-, he⟩ :=
    overflowHandler_cases s
  · rw [he]
    have : (dispatch s).VectorStaged := by
      obtain ⟨-, he⟩ | ⟨i, -, -, he⟩ := dispatch_cases s
      · rw [he]; exact vectorStaged_of_same h rfl rfl rfl rfl
      · rw [he]
        exact vectorStaged_runCommand i (inv_drainRx (inv_flushTx hI)) (vectorStaged_of_same h rfl rfl rfl rfl) ha
    exact vectorStaged_of_same this rfl rfl rfl rfl
  all_goals rw [he]; exact vectorStaged_of_same h rfl rfl rfl rfl

theorem vectorStaged_finishPass {s : State} (hI : s.Inv) (h : s.VectorStaged) : (finishPass s).VectorStaged := by
  obtain ⟨-, he⟩ | ⟨-, -, he⟩ | ⟨-, -, he⟩ := finishPass_cases s
  · rw [he]
    obtain ⟨-, he⟩ | ⟨-, he⟩ := idleTick_cases s <;> rw [he] <;> exact vectorStaged_of_same h rfl rfl rfl rfl
  · rw [he]; exact h
  · rw [he]
    obtain ⟨-, he⟩ | ⟨-, -, he⟩ | ⟨-, -, hr, he⟩ | ⟨-, -, -, he⟩ := slowOps_cases s
    · rw [he]; exact vectorStaged_of_same h rfl rfl rfl rfl
    · rw [he]; unfold deleteAll restart; split
      · exact vectorStaged_boot _
      · exact vectorStaged_of_same h rfl rfl rfl rfl
    · rw [he, commitPage_eq]
      intro ha
      have ha : s.cfg.autoPageAddr = true := ha
      have hlim := ((ready_iff s).1 hr).2
      have hfit := hI.legal.page_fits ((hI.legal.pageMask_zero_iff _).1 hI.page_aligned) hlim
      have hle := hI.legal.appLimit_le
      have hb := hI.legal.bootStart
      have hf := hI.legal.flashBytes.2
      have hps := hI.legal.pageSize.2
      have hn : (s.pageAddress + BitVec.ofNat 16 s.cfg.pageSize).toNat = s.pageAddress.toNat + s.cfg.pageSize := by
        rw [BitVec.toNat_add, BitVec.toNat_ofNat]; omega
      simp only [ha, if_true]
      refine ⟨by rw [hn]; exact hfit, fun hp => ?_, fun hp => ?_⟩ <;>
      · have := congrArg BitVec.toNat hp; rw [hn] at this; simp at this; omega
    · rw [he]; exact h

theorem vectorStaged_pass {u : State} (hI : u.Inv) (h : u.VectorStaged) (ha : u.cfg.autoPageAddr = true) :
    (pass u).VectorStaged := by
  have hl := inv_lower .slowOpsReady hI
  have hv : (u.lower .slowOpsReady).VectorStaged := vectorStaged_of_same h rfl rfl rfl rfl
  obtain ⟨-, -, he⟩ | ⟨-, -, he⟩ | ⟨-, -, hx, he⟩ | ⟨-, -, -, he⟩ | ⟨-, -, he⟩ := pass_cases u <;> rw [he]
  · exact vectorStaged_of_same hv rfl rfl rfl rfl
  · apply vectorStaged_finishPass (inv_startHandler hl (lower_slow u))
    obtain ⟨-, he⟩ | ⟨-, he⟩ := startHandler_cases (u.lower .slowOpsReady) <;> rw [he] <;>
      exact vectorStaged_of_same hv rfl rfl rfl rfl
  · exact vectorStaged_finishPass (inv_overflowHandler hl hx (lower_slow u))
      (vectorStaged_overflowHandler hl hv ha)
  · exact vectorStaged_finishPass (inv_clearOvf hl) (vectorStaged_of_same hv rfl rfl rfl rfl)
  · exact vectorStaged_finishPass hl hv

end Sys2Proof.Machine
end

