-- ==== Sys2Proof/Laws/PerInstr.lean ====
section
/-! SUPPORT. Laws with one lemma per instruction. Family EncodeLength: the length of a well-formed instruction's encoding, by
the tables of 30_encoding.md (R90, R94, R100). -/

namespace Sys2Proof.Laws.EncodeLength

open Sys2Proof

/-- The number of bytes the encoding tables give an instruction: L(op) for a command frame (R94), one for an address byte
(R90), two for a CPU word (R71). -/
def tableLength (c : Config) : Instr → Nat
  | .getVersion => c.frameLength .getVersion
  | .exit => c.frameLength .exit
  | .deleteFlash => c.frameLength .deleteFlash
  | .setPageAddr _ _ => c.frameLength .setPageAddr
  | .writePage _ _ => c.frameLength .writePage
  | .readFlash _ _ _ _ => c.frameLength .readFlash
  | .softInit => c.frameLength .softInit
  | .unknown _ rest => rest.length + 1
  | .addrRead _ | .addrWrite _ | .addrBroadcast => 1
  | .rjmp _ | .entryJump _ | .trampoline _ => 2

/-- A well-formed instruction's encoding has the table's length. -/
def Statement (i : Instr) : Prop := ∀ c : Config, i.wf c = true → (encode c i).length = tableLength c i

theorem getVersion : Statement .getVersion := fun _ _ => rfl

theorem exit : Statement .exit := fun _ _ => rfl

theorem deleteFlash : Statement .deleteFlash := fun _ _ => rfl

theorem setPageAddr (addrHi addrLo : Byte) : Statement (.setPageAddr addrHi addrLo) := fun _ _ => rfl

theorem writePage (d : List Byte) (cs : Byte) : Statement (.writePage d cs) := fun c h => by
  have : d.length = c.packetSize := by simpa [Instr.wf] using h
  simp [encode, tableLength, Config.frameLength, this]

theorem readFlash (addrHi addrLo len rcs : Byte) : Statement (.readFlash addrHi addrLo len rcs) := fun _ _ => rfl

theorem softInit : Statement .softInit := fun _ _ => rfl

theorem unknown (op : Byte) (rest : List Byte) : Statement (.unknown op rest) := fun _ _ => rfl

theorem addrRead (a : BitVec 7) : Statement (.addrRead a) := fun _ _ => rfl

theorem addrWrite (a : BitVec 7) : Statement (.addrWrite a) := fun _ _ => rfl

theorem addrBroadcast : Statement .addrBroadcast := fun _ _ => rfl

theorem rjmp (k : BitVec 12) : Statement (.rjmp k) := fun _ _ => rfl

theorem entryJump (k : BitVec 12) : Statement (.entryJump k) := fun _ _ => rfl

theorem trampoline (k : BitVec 12) : Statement (.trampoline k) := fun _ _ => rfl

end Sys2Proof.Laws.EncodeLength
end

