-- ==== Sys2Proof/Laws/Traffic.lean ====
section
/-! SUPPORT. How a transaction runs, step by step: a write transaction that brings bytes in,
    a read transaction that sends
bytes out, and that a command's effect does not depend on what a transaction changes before it. -/

namespace Sys2Proof.Machine

open Sys2Proof

/-- Without an auto-launch and without a completed transaction the rest of a pass only counts. -/
theorem finishPass_idleCount {t : State} (h : t.NoAutoLaunch) (hs : t.flag .slowOpsReady = false) :
    ∃ n, finishPass t = { t with idleCount := n } := by
  rw [finishPass_of_not_slow hs]
  by_cases hin : initialized t = true
  · rw [if_pos hin]; exact ⟨t.idleCount, rfl⟩
  · rw [if_neg hin]
    have hz : t.cfg.autoLaunchPasses = 0 := by rcases h with h | h; exact absurd h hin; exact h
    obtain ⟨h, -⟩ | ⟨-, he⟩ := idleTick_cases t
    · rw [hz] at h; omega
    · exact ⟨_, he⟩

/-- A turn of bus events that all are delivered, and the pass after it. -/
theorem step_of_turn {s u : State} {es rest} (hh : s.host = .bus es :: rest) (hd : deliverAll es { s with host :=
    rest } = .ok u) (hr : u.Runs) :
    step s = .next (pass u) := step_eq_pass (by unfold Delivered; rw [hh]; exact hd) hr

/-- `t` after a clock that sets the shift-complete flag of a one-bit shift. -/
abbrev State.afterClock (t : State) (h : List Turn) (l : List Bool) (dw : Nat) (scl hostSda : Bool) (dr : Byte) : State :=
  { t with
    host := h
    seen := l
    draws := dw
    periph := { t.periph with scl := scl, hostSda := hostSda, dr := dr, shifted := 1, ovfFlag := true } }

/-- `s` after a start condition and the first fall of the clock. -/
abbrev State.afterStart (s : State) (h : List Turn) : State :=
  { s with host := h, periph := { s.periph with startFlag := true, scl := false, hostSda := false } }

/-- A write transaction that began in `s` stands here: phase, drive and bit count, RX,
    what the host has seen and what it
does next. -/
structure Receiving (s : State) (ph : Phase) (drv : Bool) (bc : BitCount) (q : Ring) (l : List Bool) (h : List Turn)
    (t : State) : Prop where
  cfg : t.cfg = s.cfg
  ph : t.phase = ph
  ar : t.armed = true
  dv : t.sdaDrive = drv
  bc : t.bitCount = bc
  fl : t.flags = (s.lower .slowOpsReady).flags
  rx : t.rx = q
  tx : t.tx = s.tx
  seen : t.seen = l
  host : t.host = h
  flash : t.flash = s.flash
  wr : SameWriter s t
  run : t.Runs
  st : t.periph.startFlag = false
  ov : t.periph.ovfFlag = false
  sh : t.periph.shifted = 0
  dr : drv = true → t.periph.dr = 0

/-- Lowering SlowOpsReady twice. -/
theorem lower_of_lowered {s t : State} (h : t.flags = (s.lower .slowOpsReady).flags) : (t.lower .slowOpsReady).flags
    = t.flags ∧ t.flag .slowOpsReady = false := by
  have : t.flag .slowOpsReady = false := by rw [State.flag_congr h]; exact lower_slow s
  refine ⟨?_, this⟩
  rw [State.lower_flags, h, State.lower_flags, BitVec.and_assoc, BitVec.and_self]

theorem noAutoLaunch_lowered {s t : State} (h : s.NoAutoLaunch) (hc : t.cfg = s.cfg)
    (hf : t.flags = (s.lower .slowOpsReady).flags) : t.NoAutoLaunch := by
  unfold State.NoAutoLaunch at *
  rw [hc, initialized_congr (t := s.lower .slowOpsReady) hc hf, initialized_lower]; exact h

/-- The device drives its ACK for one clock. -/
theorem step_ackOut {s t : State} {q l h} (hs : s.NoAutoLaunch)
    (w : Receiving s .waitReceive true .one q l (releaseTurn :: h) t) :
    ∃ t', step t = .next t' ∧ Receiving s .receiveAndAck false .eight q (false :: l) h t' := by
  have hr := w.run
  have hdel : deliverAll [.clock true] { t with host := h } = .ok ((({ t with host := h } : State)).clockBit true) := by
    rw [deliverAll, deliver_clock true (by exact hr.2.1) (by exact w.st) (by exact w.ov)]; rfl
  have hstep := step_of_turn (s := t) w.host hdel (by exact hr)
  have hcl : (({ t with host := h } : State)).clockBit true =
      t.afterClock h (false :: l) (t.draws + 1) false true (({ t with host := h } : State).shiftIn false) := by
    have hl : ({ t with host := h } : State).lineLevel true = false := by
      unfold State.lineLevel; simp only [w.dv, w.dr rfl]; rfl
    unfold State.clockBit
    rw [hl]
    simp only [State.afterClock, w.ar, if_true, w.dv, w.seen, w.sh, w.bc, BitCount.toNat, w.ov]; rfl
  rw [hcl] at hstep
  rw [pass_of_shiftComplete (s := _) (by exact ⟨w.ar, rfl, w.st⟩)] at hstep
  have hov : ∀ x : State, x.phase = .waitReceive →
      overflowHandler x = (x.receiveByte.withPhase .receiveAndAck).clearOvf := fun x hx => by
    unfold overflowHandler; rw [hx]; rfl
  rw [hov _ (by exact w.ph)] at hstep
  have hlow := lower_of_lowered w.fl
  obtain ⟨n, hn⟩ := finishPass_idleCount
    (t := (((t.afterClock h (false :: l) (t.draws + 1) false true
      (({ t with host := h } : State).shiftIn false)).lower .slowOpsReady).receiveByte.withPhase .receiveAndAck).clearOvf)
    (noAutoLaunch_lowered hs w.cfg (hlow.1.trans w.fl)) (lower_slow _)
  rw [hn] at hstep
  exact ⟨_, hstep, w.cfg, rfl, w.ar, rfl, rfl, hlow.1.trans w.fl, w.rx, w.tx, rfl, rfl, w.flash, w.wr, w.run, w.st,
      rfl, rfl, fun h => by cases h⟩

/-- Eight clocks bring a byte into dr, and the pass after them handles it. -/
theorem step_byteIn {s t : State} {q l h ph} (b : Byte)
    (w : Receiving s ph false .eight q l (byteTurn b :: h) t) :
    ∃ u, u.Runs ∧ step t = .next (pass u) ∧ u.ShiftComplete ∧ u.periph.dr = b ∧
      ∃ p, u = { t with host := h, seen := bitsSeen b ++ l, periph := p } := by
  have hr := w.run
  obtain ⟨x, y, hdel⟩ := clocks_in (s := { t with host := h }) ((List.range 8).map fun i => b.getLsbD (7 - i))
    hr.2.1 w.st w.ar w.dv w.ov
    (by show t.periph.shifted < t.bitCount.toNat; rw [w.sh, w.bc]; decide)
    (by show t.periph.shifted + 8 ≤ t.bitCount.toNat; rw [w.sh, w.bc]; decide)
  rw [← byteClocks_eq] at hdel
  refine ⟨_, ?_, step_of_turn w.host hdel ?_, ⟨w.ar, ?_, w.st⟩, shiftedIn_byte _ _, ?_⟩
  · exact hr
  · exact hr
  · show decide (t.bitCount.toNat ≤ t.periph.shifted + 8) = true
    rw [w.sh, w.bc]; rfl
  · rw [← bitsSeen_eq]; exact ⟨_, by rw [← w.seen]⟩

/-- A data byte is pushed and acknowledged (R136). -/
theorem step_dataIn {s t : State} {q l h} (b : Byte) (hs : s.NoAutoLaunch)
    (w : Receiving s .receiveAndAck false .eight q l (byteTurn b :: h) t) :
    ∃ t', step t = .next t' ∧ Receiving s .waitReceive true .one (q.push s.cfg.rxCap b) (bitsSeen b ++ l) h t' := by
  obtain ⟨u, hr, hstep, hsc, hdr, p, hu⟩ := step_byteIn b w
  rw [pass_of_shiftComplete hsc] at hstep
  have hov : ∀ x : State, x.phase = .receiveAndAck →
      overflowHandler x = ((x.receive x.periph.dr).sendAck.withPhase .waitReceive).clearOvf := fun x hx => by
    unfold overflowHandler; rw [hx]; rfl
  rw [hov _ (by rw [hu]; exact w.ph)] at hstep
  have hlow := lower_of_lowered w.fl
  obtain ⟨n, hn⟩ := finishPass_idleCount (t :=
      ((((u.lower .slowOpsReady).receive (u.lower .slowOpsReady).periph.dr).sendAck.withPhase
      .waitReceive).clearOvf)) (by rw [hu]; exact (noAutoLaunch_lowered hs w.cfg (hlow.1.trans w.fl))) (lower_slow _)
  rw [hn] at hstep
  refine ⟨_, hstep, ?_⟩
  subst hu
  refine ⟨w.cfg, rfl, w.ar, rfl, rfl, hlow.1.trans w.fl, ?_, w.tx, rfl, rfl, w.flash, w.wr, w.run, hsc.2.2, rfl, rfl,
      fun _ => rfl⟩
  show t.rx.push t.cfg.rxCap p.dr = _
  rw [w.rx, w.cfg, show p.dr = b from hdr]

/-- Any number of data bytes, each with its acknowledgment (R141). -/
theorem run_dataIn (s : State) (hs : s.NoAutoLaunch) (rest : List Turn) : ∀ (bs : List Byte) (t : State) (q : Ring)
    (l : List Bool),
    Receiving s .receiveAndAck false .eight q l (bs.flatMap sendTurns ++ rest) t →
    ∃ t', Sys2Proof.core.run (2 * bs.length) t = .next t' ∧
      Receiving s .receiveAndAck false .eight (Ring.pushAll s.cfg.rxCap q bs)
          ((bs.reverse.flatMap fun b => false :: bitsSeen b) ++ l) rest t'
  | [], t, q, l, w => ⟨t, rfl, by simpa [Ring.pushAll] using w⟩
  | b :: bs, t, q, l, w => by
    have hh : (b :: bs).flatMap sendTurns ++ rest = byteTurn b :: releaseTurn :: (bs.flatMap sendTurns ++ rest) := by
      simp [sendTurns]
    rw [hh] at w
    obtain ⟨t1, h1, w1⟩ := step_dataIn b hs w
    obtain ⟨t2, h2, w2⟩ := step_ackOut hs w1
    obtain ⟨t3, h3, w3⟩ := run_dataIn s hs rest bs t2 _ _ w2
    refine ⟨t3, ?_, ?_⟩
    · show Sys2Proof.core.run (2 * bs.length + 1 + 1) t = _
      rw [run_succ h1, run_succ h2]; exact h3
    · have : (b :: bs).reverse.flatMap (fun b => false :: bitsSeen b) ++ l = (bs.reverse.flatMap fun b => false ::
        bitsSeen b) ++ (false :: (bitsSeen b ++ l)) := by
        simp [List.flatMap_append]
      rw [this]; exact w3

/-- A start condition of an idle block opens a transaction (R122). -/
theorem step_start {s : State} {h} (hs : s.NoAutoLaunch) (hr : s.Runs) (hi : idle s = true)
    (hh : s.host = startTurn :: h) :
    ∃ t', step s = .next t' ∧ Receiving s .checkAddress false .eight s.rx s.seen h t' := by
  have ha : s.armed = false := by unfold idle at hi; simp at hi; exact hi.2
  have hdel : deliverAll [.start, .clockLow] { s with host := h } = .ok (s.afterStart h) := by
    simp [deliverAll, deliver, quietGap, nackPending, ha, hr.2.1]
  have hstep := step_of_turn hh hdel hr
  obtain ⟨-, h2, -⟩ | ⟨-, -, he⟩ | ⟨h1, -⟩ | ⟨h1, -⟩ | ⟨h1, -⟩ := pass_cases (s.afterStart h)
  · cases h2
  · rw [he] at hstep
    obtain ⟨-, hsh⟩ | ⟨hc, -⟩ := startHandler_cases ((s.afterStart h).lower .slowOpsReady)
    · rw [hsh] at hstep
      obtain ⟨n, hn⟩ := finishPass_idleCount
        (t := { ((s.afterStart h).lower .slowOpsReady) with
          phase := .checkAddress
          armed := true
          sdaDrive := false
          bitCount := .eight
          periph :=
            { ((s.afterStart h).lower .slowOpsReady).periph with
              startFlag := false
              stopFlag := false
              ovfFlag := false
              shifted := 0 } })
        (noAutoLaunch_lowered hs rfl rfl) (lower_slow _)
      rw [hn] at hstep
      exact ⟨_, hstep, rfl, rfl, rfl, rfl, rfl, rfl, rfl, rfl, rfl, rfl, rfl, ⟨rfl, rfl, rfl, rfl, rfl⟩, hr, rfl,
          rfl, rfl, fun h => by cases h⟩
    · cases hc
  all_goals cases h1

/-- A write address is acknowledged (R125). -/
theorem step_writeAddress {s t : State} {q l h} (b : Byte) (hs : s.NoAutoLaunch) (hw : isWrite s.cfg b = true)
    (w : Receiving s .checkAddress false .eight q l (byteTurn b :: h) t) :
    ∃ t', step t = .next t' ∧ Receiving s .waitReceive true .one q (bitsSeen b ++ l) h t' := by
  obtain ⟨u, hr, hstep, hsc, hdr, p, hu⟩ := step_byteIn b w
  rw [pass_of_shiftComplete hsc] at hstep
  have hov : overflowHandler (u.lower .slowOpsReady) = writeArm (u.lower .slowOpsReady) := by
    have : overflowHandler (u.lower .slowOpsReady) = checkAddress (u.lower .slowOpsReady) := by
      unfold overflowHandler; rw [show (u.lower .slowOpsReady).phase = .checkAddress by rw [hu]; exact w.ph]
    have hc : u.cfg = s.cfg := by rw [hu]; exact w.cfg
    rw [this, checkAddress_eq, State.lower_cfg, State.lower_periph, hdr, hc, if_neg, if_pos hw]
    intro h; unfold isRead at h; unfold isWrite at hw; simp at h hw; rw [h.2] at hw; exact absurd hw.2 (by decide)
  rw [hov] at hstep
  have hlow := lower_of_lowered w.fl
  obtain ⟨n, hn⟩ := finishPass_idleCount (t :=
      writeArm (u.lower .slowOpsReady)) (by rw [hu]; exact (noAutoLaunch_lowered hs w.cfg (hlow.1.trans w.fl)))
      (lower_slow _)
  rw [hn] at hstep
  refine ⟨_, hstep, ?_⟩
  subst hu
  exact ⟨w.cfg, rfl, w.ar, rfl, rfl, hlow.1.trans w.fl, w.rx, w.tx, rfl, rfl, w.flash, w.wr, w.run, hsc.2.2, rfl,
      rfl, fun _ => rfl⟩

/-- Two states a command cannot tell apart: same build, flash, writer, flags but SlowOpsReady, and live TX bytes. -/
structure SameCommand (s t : State) : Prop where
  legal : s.cfg.Legal
  cfg : t.cfg = s.cfg
  flash : t.flash = s.flash
  wr : SameWriter s t
  fl : OtherFlags .slowOpsReady s t
  ws : s.tx.Wf s.cfg.txCap
  wt : t.tx.Wf s.cfg.txCap
  tx : t.tx.contents s.cfg.txCap = s.tx.contents s.cfg.txCap

theorem sameCommand_reply {s t : State} (h : SameCommand s t) (bs : List Byte) : SameCommand (s.reply bs)
    (t.reply bs) where
  legal := h.legal
  cfg := h.cfg
  flash := h.flash
  wr := h.wr
  fl := h.fl
  ws := Ring.wf_pushAll h.legal.txCap.1 bs h.ws
  wt := by show (Ring.pushAll t.cfg.txCap t.tx bs).Wf _; rw [h.cfg]; exact Ring.wf_pushAll h.legal.txCap.1 bs h.wt
  tx := by
    show (Ring.pushAll t.cfg.txCap t.tx bs).contents s.cfg.txCap = _
    rw [h.cfg, Ring.contents_pushAll h.legal.txCap.1 bs h.wt, h.tx]
    exact (Ring.contents_pushAll h.legal.txCap.1 bs h.ws).symm

theorem sameCommand_raise {s t : State} (h : SameCommand s t) (f : Flag) : SameCommand (s.raise f) (t.raise f) :=
  { h with fl := fun i hi => by rw [State.raise_bit, State.raise_bit, h.fl i hi] }

theorem sameCommand_stageBytes : ∀ (d : List Byte) {s t : State},
    SameCommand s t → SameCommand (stageBytes d s) (stageBytes d t)
  | [], _, _, h => h
  | b :: d, s, t, h => by
    apply sameCommand_stageBytes d
    obtain ⟨w1, w2, w3, w4, w5⟩ := h.wr
    have hd : stageDest t = stageDest s := by unfold stageDest; rw [w1, w2]
    have hs : stagedByte t b = stagedByte s b := by unfold stagedByte; rw [hd, h.cfg]
    have hfl : ∀ s b, (stageByte s b).flash = s.flash := fun s b => by
      obtain ⟨_, _, _, _, _, _, _, h⟩ := onlyCommand_stageByte s b; rw [h]
    refine ⟨?_, ?_, ?_, ⟨?_, ?_, ?_, ?_, ?_⟩, ?_, ?_, ?_, ?_⟩
    · rw [stageByte_cfg]; exact h.legal
    · rw [stageByte_cfg, stageByte_cfg, h.cfg]
    · rw [hfl, hfl, h.flash]
    · rw [stageByte_pageAddress, stageByte_pageAddress, w1]
    · rw [stageByte_pageIndex, stageByte_pageIndex, w2]
    · rw [stageByte_lsb, stageByte_lsb, hd, w3]
    · rw [stageByte_msb, stageByte_msb, hd, w4]
    · rw [stageByte_stage, stageByte_stage, hs, w2, w5]
    · intro i hi; rw [stageByte_flags, stageByte_flags]; exact h.fl i hi
    · rw [stageByte_cfg, stageByte_tx]; exact h.ws
    · rw [stageByte_cfg, stageByte_tx]; exact h.wt
    · rw [stageByte_cfg, stageByte_tx, stageByte_tx]; exact h.tx

/-- A command does the same in two states it cannot tell apart. -/
theorem sameCommand_runCommand (i : Instr) {s t : State} (h : SameCommand s t) : SameCommand (runCommand i s)
    (runCommand i t) := by
  have hu : SameCommand (unknownCommand s)
      (unknownCommand t) := by unfold unknownCommand; rw [h.cfg]; exact sameCommand_reply h _
  cases i with
  | getVersion =>
    show SameCommand (getVersion s) (getVersion t)
    unfold getVersion
    have : versionReply t = versionReply s := by unfold versionReply State.flashRead; rw [h.cfg, h.flash]
    rw [this, h.cfg]; exact sameCommand_raise (sameCommand_reply h _) _
  | exit =>
    show SameCommand (exitToApp s) (exitToApp t)
    unfold exitToApp; rw [h.cfg]; exact sameCommand_raise (sameCommand_reply h _) _
  | deleteFlash =>
    show SameCommand (requestErase s) (requestErase t)
    unfold requestErase; rw [h.cfg]; exact sameCommand_raise (sameCommand_reply h _) _
  | setPageAddr hi lo =>
    show SameCommand (setPageAddress hi lo s) (setPageAddress hi lo t)
    cases hp : s.cfg.present .setPageAddr
    · have e1 : setPageAddress hi lo s = unknownCommand s := by unfold setPageAddress; rw [hp]; rfl
      have e2 : setPageAddress hi lo t = unknownCommand t := by unfold setPageAddress; rw [h.cfg, hp]; rfl
      rw [e1, e2]; exact hu
    · have e1 : ∀ s : State, s.cfg.present .setPageAddr = true →
          setPageAddress hi lo s =
            ({ s with pageAddress := wordOf hi lo &&& ~~~s.cfg.pageMask } : State).reply [s.cfg.ackSetPageAddr, hi + lo] :=
        fun s hp => by unfold setPageAddress; rw [hp]; rfl
      rw [e1 s hp, e1 t (by rw [h.cfg]; exact hp), show t.cfg.ackSetPageAddr = s.cfg.ackSetPageAddr by rw [h.cfg]]
      apply sameCommand_reply
      obtain ⟨w1, w2, w3, w4, w5⟩ := h.wr
      exact { h with wr := ⟨by show wordOf hi lo &&& ~~~t.cfg.pageMask = _; rw [h.cfg], w2, w3, w4, w5⟩ }
  | writePage d cs =>
    show SameCommand (writePage d cs s) (writePage d cs t); unfold writePage
    have : fits d t = fits d s := by unfold fits; rw [h.cfg, h.wr.2.1]
    rw [this, h.cfg]
    split
    · simp only; split
      · exact sameCommand_reply (sameCommand_stageBytes d h) _
      · exact sameCommand_reply (sameCommand_raise (sameCommand_stageBytes d h) _) _
    · exact sameCommand_reply (sameCommand_raise h _) _
  | readFlash hi lo len rcs =>
    show SameCommand (readFlash hi lo len rcs s) (readFlash hi lo len rcs t); unfold readFlash
    have : readValid hi lo len rcs t = readValid hi lo len rcs s := by unfold readValid; rw [h.cfg]
    have hm : ∀ a n, t.memRead a n = s.memRead a n := fun a n => by unfold State.memRead State.flashRead; rw [h.cfg,
        h.flash]
    rw [this, h.cfg]
    split
    · simp only [hm]; exact sameCommand_reply h _
    · exact hu
  | softInit =>
    show SameCommand (softInit s) (softInit t); unfold softInit; rw [h.cfg]
    split
    · exact sameCommand_raise (sameCommand_reply h _) _
    · exact hu
  | unknown _ _ => exact hu
  | addrRead _ | addrWrite _ | addrBroadcast | rjmp _ | entryJump _ | trampoline _ => exact h

/-- A read transaction whose dispatch left `v` stands here: phase, drive and bit count, the live TX bytes,
    what the host has
seen and what it does next. -/
structure Sending (v : State) (ph : Phase) (drv : Bool) (bc : BitCount) (x : List Byte) (l : List Bool)
    (h : List Turn) (t : State) : Prop where
  legal : v.cfg.Legal
  cfg : t.cfg = v.cfg
  ph : t.phase = ph
  ar : t.armed = true
  dv : t.sdaDrive = drv
  bc : t.bitCount = bc
  fl : OtherFlags .slowOpsReady v t
  rx : t.frame = []
  txw : t.tx.Wf v.cfg.txCap
  tx : t.tx.contents v.cfg.txCap = x
  seen : t.seen = l
  host : t.host = h
  flash : t.flash = v.flash
  wr : SameWriter v t
  run : t.Runs
  st : t.periph.startFlag = false
  ov : t.periph.ovfFlag = false
  sh : t.periph.shifted = 0

/-- One clock in a phase of one bit. -/
theorem step_oneClock {v t : State} {ph drv x l h} (b : Bool) (w : Sending v ph drv .one x l (.bus [.clock b] :: h) t)
    (hd : drv = true → t.periph.dr = 0) (hd' : drv = false → t.periph.dr = 0) :
    ∃ u dr dw scl, u = t.afterClock h ((b && !drv) :: l) dw scl b dr ∧ u.ShiftComplete ∧ u.Runs ∧
      step t = .next (pass u) ∧ (drv = false → dr.getLsbD 0 = b) := by
  have hr := w.run
  have hdel : deliverAll [.clock b] { t with host := h } = .ok ((({ t with host := h } : State)).clockBit b) := by
    rw [deliverAll, deliver_clock b (by exact hr.2.1) (by exact w.st) (by exact w.ov)]; rfl
  have hstep := step_of_turn (s := t) w.host hdel (by exact hr)
  have hl : ({ t with host := h } : State).lineLevel b = (b && !drv) := by
    unfold State.lineLevel; simp only [w.dv]
    cases drv
    · simp
    · simp [hd rfl]
  have hcl : (({ t with host := h } : State)).clockBit b =
      t.afterClock h ((b && !drv) :: l) (if t.sdaDrive then t.draws + 1 else t.draws) false b
        (({ t with host := h } : State).shiftIn (b && !drv)) := by
    unfold State.clockBit
    rw [hl]
    simp only [State.afterClock, w.ar, if_true, w.seen, w.sh, w.bc, BitCount.toNat, w.ov]; rfl
  rw [hcl] at hstep
  refine ⟨_, _, _, _, rfl, ⟨w.ar, rfl, w.st⟩, hr, hstep, ?_⟩
  intro hdf
  unfold State.shiftIn
  rw [show ({ t with host := h } : State).sdaDrive = false from by rw [← hdf]; exact w.dv]
  show (t.periph.dr <<< 1 ||| _).getLsbD 0 = b
  rw [hd' hdf, hdf]
  cases b <;> simp

/-- The next reply byte is loaded (R127). -/
theorem pass_loadsNext {v t u : State} {ph drv y x l h} (w : Sending v ph drv .one (y :: x) l h t)
    (hi : initialized v = true) (l' h') (dr dw scl hostSda)
    (hu : u = t.afterClock h' l' dw scl hostSda dr)
    (hsc : u.ShiftComplete) (hp : ph = .sendData ∨ ph = .checkAck ∧ dr.getLsbD 0 = false) :
    Sending v .waitAckAfterSend true .eight x l' h' (pass u) ∧ (pass u).periph.dr = y := by
  have hn : 0 < t.tx.count := by
    have := Ring.contents_length w.legal.txCap.1 w.txw
    rw [w.tx] at this; simp at this; omega
  have hpop := Ring.contents_pop (cap := v.cfg.txCap) hn
  rw [w.tx] at hpop
  rw [pass_of_shiftComplete hsc]
  have hov : overflowHandler (u.lower .slowOpsReady) = (((u.lower .slowOpsReady).sendNext.withPhase
      .waitAckAfterSend).clearOvf) := by
    have h1 : overflowHandler (u.lower .slowOpsReady) = sendDataAction (u.lower .slowOpsReady) := by
      rcases hp with hp | ⟨hp, hd⟩
      · unfold overflowHandler; rw [show (u.lower .slowOpsReady).phase = .sendData by rw [hu]; exact w.ph.trans hp]
      · unfold overflowHandler; rw [show (u.lower .slowOpsReady).phase = .checkAck by rw [hu]; exact w.ph.trans hp]
        simp only [checkAck]
        rw [if_neg]
        rw [show (u.lower .slowOpsReady).periph.dr = dr by rw [hu]; rfl, hd]; decide
    rw [h1]; unfold sendDataAction; rw [if_pos]; rw [hu]; exact hn
  rw [hov, finishPass_eq_self]
  rotate_left
  · have : initialized (((u.lower .slowOpsReady).sendNext.withPhase .waitAckAfterSend).clearOvf) = initialized v := by
      apply initialized_of_otherFlags
      · rw [hu]; exact w.cfg
      · rw [hu]; exact otherFlags_lower w.fl
    rw [this]; exact hi
  · rw [hu]; exact lower_slow _
  · subst hu
    have hc := w.cfg
    refine ⟨⟨w.legal, w.cfg, rfl, w.ar, rfl, rfl, otherFlags_lower w.fl, w.rx, ?_, ?_, rfl, rfl, w.flash, w.wr,
        w.run, hsc.2.2, rfl, rfl⟩, ?_⟩
    · show ((t.tx.pop t.cfg.txCap).2).Wf _; rw [hc]; exact Ring.wf_pop w.legal.txCap.1 w.txw hn
    · show ((t.tx.pop t.cfg.txCap).2).contents _ = _; rw [hc]; exact (List.cons.inj hpop).2.symm
    · show (t.tx.pop t.cfg.txCap).1 = _; rw [hc]; exact (List.cons.inj hpop).1.symm

/-- The byte goes out, most significant bit first (R128, R264). -/
theorem step_byteOut {v t : State} {x l h} (hi : initialized v = true)
    (w : Sending v .waitAckAfterSend true .eight x l (byteTurn 0xFF#8 :: h) t) :
    ∃ t', step t = .next t' ∧ Sending v .checkAck false .one x (bitsSeen t.periph.dr ++ l) h t' ∧
        t'.periph.dr = 0 := by
  obtain ⟨a, b, dr, dw, -, -, hdel⟩ := clocks_out 8 (s := { t with host := h }) w.run.2.1 w.st w.ar w.dv w.bc w.ov w.sh (Nat.le_refl _)
  have hb : byteClocks 0xFF#8 = List.replicate 8 (.clock true) := by decide
  rw [← hb] at hdel
  have hst := step_of_turn w.host hdel w.run
  rw [pass_of_shiftComplete (s := _) (by exact ⟨w.ar, rfl, w.st⟩)] at hst
  have hov : ∀ x : State, x.phase = .waitAckAfterSend →
      overflowHandler x = (x.readAck.withPhase .checkAck).clearOvf := fun x hx => by
    unfold overflowHandler; rw [hx]; rfl
  rw [hov _ (by exact w.ph), finishPass_eq_self] at hst
  · refine ⟨_, hst, ⟨w.legal, w.cfg, rfl, w.ar, rfl, rfl, otherFlags_lower w.fl, w.rx, w.txw, w.tx, ?_, rfl, w.flash,
      w.wr, w.run, w.st, rfl, rfl⟩, rfl⟩
    show bitsSeen t.periph.dr ++ t.seen = _; rw [w.seen]
  · rw [← hi]; exact initialized_of_otherFlags w.cfg (otherFlags_lower w.fl)
  · exact lower_slow _

/-- The host reads and acknowledges n bytes (R142). -/
theorem run_bytesOut (v : State) (hi : initialized v = true) (rest : List Turn) : ∀ (n : Nat) (t : State) (y : Byte)
    (x : List Byte) (l : List Bool),
    Sending v .waitAckAfterSend true .eight x l ((List.replicate n (readTurns ackTurn)).flatten ++ rest) t →
        t.periph.dr = y → n ≤ x.length →
    ∃ t', Sys2Proof.core.run (2 * n) t = .next t' ∧
      Sending v .waitAckAfterSend true .eight (x.drop n)
          ((((y :: x).take n).reverse.flatMap fun b => false :: bitsSeen b) ++ l) rest t' ∧
          t'.periph.dr = (y :: x).getD n 0
  | 0, t, y, x, l, w, hy, _ => ⟨t, rfl, by simpa using w, by simpa using hy⟩
  | n + 1, t, y, x, l, w, hy, hl => by
    obtain ⟨z, x, rfl⟩ : ∃ z x', x = z :: x' := by cases x with | nil => simp at hl | cons z x => exact ⟨z, x, rfl⟩
    have hh : (List.replicate (n + 1)
        (readTurns ackTurn)).flatten ++ rest = byteTurn 0xFF#8 :: .bus [.clock false] :: ((List.replicate n
        (readTurns ackTurn)).flatten ++ rest) := by
      simp [List.replicate_succ, readTurns, ackTurn]
    rw [hh] at w
    obtain ⟨t1, h1, w1, d1⟩ := step_byteOut hi w
    obtain ⟨u, dr, dw, scl, hu, hsc, hr, h2, hb⟩ := step_oneClock false w1 (fun h => by cases h) (fun _ => d1)
    obtain ⟨w2, d2⟩ := pass_loadsNext w1 hi _ _ dr dw scl _ hu hsc (.inr ⟨rfl, hb rfl⟩)
    obtain ⟨t3, h3, w3, d3⟩ := run_bytesOut v hi rest n (pass u) z x _ w2 d2 (by simpa using hl)
    refine ⟨t3, ?_, ?_, d3⟩
    · show Sys2Proof.core.run (2 * n + 1 + 1) t = _
      rw [run_succ h1, run_succ h2]; exact h3
    · have : (((y :: z :: x).take (n + 1)).reverse.flatMap fun b => false :: bitsSeen b) ++ l = (((z :: x).take
        n).reverse.flatMap fun b => false :: bitsSeen b) ++ (false :: (bitsSeen y ++ l)) := by
        simp [List.flatMap_append]
      rw [this]; rw [hy] at w3; exact w3

end Sys2Proof.Machine
end

