-- ==== Sys2Proof/Tests/Slice0.lean ====
section
/-! SUPPORT. Tests: what WellFormed refuses, words written out from 30_encoding.md, the vectors of 95_test_vectors.md, and a
witness for the hypotheses of every statement of Certificates/Slice0/Obligations.lean. Expected values are those of the
vectors and examples of spec/ named at each test; opcode and acknowledge bytes are those of `Config.reference`. -/

namespace Sys2Proof.Tests

open Sys2Proof Sys2Proof.Machine

/-! ## Builds and states -/

/-- The build with Set-Page-Address (AUTO_PAGE_ADDR = false). -/
def manualBuild : Config := { Config.reference with autoPageAddr := false }

/-- The build with the two-step handshake. -/
def twoStepBuild : Config := { Config.reference with handshake := .twoStep }

/-- The build without Read-Flash. -/
def noReadBuild : Config := { Config.reference with featureReadFlash := false }

/-- The build with one data byte in a packet. -/
def oneByteBuild : Config := { Config.reference with packetSize := 1 }

/-- The build in which the application may use the trampoline page (V49). -/
def sharedPageBuild : Config := { manualBuild with appUsesTrampolinePage := true }

/-- The build that restarts by the watchdog. -/
def watchdogBuild : Config := { Config.reference with restartMode := .watchdog }

/-- The build that launches by itself after 5 passes (V53). -/
def autoLaunchBuild : Config := { Config.reference with autoLaunchPasses := 5 }

/-- The build with AUTO_PAGE_ADDR in which the application may use the trampoline page. -/
def sharedAutoBuild : Config := { Config.reference with appUsesTrampolinePage := true }

/-- The build that programs a page without erasing it. -/
def writeOnlyBuild : Config := { Config.reference with eraseBeforeWrite := false }

theorem test_builds_are_legal :
    Config.reference.Legal ∧ manualBuild.Legal ∧ twoStepBuild.Legal ∧ noReadBuild.Legal ∧ oneByteBuild.Legal ∧
      sharedPageBuild.Legal ∧ watchdogBuild.Legal ∧ autoLaunchBuild.Legal ∧ sharedAutoBuild.Legal ∧
      writeOnlyBuild.Legal :=
  ⟨by decide, by decide, by decide, by decide, by decide, by decide, by decide, by decide, by decide, by decide⟩

/-- An initialized idle block (flags = Init1), the end of P1's second transaction but for its idle count. -/
def block : State := { State.reset with flags := 0x01#8 }

/-- The block of another build. -/
def blockOf (c : Config) : State := { block with cfg := c }

/-- The block with these bytes in RX. -/
def withFrame (bs : List Byte) (s : State) : State := { s with rx := Ring.pushAll s.cfg.rxCap s.rx bs }

/-- The block with these bytes in TX. -/
def withReply (bs : List Byte) (s : State) : State := s.reply bs

/-- The block with the shift-complete of `p` pending and `d` in the shift register. -/
def atShift (p : Phase) (d : Byte) (s : State) : State :=
  { s with phase := p, armed := true, periph := { s.periph with ovfFlag := true, dr := d } }

/-- The block at the NACK that completes a transaction. -/
def atNack (s : State) : State := { atShift .checkAck 0x01#8 s with bitCount := .one }

/-- The block with `n` bytes staged for page `p`, all equal to `b`. -/
def staged (p : Word) (n : Byte) (b : Byte) (s : State) : State :=
  { s with pageAddress := p, pageIndex := n, stage := List.replicate s.cfg.pageSize b }

/-- The state an outcome ends in, if it is a next state. -/
def nextOf : Result → Option State
  | .next s => some s
  | .fault _ => none
  | .refused _ => none

/-- What a test looks at in the next state. -/
def look {α : Type} (r : Result) (f : State → α) : Option α := (nextOf r).map f

/-- The invariant of a running state, from its decidable parts. -/
theorem inv_of_checks (s : State) (hrun : s.run = .running) (h1 : s.cfg.Legal) (h2 : Memory.wf s.flash = true)
    (h3 : s.flash.all (fun c => decide (c.1 < s.cfg.flashBytes)) = true)
    (h4 : s.pageAddress &&& s.cfg.pageMask = 0#16 ∧ s.pageIndex.toNat ≤ s.cfg.pageSize ∧
      s.stage.length = s.cfg.pageSize ∧ s.rx.Wf s.cfg.rxCap ∧ s.tx.Wf s.cfg.txCap ∧ s.flags >>> 5 = 0#8)
    (h5 : (s.flag .slowOpsReady = true → idle s = true) ∧
      (s.armed = false → s.phase = .checkAddress ∧ s.sdaDrive = false ∧ s.bitCount = .eight) ∧
      s.interruptsEnabled = false ∧ (s.periph.ovfFlag = false → s.periph.shifted < s.bitCount.toNat)) : s.Inv where
  legal := h1
  flash_wf := h2
  flash_below := fun c hc => by simpa using List.all_eq_true.1 h3 c hc
  page_aligned := h4.1
  page_index := h4.2.1
  stage_length := h4.2.2.1
  rx_wf := h4.2.2.2.1
  tx_wf := h4.2.2.2.2.1
  flags_reserved := h4.2.2.2.2.2
  slow_idle := h5.1
  unarmed := h5.2.1
  interrupts_off := h5.2.2.1
  launch_target := fun w h => by rw [hrun] at h; cases h
  bits_counted := h5.2.2.2

/-! ## WellFormed refuses an ill-formed term of each check -/

theorem test_wf_setPageAddr_absent : (Instr.setPageAddr 0x01#8 0x7F#8).wf Config.reference = false := by decide
theorem test_wf_writePage_length : (Instr.writePage [0x01#8, 0x02#8] 0x03#8).wf Config.reference = false := by decide
theorem test_wf_readFlash_absent : (Instr.readFlash 0x01#8 0x00#8 0x04#8 0x05#8).wf noReadBuild = false := by decide
theorem test_wf_softInit_absent : Instr.softInit.wf Config.reference = false := by decide
theorem test_wf_unknown_is_known : (Instr.unknown Config.reference.opcExit []).wf Config.reference = false := by decide
theorem test_wf_unknown_short :
    (Instr.unknown Config.reference.opcReadFlash [0x01#8, 0x00#8, 0x04#8]).wf Config.reference = true := by decide
theorem test_wf_addrWrite_zero : (Instr.addrWrite 0#7).wf Config.reference = false := by decide
theorem test_wf_entryJump_displacement : (Instr.entryJump 0xCFE#12).wf Config.reference = false := by decide
theorem test_standsIn_entryJump_elsewhere : (Instr.entryJump 0xCFF#12).standsIn Config.reference (.cpu 1#12) = false := by
  decide
theorem test_standsIn_frame_is_no_address : Instr.exit.standsIn Config.reference .address = false := by decide
theorem test_legal_ownAddr_zero : ¬({ Config.reference with ownAddr := 0#7 } : Config).Legal := by decide
theorem test_legal_opcodes_equal : ¬({ Config.reference with opcExit := 0x41#8 } : Config).Legal := by decide

/-! ## Words written out from the encodings -/

/-- R90: `aaaaaaa1`, address 0x0B (V5). -/
theorem test_decode_addrRead : decodeTableWord 8 0b00010111 = some (.addrRead 0b0001011#7) := by decide
/-- R90: `aaaaaaa0`, address 0x0C (V5: 0x18). -/
theorem test_decode_addrWrite : decodeTableWord 8 0b00011000 = some (.addrWrite 0b0001100#7) := by decide
/-- R91: 0x00; and 0x01 is a read of address 0 (V5). -/
theorem test_decode_broadcast :
    decodeTableWord 8 0b00000000 = some .addrBroadcast ∧ decodeTableWord 8 0b00000001 = some (.addrRead 0#7) := by decide
/-- R100: `1100 kkkk kkkk kkkk`; another opcode nibble is no jump. -/
theorem test_decode_rjmp :
    decodeTableWord 16 0b1100000000001110 = some (.rjmp 0b000000001110#12) ∧ decodeTableWord 16 0b1101000000001110 = none := by
  decide
/-- R101: 0xCCFF at word 0 (V6). -/
theorem test_decode_entryJump : decodeTableWord 16 0b1100110011111111 = some (.entryJump 0b110011111111#12) := by decide
/-- R203: 0xC30F at word 0x0CFF, its low byte first (V10, R71). -/
theorem test_decode_trampoline :
    decode Config.reference (.cpu 0xCFF#12) [0x0F#8, 0xC3#8] = .ok (.trampoline 0b001100001111#12) := by decide
/-- R94: one-byte frames, numbered from the first byte. -/
theorem test_decode_getVersion : decodeTableWord 24 0x000041 = some .getVersion := by decide
theorem test_decode_exit : decode Config.reference .frame [0x42#8] = .ok .exit := by decide
theorem test_decode_deleteFlash : decode Config.reference .frame [0x43#8] = .ok .deleteFlash := by decide
theorem test_decode_softInit : decode twoStepBuild .frame [0x47#8] = .ok .softInit := by decide
/-- V28: opcode, addrHi, addrLo. -/
theorem test_decode_setPageAddr :
    decode manualBuild .frame [0x44#8, 0x01#8, 0x7F#8] = .ok (.setPageAddr 0x01#8 0x7F#8) := by decide
/-- V29: opcode, eight data bytes, checksum. -/
theorem test_decode_writePage :
    decode Config.reference .frame [0x45#8, 0x0E#8, 0xC0#8, 0x11#8, 0x22#8, 0x33#8, 0x44#8, 0x55#8, 0x66#8, 0x33#8] =
      .ok (.writePage [0x0E#8, 0xC0#8, 0x11#8, 0x22#8, 0x33#8, 0x44#8, 0x55#8, 0x66#8] 0x33#8) := by decide
/-- V33: opcode, addrHi, addrLo, len, rcs; the table's numbering, byte 0 the first. -/
theorem test_decode_readFlash :
    decodeTableWord 40 0x0504000146 = some (.readFlash 0x01#8 0x00#8 0x04#8 0x05#8) := by decide
/-- V35: an unknown opcode, and a Write-Page-Data frame one byte short. -/
theorem test_decode_unknown :
    decode Config.reference .frame [0x00#8] = .ok (.unknown 0x00#8 []) ∧
      decode Config.reference .frame (0x45#8 :: List.replicate 8 0x01#8) =
        .ok (.unknown 0x45#8 (List.replicate 8 0x01#8)) := by decide
/-- R160: an empty RX is no frame; R90: an address is one byte. -/
theorem test_decode_errors :
    decode Config.reference .frame [] = .error .empty ∧
      decode Config.reference .address [0x16#8, 0x17#8] = .error .wrongLength := by decide

/-! ## Commands (V24 to V36) -/

/-- V24, D56. -/
theorem test_getVersion :
    look (exec .getVersion State.reset) (fun t => (t.txBytes, t.flags)) =
      some ([0xA1#8, 0x54#8, 0x01#8, 0x02#8, 0x03#8, 0x04#8, 0x1A#8, 0x00#8, 0xFF#8, 0xFF#8, 0x62#8, 0x70#8], 0x01#8) := by
  decide
/-- V25: the installed trampoline 0xC30F, most significant byte first. -/
theorem test_getVersion_trampoline :
    look (exec .getVersion { block with flash := [(0x19FE, 0x0F#8), (0x19FF, 0xC3#8)] })
      (fun t => (t.txBytes.getD 8 0, t.txBytes.getD 9 0)) = some (0xC3#8, 0x0F#8) := by decide
/-- V26. -/
theorem test_exit : look (exec .exit block) (fun t => (t.txBytes, t.flags, t.run)) = some ([0xA2#8], 0x09#8, .running) := by
  decide
/-- V27. -/
theorem test_deleteFlash : look (exec .deleteFlash block) (fun t => (t.txBytes, t.flags)) = some ([0xA3#8], 0x05#8) := by
  decide
/-- V28, the first and the third line. -/
theorem test_setPageAddr :
    look (exec (.setPageAddr 0x01#8 0x7F#8) (blockOf manualBuild)) (fun t => (t.txBytes, t.pageAddress)) =
      some ([0xA4#8, 0x80#8], 0x0140#16) := by decide
theorem test_setPageAddr_absent :
    look (exec (.setPageAddr 0x01#8 0x7F#8) block) (fun t => (t.txBytes, t.pageAddress)) =
      some ([0xE0#8], 0x0000#16) := by decide
/-- V29. -/
theorem test_writePage :
    look (exec (.writePage [0x0E#8, 0xC0#8, 0x11#8, 0x22#8, 0x33#8, 0x44#8, 0x55#8, 0x66#8] 0x33#8) block)
      (fun t => (t.txBytes, t.appResetLsb, t.appResetMsb, t.stage.take 8, t.pageIndex, t.flags)) =
      some ([0xA5#8, 0x33#8], 0x0E#8, 0xC0#8, [0xFF#8, 0xCC#8, 0x11#8, 0x22#8, 0x33#8, 0x44#8, 0x55#8, 0x66#8], 8#8,
        0x01#8) := by decide
/-- V30. -/
theorem test_writePage_bad :
    look (exec (.writePage (List.replicate 8 0xA5#8) 0x29#8) (staged 0x0040#16 0#8 0#8 block))
      (fun t => (t.txBytes, t.flags, t.pageIndex, t.stage.getD 7 0)) =
      some ([0xA5#8, 0x00#8], 0x05#8, 8#8, 0xA5#8) := by decide
/-- V33, the second row. -/
theorem test_readFlash :
    look (exec (.readFlash 0x01#8 0x00#8 0x08#8 0x09#8)
      { block with flash := [(0x100, 0x01#8), (0x101, 0x02#8), (0x102, 0x03#8), (0x103, 0x04#8)] }) State.txBytes =
      some [0xA6#8, 0x01#8, 0x02#8, 0x03#8, 0x04#8, 0xFF#8, 0xFF#8, 0xFF#8, 0xFF#8, 0x06#8] := by decide
/-- V33, the last row: the range wraps. -/
theorem test_readFlash_wraps :
    look (exec (.readFlash 0x1F#8 0xFE#8 0x04#8 0x21#8) { block with flash := [(0, 0x10#8), (0x1FFE, 0x20#8)] })
      State.txBytes = some [0xA6#8, 0x20#8, 0xFF#8, 0x10#8, 0xFF#8, 0x2E#8] := by decide
/-- V34. -/
theorem test_softInit :
    look (exec .softInit { blockOf twoStepBuild with flags := 0x02#8 })
      (fun t => (t.txBytes, t.flags, initialized t)) = some ([0xA7#8], 0x03#8, true) := by decide
theorem test_softInit_absent : look (exec .softInit block) (fun t => (t.txBytes, t.flags)) = some ([0xE0#8], 0x01#8) := by
  decide
/-- V35. -/
theorem test_unknown : look (exec (.unknown 0x00#8 [0x99#8]) block) (fun t => (t.txBytes, t.flags)) = some ([0xE0#8], 0x01#8) := by
  decide

/-! ## Address bytes (V5, R124, P5 step 8) -/

theorem test_addrRead :
    look (exec (.addrRead 0x0B#7) (withFrame [0x42#8] block)) (fun t => (t.txBytes, t.flags, t.phase, t.rx.count)) =
      some ([0xA2#8], 0x09#8, .sendData, 0) := by decide
theorem test_addrRead_foreign :
    look (exec (.addrRead 0#7) (atShift .checkAddress 0x01#8 block)) (fun t => (t.phase, t.armed, t.sdaDrive)) =
      some (.checkAddress, false, false) := by decide
theorem test_addrWrite :
    look (exec (.addrWrite 0x0B#7) (atShift .checkAddress 0x16#8 block)) (fun t => (t.phase, t.armed, t.sdaDrive)) =
      some (.waitReceive, true, true) := by decide
theorem test_addrBroadcast :
    look (exec .addrBroadcast (atShift .checkAddress 0x00#8 block)) (fun t => (t.phase, t.bitCount, t.sdaDrive)) =
      some (.waitReceive, .one, true) := by decide

/-! ## Jump words (V8) and the trampoline (V1, V2, V3, V10) -/

theorem test_rjmp : look (exec (.rjmp 0xFFE#12) { block with cpu := some 0xCFF#12 }) State.cpu = some (some 0xCFE#12) := by
  decide
theorem test_rjmp_wraps : look (exec (.rjmp 0#12) { block with cpu := some 0xFFF#12 }) State.cpu = some (some 0#12) := by
  decide
/-- V8: from word 0 the entry jump reaches B_WORD, where the bootloader starts. -/
theorem test_entryJump :
    jumpTarget 0#12 0xCFF#12 = 0xD00#12 ∧
      look (exec (.entryJump 0xCFF#12) { block with cpu := some 0#12 }) (fun t => (t.cpu, t.flags)) = some (none, 0x00#8) := by
  decide
theorem test_trampoline :
    look (exec (.trampoline 0x3A4#12) { block with cpu := some 0xCFF#12 }) State.cpu = some (some 0x0A4#12) := by decide
theorem test_tramp :
    tramp Config.reference 0xFF#8 0xCF#8 = 0xC300#16 ∧ tramp Config.reference 0xA3#8 0xC0#8 = 0xC3A4#16 ∧
      tramp Config.reference 0xFF#8 0xCC#8 = 0xC000#16 ∧ tramp Config.reference 0xFF#8 0xC7#8 = 0xCB00#16 := by decide
theorem test_entryJumpWord :
    entryJumpWord Config.reference = 0xCCFF#16 ∧
      entryJumpWord { Config.reference with bootStart := 0x1FC0 } = 0xCFDF#16 := by decide

/-! ## The fetch: withFetchWord places what the next step runs -/

theorem test_fetch_address :
    look (step (State.reset.withFetchWord 8 0x16)) State.phase = some .waitReceive := by decide
theorem test_fetch_frame :
    look (step (State.reset.withFetchWord 24 0x42)) (fun t => (t.txBytes, t.flags)) = some ([0xA2#8], 0x08#8) := by decide
theorem test_fetch_jump : look (step (State.reset.withFetchWord 16 0xC00E)) State.cpu = some (some 0x010#12) := by decide

/-! ## Transport, peripheral and scheduler steps (P5, V16, V21, V23, V47, V50, V52, V53) -/

/-- P5 step 1: start, then the clock falls. -/
theorem test_start :
    look (step { block with host := [startTurn] }) (fun t => (t.phase, t.armed, t.bitCount, t.periph.startFlag)) =
      some (.checkAddress, true, .eight, false) := by decide
/-- V16: a stop while the start settles. -/
theorem test_start_then_stop :
    look (step { block with host := [.bus [.start, .stop]] }) (fun t => (t.armed, t.periph.startFlag, t.periph.stopFlag)) =
      some (false, false, false) := by decide
/-- R122: the hold. -/
theorem test_start_holds :
    look (step { block with host := [.bus [.start]] }) (fun t => (t.periph.startFlag, t.idleCount)) = some (true, 0) := by
  decide
/-- P5 step 4: eight bits and the pass that stores them. -/
theorem test_byte_in :
    look (step { block with phase := .receiveAndAck, armed := true, host := [byteTurn 0x42#8] })
      (fun t => (t.frame, t.phase, t.seen)) =
      some ([0x42#8], .waitReceive, [false, true, false, false, false, false, true, false]) := by decide
/-- R32: an unarmed peripheral samples the released line, and counts nothing (R264). -/
theorem test_unarmed_samples :
    look (step { block with host := [byteTurn 0x42#8] }) (fun t => (t.periph.dr, t.periph.shifted, t.periph.ovfFlag)) =
      some (0x42#8, 0, false) := by decide
/-- R264: after the address 0x17 the block's ACK pulls the data line low, though the host leaves it released. -/
theorem test_ack_pulls_the_line :
    look (step { block with phase := .checkAddress, armed := true, host := [byteTurn 0x17#8] })
      (fun t => (t.sdaDrive, t.periph.hostSda, t.sda)) = some (true, true, false) := by decide
/-- R264: a byte the block drives is on the released line at once, its most significant bit first. -/
theorem test_driven_line_carries_the_first_bit :
    (block.sendByte 0x40#8).sda = false ∧ (block.sendByte 0x80#8).sda = true := by decide
/-- V23. -/
theorem test_overflow_unarmed :
    look (step { block with periph := { block.periph with ovfFlag := true } }) (fun t => (t.periph.ovfFlag, t.phase)) =
      some (false, .checkAddress) := by decide
/-- P5 step 11: the NACK with a pending exit launches. -/
theorem test_nack_launches :
    look (step (atNack { block with flags := 0x09#8 })) (fun t => (t.run, t.flags)) =
      some (.launched 0xCFF#12, 0x19#8) := by decide
/-- V39: exit pre-empts the erase. -/
theorem test_exit_before_erase :
    look (step (atNack { block with flags := 0x0D#8, flash := [(0, 0x00#8)] })) (fun t => (t.run, t.flash)) =
      some (.launched 0xCFF#12, [(0, 0x00#8)]) := by decide
/-- V52, on a flash with one byte below and one at BOOT_START. -/
theorem test_delete_all :
    look (step (atNack { block with flags := 0x05#8, flash := [(0x19FF, 0x00#8), (0x1A00, 0x00#8)] }))
      (fun t => (t.flash, t.flags, t.run)) = some ([(0x1A00, 0x00#8)], 0x00#8, .running) := by decide
/-- V53. -/
theorem test_auto_launch :
    look (step { State.reset with cfg := autoLaunchBuild, idleCount := 4 }) (fun t => (t.run, t.idleCount)) =
      some (.launched 0xCFF#12, 5) := by decide
/-- V53: the 5th event-pass launches in phase ReceiveAndAck, armed. -/
theorem test_auto_launch_mid_transaction :
    look (step { atShift .waitReceive 0x00#8 State.reset with cfg := autoLaunchBuild, idleCount := 4 }) (fun t => (t.run, t.idleCount, t.phase, t.armed)) =
      some (.launched 0xCFF#12, 5, .receiveAndAck, true) := by decide
/-- H4: a start in the quiet gap is refused. -/
theorem test_quiet_gap : nextOf (step { atNack block with host := [.bus [.start]] }) = none := by decide

/-! ## Witnesses: states and operands that meet the hypotheses of each statement, clause by clause -/

theorem block_inv : block.Inv := inv_of_checks _ rfl (by decide) (by decide) (by decide) (by decide) (by decide)

/-- Every encoding space, and every boundary of the places a jump word stands. -/
theorem witness_DecodeOfEncodeIsTheInstruction :
    ∃ c : Config, c.Legal ∧
      (∀ x ∈ [(Instr.addrRead 0x7F#7, Space.address), (.addrWrite 1#7, .address), (.addrBroadcast, .address),
          (.getVersion, .frame), (.exit, .frame), (.deleteFlash, .frame), (.setPageAddr 0xFF#8 0x00#8, .frame),
          (.writePage (List.replicate 8 0xA5#8) 0x28#8, .frame), (.readFlash 0#8 0#8 0#8 0#8, .frame),
          (.unknown 0x00#8 [0x01#8], .frame), (.unknown 0x45#8 (List.replicate 8 0#8), .frame),
          (.entryJump 0xCFF#12, .cpu 0#12), (.rjmp 0xCFE#12, .cpu 0#12), (.rjmp 0xCFF#12, .cpu 1#12),
          (.trampoline 0xFFF#12, .cpu 0xCFF#12)], x.1.wf c = true ∧ x.1.standsIn c x.2 = true) :=
  ⟨manualBuild, by decide, by decide⟩

theorem witness_DecodeOfEncode_softInit :
    twoStepBuild.Legal ∧ Instr.softInit.wf twoStepBuild = true ∧ Instr.softInit.standsIn twoStepBuild .frame = true := by
  decide

theorem witness_EncodeOfDecodeIsAPrefix :
    Config.reference.Legal ∧ decode Config.reference .frame [0x41#8, 0x99#8] = .ok .getVersion ∧
      decode Config.reference .address [0x16#8] = .ok (.addrWrite 0x0B#7) ∧
      decode Config.reference (.cpu 0#12) [0xFF#8, 0xCC#8] = .ok (.entryJump 0xCFF#12) := by decide

theorem witness_SurplusFrameBytesAreDiscarded :
    Config.reference.Legal ∧ Instr.getVersion.wf Config.reference = true ∧
      Instr.getVersion.standsIn Config.reference .frame = true ∧ ∀ op more, Instr.getVersion ≠ .unknown op more :=
  ⟨by decide, by decide, by decide, fun _ _ h => by cases h⟩

/-- No opcode; the opcode of an absent command; a frame one byte short, and one that is just long enough. -/
theorem witness_UnknownAndShortFrames :
    Config.reference.Legal ∧
      (∀ op ∈ [0x00#8, 0x44#8, 0x47#8], ∀ k ∈ Config.commands, Config.reference.present k = true →
        Config.reference.opcode k ≠ op) ∧
      (Config.reference.present .writePage = true ∧ Config.reference.opcode .writePage = 0x45#8 ∧
        (List.replicate 8 0x01#8).length + 1 < Config.reference.frameLength .writePage ∧
        Config.reference.frameLength .writePage ≤ (List.replicate 9 0x01#8).length + 1) :=
  ⟨by decide, by decide, by decide⟩

/-- For Get-Version, Exit, Delete-Flash, Set-Page-Address, Read-Flash, Soft-Init and Unknown: an empty TX, and a full one. -/
theorem witness_commands :
    block.cfg.Legal ∧ block.tx.Wf block.cfg.txCap ∧
      (withReply (List.replicate 16 0#8) block).tx.Wf block.cfg.txCap ∧
      (withReply (List.replicate 16 0#8) block).tx.count = block.cfg.txCap ∧
      (blockOf twoStepBuild).cfg.handshake = .twoStep ∧ twoStepBuild.Legal ∧ block.cfg.handshake = .oneStep ∧
      (blockOf manualBuild).cfg.autoPageAddr = false ∧ manualBuild.Legal ∧ block.cfg.autoPageAddr = true :=
  ⟨by decide, by decide, by decide, by decide, by decide, by decide, by decide, by decide, by decide, by decide⟩

/-- A packet that fills the page, at a page above page 0. -/
theorem witness_WritePageStagesAGoodPacket :
    (staged 0x0040#16 56#8 0#8 block).Inv ∧ (List.replicate 8 0xA5#8).length = block.cfg.packetSize ∧
      (56#8).toNat + (List.replicate 8 0xA5#8).length = block.cfg.pageSize ∧
      (0x28#8).toNat = ((List.replicate 8 0xA5#8).map BitVec.toNat).sum % 256 :=
  ⟨inv_of_checks _ rfl (by decide) (by decide) (by decide) (by decide) (by decide), by decide, by decide, by decide⟩

/-- The first packet of page 0 (both captures), and, with one byte a packet, the second byte alone. -/
theorem witness_WritePage_capture :
    block.Inv ∧ block.pageAddress = 0#16 ∧ block.pageIndex = 0#8 ∧ 1 < block.pageIndex.toNat + block.cfg.packetSize ∧
      (staged 0#16 1#8 0#8 (blockOf oneByteBuild)).Inv ∧ 1 < (1#8).toNat + oneByteBuild.packetSize ∧
      ¬1 < (0#8).toNat + oneByteBuild.packetSize :=
  ⟨block_inv, by decide, by decide, by decide,
    inv_of_checks _ rfl (by decide) (by decide) (by decide) (by decide) (by decide), by decide, by decide⟩

theorem witness_WritePageBadChecksumSetsDeleteFlash :
    block.Inv ∧ (List.replicate 8 0xA5#8).length = block.cfg.packetSize ∧
      block.pageIndex.toNat + (List.replicate 8 0xA5#8).length ≤ block.cfg.pageSize ∧
      (0x28#8).toNat = ((List.replicate 8 0xA5#8).map BitVec.toNat).sum % 256 ∧ (0x29#8) ≠ (0x28#8) :=
  ⟨block_inv, by decide, by decide, by decide, by decide⟩

/-- One byte too many, and a page that is already full (V31). -/
theorem witness_WritePageOverflowSetsDeleteFlash :
    block.cfg.Legal ∧ block.tx.Wf block.cfg.txCap ∧ (List.replicate 8 0#8).length = block.cfg.packetSize ∧
      block.cfg.pageSize < (staged 0#16 57#8 0#8 block).pageIndex.toNat + (List.replicate 8 0#8).length ∧
      block.cfg.pageSize < (staged 0#16 64#8 0#8 block).pageIndex.toNat + (List.replicate 8 0#8).length :=
  ⟨by decide, by decide, by decide, by decide, by decide⟩

/-- Lengths 1 and READ_MAX are valid; 0, READ_MAX + 1, a wrong checksum and an absent command are not (V33). -/
theorem witness_ReadFlashStreamsOrRefuses :
    (let valid := fun (c : Config) (hi lo len rcs : Byte) => c.featureReadFlash = true ∧
      rcs.toNat = (hi.toNat + lo.toNat + len.toNat) % 256 ∧ 1 ≤ len.toNat ∧ len.toNat ≤ c.readMax
    valid Config.reference 0x01#8 0x00#8 0x01#8 0x02#8 ∧ valid Config.reference 0x01#8 0x00#8 0x08#8 0x09#8 ∧
      ¬valid Config.reference 0x01#8 0x00#8 0x00#8 0x01#8 ∧ ¬valid Config.reference 0x01#8 0x00#8 0x09#8 0x0A#8 ∧
      ¬valid Config.reference 0x01#8 0x00#8 0x04#8 0x06#8 ∧ ¬valid noReadBuild 0x01#8 0x00#8 0x04#8 0x05#8) ∧
      noReadBuild.Legal := by decide

theorem witness_TwoStepHandshakeInEitherOrder :
    (let s : State := { State.reset with cfg := twoStepBuild }
    s.cfg.handshake = .twoStep ∧ s.flag .init1 = false ∧ s.flag .init2 = false) := by decide

/-- An empty RX, and one that holds a frame. -/
theorem witness_OwnReadAddressDispatchesAndAcks :
    block.cfg.Legal ∧ block.rx.Wf block.cfg.rxCap ∧ block.frame = [] ∧
      (withFrame [0x42#8] block).rx.Wf block.cfg.rxCap ∧
      decode block.cfg .frame (withFrame [0x42#8] block).frame = .ok .exit ∧
      ∃ u, exec .exit (withFrame [0x42#8] block).flushTx.drainRx = .next u :=
  ⟨by decide, by decide, by decide, by decide, by decide, _, rfl⟩

theorem witness_ForeignAddressRearms :
    0#7 ≠ block.cfg.ownAddr ∧ 0x0C#7 ≠ block.cfg.ownAddr ∧ 0x0C#7 ≠ 0#7 ∧ 0x7F#7 ≠ block.cfg.ownAddr := by decide

/-- The bytes 0x17, 0x16, 0x00, 0x01 and 0x18 of V5: no byte falls under two clauses. -/
theorem witness_AddressBytesMatchByTheRule :
    Config.reference.Legal ∧
      ((0x17#8).toNat = 2 * Config.reference.ownAddr.toNat + 1 ∧ (0x16#8).toNat = 2 * Config.reference.ownAddr.toNat ∧
        ∀ a ∈ [0x01#8, 0x18#8, 0x14#8], a.toNat ≠ 2 * Config.reference.ownAddr.toNat + 1 ∧
          a.toNat ≠ 2 * Config.reference.ownAddr.toNat ∧ a ≠ 0x00#8) := by decide

/-- The rows of R140 that depend on more than the phase. -/
theorem witness_TransitionTable :
    block.cfg.Legal ∧ (∀ p d, (atShift p d block).armed = true) ∧
      (isRead block.cfg 0x17#8 = true ∧ isWrite block.cfg 0x16#8 = true ∧ isWrite block.cfg 0x00#8 = true ∧
        matchesAddr block.cfg 0x01#8 = false) ∧
      (0 < (withReply [0x5A#8] block).tx.count ∧ block.tx.count = 0) ∧
      ((0x00#8 : Byte).getLsbD 0 = false ∧ (0x01#8 : Byte).getLsbD 0 = true) :=
  ⟨by decide, fun _ _ => rfl, by decide, by decide, by decide⟩

/-- R127, R130: a byte to send, and none. -/
theorem witness_SendArmTakesTheNextByte :
    block.cfg.Legal ∧ (withReply [0x5A#8] block).tx.Wf block.cfg.txCap ∧ block.tx.Wf block.cfg.txCap ∧
      (withReply [0x5A#8] block).txBytes = [0x5A#8] ∧ block.txBytes = [] ∧
      (atShift .sendData 0x00#8 (withReply [0x5A#8] block)).phase = .sendData ∧
      (atShift .checkAck 0x00#8 block).phase = .checkAck ∧
      (atShift .checkAck 0x00#8 block).periph.dr.getLsbD 0 = false :=
  ⟨by decide, by decide, by decide, by decide, by decide, by decide, by decide, by decide⟩

theorem witness_NackCompletesTheTransaction :
    (atNack block).phase = .checkAck ∧ (atNack block).periph.dr.getLsbD 0 = true := by decide

theorem witness_SentByteIsFollowedByAnAckRead : (atShift .waitAckAfterSend 0x5A#8 block).phase = .waitAckAfterSend := rfl

theorem witness_AckIsFollowedByAByteToReceive : (atShift .waitReceive 0x00#8 block).phase = .waitReceive := rfl

/-- One byte of room, and a full RX (V22). -/
theorem witness_ReceivedByteIsPushedOrDropped :
    (∀ n ∈ [0, 15, 16], (atShift .receiveAndAck 0x77#8 (withFrame (List.replicate n 0#8) block)).rx.Wf block.cfg.rxCap) ∧
      (withFrame (List.replicate 16 0#8) block).rx.count = block.cfg.rxCap := by decide

theorem witness_RingBuffersAreFifo :
    IsPow2 16 ∧ ∀ n ∈ [0, 1, 15, 16], (Ring.pushAll 16 (Ring.empty (List.replicate 16 0#8)) (List.replicate n 0x5A#8)).Wf 16 := by
  decide

theorem witness_EightClocksShiftAByteIn :
    (let s : State := { block with phase := .receiveAndAck, armed := true }
    s.restarting = false ∧ s.periph.startFlag = false ∧ s.periph.ovfFlag = false ∧ s.armed = true ∧ s.sdaDrive = false ∧
      s.bitCount = .eight ∧ s.periph.shifted = 0 ∧ block.armed = false ∧ block.sdaDrive = false) := by decide

theorem witness_EightClocksShiftAByteOut :
    (let s : State := (withReply [0x5A#8] { block with armed := true }).sendNext
    s.restarting = false ∧ s.periph.startFlag = false ∧ s.periph.ovfFlag = false ∧ s.armed = true ∧ s.sdaDrive = true ∧
      s.bitCount = .eight ∧ s.periph.shifted = 0) := by decide

/-- A waiting restart, a pending NACK, a pending start, a pending shift-complete of another phase. -/
theorem witness_BrokenHostDutiesAreRefused :
    ({ block with restarting := true } : State).restarting = true ∧
      ((atNack block).armed = true ∧ (atNack block).periph.ovfFlag = true ∧ (atNack block).phase = .checkAck ∧
        (atNack block).periph.dr.getLsbD 0 = true) ∧
      (block.restarting = false ∧ block.phase ≠ .checkAck ∧
        ({ block with periph := { block.periph with startFlag := true } } : State).periph.startFlag = true) ∧
      ((atShift .checkAck 0x00#8 block).periph.dr.getLsbD 0 = false ∧ (atShift .checkAck 0x00#8 block).armed = true ∧
        (atShift .checkAck 0x00#8 block).periph.ovfFlag = true) := by decide

/-- After eight clocks of an address byte. -/
theorem witness_StepRunsTheDecodedAddress :
    (let u : State := atShift .checkAddress 0x16#8 block
    Delivered u u ∧ u.Runs ∧ u.ShiftComplete ∧ u.phase = .checkAddress ∧
      decode u.cfg .address [u.periph.dr] = .ok (.addrWrite 0x0B#7)) :=
  ⟨rfl, ⟨rfl, rfl, rfl⟩, ⟨rfl, rfl, rfl⟩, rfl, by decide⟩

theorem witness_StepRunsTheDecodedCommand :
    (let u : State := withFrame [0x42#8] (atShift .checkAddress 0x17#8 block)
    Delivered u u ∧ u.Runs ∧ u.ShiftComplete ∧ u.phase = .checkAddress ∧ u.periph.dr = u.cfg.ownAddr ++ 1#1 ∧
      decode u.cfg .frame u.frame = .ok .exit) :=
  ⟨rfl, ⟨rfl, rfl, rfl⟩, ⟨rfl, rfl, rfl⟩, rfl, by decide, by decide⟩

theorem witness_StepRunsTheDecodedJump :
    (let u : State := { block with cpu := some 0#12, flash := [(0, 0x0E#8), (1, 0xC0#8)] }
    Delivered u u ∧ u.run = .running ∧ u.restarting = false ∧ u.cpu = some 0#12 ∧
      decode u.cfg (.cpu 0#12) [Memory.read (2 * (0#12).toNat % u.cfg.flashBytes) u.flash,
        Memory.read ((2 * (0#12).toNat + 1) % u.cfg.flashBytes) u.flash] = .ok (.rjmp 0x00E#12)) :=
  ⟨rfl, rfl, rfl, rfl, by decide⟩

/-- The hold, the fall of the clock, the stop, each as the host's events deliver it; and a start in the pass that launches. -/
theorem witness_StartHandlerHoldsArmsOrRearms :
    ∃ hold clock stop last : State,
      Delivered { block with host := [.bus [.start]] } hold ∧ Delivered { block with host := [startTurn] } clock ∧
      Delivered { block with host := [.bus [.start, .stop]] } stop ∧
      Delivered { State.reset with cfg := autoLaunchBuild, idleCount := 4, host := [startTurn] } last ∧
      (∀ u ∈ [hold, clock, stop, last], u.Runs ∧ u.periph.startFlag = true) ∧
      (hold.periph.scl = true ∧ hold.periph.hostSda = false) ∧ clock.periph.scl = false ∧
      (stop.periph.scl = true ∧ stop.periph.hostSda = true) ∧
      (last.periph.scl = false ∧ initialized last = false ∧ last.CountReached) := by
  refine ⟨_, _, _, _, rfl, rfl, rfl, rfl, ?_, by decide, by decide, by decide, by decide, by decide, by decide, by decide⟩
  intro u hu
  simp only [List.mem_cons, List.not_mem_nil, or_false] at hu
  rcases hu with rfl | rfl | rfl | rfl <;> exact ⟨⟨rfl, rfl, rfl⟩, rfl⟩

/-- In the middle of a byte, with an overflow that is not armed, and in the pass that launches. -/
theorem witness_QuietPassChangesNothingElse :
    (let u : State := { block with phase := .receiveAndAck, armed := true, periph := { block.periph with shifted := 3 } }
    Delivered u u ∧ u.Runs ∧ u.periph.startFlag = false ∧ u.periph.ovfFlag = false) ∧
      (let u : State := { State.reset with periph := { State.reset.periph with ovfFlag := true } }
      Delivered u u ∧ u.Runs ∧ u.periph.startFlag = false ∧ u.armed = false ∧ initialized u = false ∧ ¬u.CountReached) ∧
      (let u : State := { State.reset with cfg := autoLaunchBuild, idleCount := 4 }
      Delivered u u ∧ u.Runs ∧ u.periph.startFlag = false ∧ u.armed = false ∧ initialized u = false ∧ u.CountReached) :=
  ⟨⟨rfl, ⟨rfl, rfl, rfl⟩, rfl, rfl⟩, ⟨rfl, ⟨rfl, rfl, rfl⟩, rfl, rfl, by decide, by unfold State.CountReached; decide⟩,
    rfl, ⟨rfl, rfl, rfl⟩, rfl, rfl, by decide, by unfold State.CountReached; decide⟩

/-- The fourth pass of five does not launch, the fifth does, with a foreign address byte and in the middle of a transaction
(V53); and a pass whose handler completes the handshake falls under neither clause. -/
theorem witness_IdlePassesAutoLaunch :
    (∀ n ∈ [3, 4], ∀ p ∈ [Phase.checkAddress, .waitReceive],
      (let u : State := { atShift p 0x18#8 State.reset with cfg := autoLaunchBuild, idleCount := n }
      Delivered u u ∧ u.Runs ∧ ¬(u.periph.startFlag = true ∧ u.periph.scl = true ∧ u.periph.hostSda = false) ∧
        initialized u = false ∧ ¬(u.phase = .checkAddress ∧ isRead u.cfg u.periph.dr = true) ∧
        initialized (overflowHandler (u.lower .slowOpsReady)) = false ∧ (u.CountReached ↔ n = 4))) ∧
      (let u : State := withFrame [0x41#8] { atShift .checkAddress 0x17#8 State.reset with cfg := autoLaunchBuild }
      initialized u = false ∧ isRead u.cfg u.periph.dr = true ∧
        initialized (overflowHandler (u.lower .slowOpsReady)) = true) := by
  refine ⟨fun n hn p hp => ?_, by decide, by decide, by decide⟩
  simp only [List.mem_cons, List.not_mem_nil, or_false] at hn hp
  rcases hn with rfl | rfl <;> rcases hp with rfl | rfl <;>
    exact ⟨rfl, ⟨rfl, rfl, rfl⟩, by decide, by decide, by decide, by decide, by unfold State.CountReached; decide⟩

/-- Each of the four resets, and a step that is none. -/
theorem witness_HandshakeGateIsStickyUntilReset :
    block.cfg.handshake = .oneStep ∧ (blockOf twoStepBuild).cfg.handshake = .twoStep ∧ block.flag .init1 = true ∧
      (∀ s ∈ [({ block with host := [.reset] } : State), { blockOf watchdogBuild with restarting := true },
          { block with cpu := some 0#12, flash := [(0, 0xFF#8), (1, 0xCC#8)] }, atNack { block with flags := 0x05#8 }],
        s.Resets ∧ ∃ t, step s = .next t) ∧
      (¬block.Resets ∧ ∃ t, step block = .next t) := by
  refine ⟨by decide, by decide, by decide, fun s hs => ?_, ?_, _, rfl⟩
  · simp only [List.mem_cons, List.not_mem_nil, or_false] at hs
    rcases hs with rfl | rfl | rfl | rfl
    · exact ⟨.inl ⟨_, rfl⟩, _, rfl⟩
    · exact ⟨.inr ⟨_, rfl, .inl rfl⟩, _, rfl⟩
    · exact ⟨.inr ⟨_, rfl, .inr (.inl ⟨rfl, 0#12, 0xCFF#12, rfl, by decide, by decide⟩)⟩, _, rfl⟩
    · exact ⟨.inr ⟨_, rfl, .inr (.inr ⟨⟨rfl, rfl, rfl⟩, ⟨⟨rfl, rfl, rfl⟩, rfl, by decide⟩, by decide, by decide, by decide,
        rfl⟩)⟩, _, rfl⟩
  · rintro (⟨_, h⟩ | ⟨u, h, hu⟩)
    · cases h
    · cases (show u = block from h)
      rcases hu with h | ⟨-, w, k, h, -⟩ | ⟨-, ⟨⟨h, -⟩, -⟩, -⟩ <;> cases h

/-- An exit, an erase, a ready page, and nothing pending, at the NACK of an initialized block. -/
theorem witness_SlowOperationsInStrictOrder :
    (∀ f ∈ [0x09#8, 0x05#8, 0x01#8, 0x0D#8], (let u : State := atNack { block with flags := f }
      Delivered u u ∧ u.cfg.Legal ∧ u.Runs ∧ u.NackArm ∧ initialized u = true)) ∧
      ready (atNack (staged 0x0040#16 64#8 0#8 block)) = true ∧ ready (atNack block) = false := by
  refine ⟨fun f hf => ?_, by decide, by decide⟩
  simp only [List.mem_cons, List.not_mem_nil, or_false] at hf
  rcases hf with rfl | rfl | rfl | rfl <;>
    exact ⟨rfl, by decide, ⟨rfl, rfl, rfl⟩, ⟨⟨rfl, rfl, rfl⟩, rfl, by decide⟩, by decide⟩

theorem witness_LaunchedBlockHasNoStep :
    (block.launch 0xCFF#12).run = .launched 0xCFF#12 ∧ ∀ rest, (block.launch 0xCFF#12).host ≠ .reset :: rest :=
  ⟨rfl, fun _ h => by cases h⟩

/-- A step that changes the flash, and a step that ends the run. -/
theorem witness_SlowOperationsOnlyAtANack :
    (let u : State := atNack { block with flags := 0x05#8, flash := [(0, 0x00#8)] }
    ∃ t, Delivered u u ∧ step u = .next t ∧ Memory.read 0 t.flash ≠ Memory.read 0 u.flash) ∧
      (let u : State := atNack { block with flags := 0x09#8 }
      ∃ t, Delivered u u ∧ step u = .next t ∧ u.run = .running ∧ initialized u = true ∧ t.run ≠ .running) :=
  ⟨⟨_, rfl, rfl, by decide⟩, ⟨_, rfl, rfl, rfl, by decide, by decide⟩⟩

/-- The smallest and the largest B_WORD. -/
theorem witness_TrampolineReachesTheResetTarget :
    ∀ n ∈ [2, 8190], (let c : Config := { Config.reference with bootStart := n }
    0 < c.bWord ∧ c.bWord < 4096) := by decide

theorem witness_FlashPrimitives : Memory.wf [(0, 0x00#8), (0x1FFF, 0xF0#8)] = true := by decide

/-- The block of a build at a completing NACK, all of one page staged. -/
def commitAt (c : Config) (p : Word) (b : Byte) : State := atNack (staged p 64#8 b (blockOf c))

/-- Page 0, and the last page below APP_LIMIT. -/
theorem witness_CommitProgramsTheStagedPage :
    ∀ p ∈ [0x0000#16, 0x1980#16], (let u : State := commitAt Config.reference p 0x10#8
    Delivered u u ∧ u.Inv ∧ u.Runs ∧ u.NackArm ∧ initialized u = true ∧ u.flag .exitToApp = false ∧
      u.flag .deleteFlash = false ∧ u.pageIndex.toNat = u.cfg.pageSize ∧ u.pageAddress.toNat < u.cfg.appLimit ∧
      ¬(u.cfg.appUsesTrampolinePage = true ∧ u.pageAddress.toNat = u.cfg.trampPage)) := by
  intro p hp
  simp only [List.mem_cons, List.not_mem_nil, or_false] at hp
  rcases hp with rfl | rfl <;>
    exact ⟨rfl, inv_of_checks _ rfl (by decide) (by decide) (by decide) (by decide) (by decide), ⟨rfl, rfl, rfl⟩,
      ⟨⟨rfl, rfl, rfl⟩, rfl, by decide⟩, by decide, by decide, by decide, by decide, by decide, by decide⟩

/-- The slot free (V49), and not (V50), without AUTO_PAGE_ADDR and with it. -/
theorem witness_TrampolineSlotCheck :
    ∀ c ∈ [sharedPageBuild, sharedAutoBuild], ∀ b ∈ [0xFF#8, 0x5A#8], (let u : State := commitAt c 0x19C0#16 b
    Delivered u u ∧ u.Inv ∧ u.Runs ∧ u.NackArm ∧ initialized u = true ∧ u.flag .exitToApp = false ∧
      u.flag .deleteFlash = false ∧ u.pageIndex.toNat = u.cfg.pageSize ∧ u.cfg.appUsesTrampolinePage = true ∧
      u.pageAddress.toNat = u.cfg.trampPage ∧
      ((u.stage.getD (u.cfg.pageSize - 2) 0 = 0xFF#8 ∧ u.stage.getD (u.cfg.pageSize - 1) 0 = 0xFF#8) ↔ b = 0xFF#8)) := by
  intro c hc b hb
  simp only [List.mem_cons, List.not_mem_nil, or_false] at hc hb
  rcases hc with rfl | rfl <;> rcases hb with rfl | rfl <;>
    exact ⟨rfl, inv_of_checks _ rfl (by decide) (by decide) (by decide) (by decide) (by decide), ⟨rfl, rfl, rfl⟩,
      ⟨⟨rfl, rfl, rfl⟩, rfl, by decide⟩, by decide, by decide, by decide, by decide, by decide, by decide, by decide⟩

/-- A full page at APP_LIMIT itself (V48). -/
theorem witness_FullPageAtTheLimitStaysStaged :
    (let u : State := commitAt Config.reference 0x19C0#16 0x10#8
    Delivered u u ∧ u.Inv ∧ u.Runs ∧ u.NackArm ∧ initialized u = true ∧ u.flag .exitToApp = false ∧
      u.flag .deleteFlash = false ∧ u.pageIndex.toNat = u.cfg.pageSize ∧ u.cfg.appLimit = u.pageAddress.toNat ∧
      (List.replicate 8 0x10#8).length = u.cfg.packetSize) :=
  ⟨rfl, inv_of_checks _ rfl (by decide) (by decide) (by decide) (by decide) (by decide), ⟨rfl, rfl, rfl⟩,
    ⟨⟨rfl, rfl, rfl⟩, rfl, by decide⟩, by decide, by decide, by decide, by decide, by decide, by decide⟩

/-- Both restart modes, and what the wait may meet: a quiet bus, the host's stop, a reset, and a start, which is refused. -/
theorem witness_SafetyEraseEndsInTheResetState :
    ∀ c ∈ [Config.reference, watchdogBuild], ∀ h ∈ [[], [Turn.bus [.stop]], [.reset], [.bus [.stop, .start]]],
      (let s : State := atNack { blockOf c with flags := 0x05#8, host := .bus [] :: h }
      ∃ u, Delivered s u ∧ s.Inv ∧ u.Runs ∧ u.NackArm ∧ initialized u = true ∧ u.flag .exitToApp = false ∧
        u.flag .deleteFlash = true ∧ u.host = h) := by
  intro c hc h hh
  simp only [List.mem_cons, List.not_mem_nil, or_false] at hc hh
  rcases hc with rfl | rfl <;> rcases hh with rfl | rfl | rfl | rfl <;>
    exact ⟨_, rfl, inv_of_checks _ rfl (by decide) (by decide) (by decide) (by decide) (by decide), ⟨rfl, rfl, rfl⟩,
      ⟨⟨rfl, rfl, rfl⟩, rfl, by decide⟩, by decide, by decide, by decide, rfl⟩

/-- A backward jump, a jump that wraps, and one that reaches B_WORD. -/
theorem witness_RelativeJumpMovesTheCpu :
    block.cpu = none ∧ jumpTarget 0xCFF#12 0xFFE#12 ≠ block.cfg.bootWord ∧ jumpTarget 0xFFF#12 0#12 ≠ block.cfg.bootWord ∧
      jumpTarget 0#12 0xCFF#12 = block.cfg.bootWord ∧ jumpTarget 0xCFF#12 0#12 = block.cfg.bootWord := by decide

theorem witness_EntryJumpStartsTheBootloader :
    ({ block with cpu := some 0#12 } : State).cfg.Legal ∧ ({ block with cpu := some 0#12 } : State).cpu = some 0#12 :=
  ⟨by decide, rfl⟩

/-- The launch of program P2's application, orig = 0xC00E. -/
theorem witness_LaunchReachesTheApplication :
    (let s : State := { block.launch 0xCFF#12 with flash := [(0x19FE, 0x0F#8), (0x19FF, 0xC3#8)] }
    s.cfg.Legal ∧ s.run = .launched s.cfg.trampWord ∧ s.cpu = some s.cfg.trampWord ∧
      Memory.read s.cfg.trampSlot s.flash = BitVec.ofNat 8 (trampValue s.cfg 0x0E#8 0xC0#8 % 256) ∧
      Memory.read (s.cfg.trampSlot + 1) s.flash = BitVec.ofNat 8 (trampValue s.cfg 0x0E#8 0xC0#8 / 256) ∧
      (origWord 0x0E#8 0xC0#8 + 1) % 4096 ≠ s.cfg.bootStart / 2) :=
  ⟨by decide, by decide, by decide, by decide, by decide, by decide⟩

theorem witness_ResetSetsTheTableR49 :
    ({ block.launch 0xCFF#12 with host := [.reset] } : State).host = .reset :: [] := rfl

theorem witness_EveryStepKeepsTheInvariant : block.Inv ∧ ∃ t, step block = .next t := ⟨block_inv, _, rfl⟩

/-- A step that erases the flash below BOOT_START. -/
theorem witness_BootloaderIsNeverWritten :
    (let s : State := atNack { block with flags := 0x05#8, flash := [(0x1A00, 0x00#8)] }
    s.Inv ∧ ∃ t, step s = .next t) :=
  ⟨inv_of_checks _ rfl (by decide) (by decide) (by decide) (by decide) (by decide), _, rfl⟩

/-- Page 0 full and ready, its first two staged bytes the entry jump (P2 before packet 7's NACK), in a build that erases and in a
write-only build, over an erased word and over one that is not; and a step whose turn is a reset. -/
theorem witness_ResetVectorIsNeverCommittedVerbatim :
    (∀ c ∈ [Config.reference, writeOnlyBuild], ∀ m ∈ [[], [(0, 0x0F#8)]],
      (let u : State := atNack { staged 0#16 64#8 0x10#8 (blockOf c) with
        stage := 0xFF#8 :: 0xCC#8 :: List.replicate 62 0x10#8, flash := m }
      ∃ t, Delivered u u ∧ u.Inv ∧ u.VectorStaged ∧ u.cfg.autoPageAddr = true ∧ step u = .next t ∧ u.Runs ∧ u.NackArm ∧
        initialized u = true ∧ u.flag .exitToApp = false ∧ u.flag .deleteFlash = false ∧ ready u = true ∧
        u.pageAddress = 0#16)) ∧
      ∃ t, step ({ block with host := [.reset] } : State) = .next t := by
  refine ⟨fun c hc m hm => ?_, _, rfl⟩
  simp only [List.mem_cons, List.not_mem_nil, or_false] at hc hm
  rcases hc with rfl | rfl <;> rcases hm with rfl | rfl <;>
    exact ⟨_, rfl, inv_of_checks _ rfl (by decide) (by decide) (by decide) (by decide) (by decide),
      fun _ => ⟨by decide, by decide, by decide⟩, by decide, rfl, ⟨rfl, rfl, rfl⟩,
      ⟨⟨rfl, rfl, rfl⟩, rfl, by decide⟩, by decide, by decide, by decide, by decide, by decide⟩

/-- V22's 17 bytes, one more than RX holds, to the own address; and a broadcast. -/
theorem witness_WriteTransactionFillsRx :
    (let s : State := { block with host := writeTurns 0x16#8 (List.replicate 17 0x77#8) ++ [] }
    s.Inv ∧ s.Runs ∧ s.NoAutoLaunch ∧ idle s = true ∧ isWrite s.cfg 0x16#8 = true) ∧
      isWrite Config.reference 0x00#8 = true :=
  ⟨⟨inv_of_checks _ rfl (by decide) (by decide) (by decide) (by decide) (by decide), ⟨rfl, rfl, rfl⟩, .inl (by decide),
    by decide, by decide⟩, by decide⟩

/-- V42: the second Get-Version, read to its last byte. -/
theorem witness_ReadTransactionSendsTheReply :
    (let s : State := { withFrame [0x41#8] block with host := readTransaction (block.cfg.ownAddr ++ 1#1) 11 ++ [] }
    ∃ v, s.Inv ∧ s.Runs ∧ initialized s = true ∧ idle s = true ∧
      decode s.cfg .frame s.frame = .ok .getVersion ∧ exec .getVersion s.flushTx.drainRx = .next v ∧
      11 + 1 = v.txBytes.length ∧ v.flag .exitToApp = false ∧ v.flag .deleteFlash = false ∧ ready v = false) :=
  ⟨_, inv_of_checks _ rfl (by decide) (by decide) (by decide) (by decide) (by decide), ⟨rfl, rfl, rfl⟩, by decide,
    by decide, by decide, rfl, by decide, by decide, by decide, by decide⟩

end Sys2Proof.Tests
end

section
/-! PROOFS. The statements of the state's family (10_state.md): the power-up state, the invariant, the bootloader region and
the reset-vector page. Each is read off `step_inv_cases`, the step as seen from a state with the invariant. -/

namespace Sys2Proof.Machine

open Sys2Proof

/-! ## The power-up state (R49) -/

/-- A reset state of a legal build meets the invariant, whatever its free bytes are (R49). -/
theorem inv_resetWith {c : Config} {flash : Memory} {d : Draw} {scl hostSda : Bool} {draws : Nat} {host : List Turn}
    {seen : List Bool} (hc : c.Legal) (hw : Memory.wf flash = true) (hb : Memory.Below c.flashBytes flash)
    (hs : d.stage.length = c.pageSize) (hr : d.rxBuf.length = c.rxCap) (ht : d.txBuf.length = c.txCap) :
    (State.resetWith c flash d scl hostSda draws host seen).Inv where
  legal := hc
  flash_wf := hw
  flash_below := hb
  page_aligned := BitVec.zero_and
  page_index := Nat.zero_le _
  stage_length := hs
  rx_wf := Ring.wf_empty (isPow2_pos hc.rxCap.1) hr
  tx_wf := Ring.wf_empty (isPow2_pos hc.txCap.1) ht
  flags_reserved := BitVec.zero_ushiftRight
  slow_idle := fun _ => rfl
  unarmed := fun _ => ⟨rfl, rfl, rfl⟩
  interrupts_off := rfl
  launch_target := fun _ hw => nomatch hw
  bits_counted := fun _ => by show 0 < 8; decide

theorem reference_legal : Config.reference.Legal := by decide

/-- Nothing is staged while pageIndex and pageAddress are 0 (R47 item 4). -/
theorem vectorStaged_of_zero {s : State} (hp : s.pageAddress = 0#16) (hi : s.pageIndex = 0#8) : s.VectorStaged := by
  intro _
  rw [hp, hi]
  exact ⟨Nat.zero_le _, fun _ h => absurd h (by decide), fun _ h => absurd h (by decide)⟩

/-! ## A step from a state with the invariant -/

/-- The CPU's arrival at a word is the reset, or only moves the CPU (R291). -/
theorem arrive_cases (s : State) (w : WordAddr) : s.arrive w = s.boot ∨ s.arrive w = { s with cpu := some w } := by
  unfold State.arrive
  split
  · exact .inl rfl
  · exact .inr rfl

/-- `u` is `s` after events of the bus, its outside's list aside. -/
def AfterBus (s u : State) : Prop := ∃ rest, OnlyBus { s with host := rest } u

theorem AfterBus.keeps {s u : State} (h : AfterBus s u) : u.cfg = s.cfg ∧ u.flash = s.flash := by
  obtain ⟨rest, p, seen, draws, rfl⟩ := h
  exact ⟨rfl, rfl⟩

theorem AfterBus.vectorStaged {s u : State} (h : AfterBus s u) (hv : s.VectorStaged) : u.VectorStaged := by
  obtain ⟨rest, p, seen, draws, rfl⟩ := h
  exact vectorStaged_of_same hv rfl rfl rfl rfl

/-- A step ends in a reset, in a move of the CPU outside the block, or in a pass, each of a state that the bus events leave and
that has the invariant too (R7, R240). -/
theorem step_inv_cases {s t : State} (hs : s.Inv) (h : step s = .next t) : ∃ u, u.Inv ∧ AfterBus s u ∧
    (t = u.boot ∨ (∃ w, t = { u with cpu := some w }) ∨ t = pass u) := by
  obtain ⟨rest, -, rfl⟩ | ⟨-, u, hd, -, ha⟩ := step_cases h
  · exact ⟨_, inv_host hs rest, ⟨rest, .refl _⟩, .inl rfl⟩
  · refine ⟨u, inv_delivered hs hd, delivered_onlyBus hd, ?_⟩
    obtain ⟨-, rfl⟩ | ⟨-, w, hw, hc⟩ | ⟨-, -, rfl⟩ := advance_cases ha
    · exact .inl rfl
    · obtain ⟨k, -, rfl⟩ := cpuStep_cases hw hc
      exact (arrive_cases u _).imp_right fun he => .inl ⟨_, he⟩
    · exact .inr (.inr rfl)

/-! ## The bootloader region (R43, R61, R79) -/

/-- Every flash byte at or above BOOT_START reads the same in `t` as in `s`. -/
def SameBootRegion (s t : State) : Prop := ∀ a, s.cfg.bootStart ≤ a → Memory.read a t.flash = Memory.read a s.flash

theorem sameBootRegion_of_flash {s t : State} (h : t.flash = s.flash) : SameBootRegion s t := fun a _ => by rw [h]

theorem sameBootRegion_deleteAll {s : State} (h : s.Inv) : SameBootRegion s (deleteAll s) := by
  intro a ha
  have hf : (deleteAll s).flash = (eraseApplication s).flash := by unfold deleteAll restart; split <;> rfl
  rw [hf, read_eraseApplication h.legal, if_neg (by omega)]

theorem sameBootRegion_slowOps {s : State} (h : s.Inv) : SameBootRegion s (slowOps s) := by
  obtain ⟨-, he⟩ | ⟨-, -, he⟩ | ⟨-, -, hr, he⟩ | ⟨-, -, -, he⟩ := slowOps_cases s <;> rw [he]
  · exact sameBootRegion_of_flash rfl
  · exact sameBootRegion_deleteAll h
  · rw [commitPage_eq]; exact fun a ha => read_commit_high h ((ready_iff s).1 hr).2 ha
  · exact sameBootRegion_of_flash rfl

theorem sameBootRegion_finishPass {s : State} (h : s.Inv) : SameBootRegion s (finishPass s) := by
  obtain ⟨-, he⟩ | ⟨-, -, he⟩ | ⟨-, -, he⟩ := finishPass_cases s <;> rw [he]
  · obtain ⟨-, he⟩ | ⟨-, he⟩ := idleTick_cases s <;> rw [he] <;> exact sameBootRegion_of_flash rfl
  · exact sameBootRegion_of_flash rfl
  · exact sameBootRegion_slowOps h

/-- The end of a pass, seen from the state before its handlers. -/
theorem sameBootRegion_finishPass_of_keeps {s t : State} (ht : t.Inv) (hf : t.flash = s.flash) (hc : t.cfg = s.cfg) :
    SameBootRegion s (finishPass t) := fun a ha => by
  rw [sameBootRegion_finishPass ht a (hc ▸ ha), hf]

theorem sameBootRegion_pass {s : State} (h : s.Inv) : SameBootRegion s (pass s) := by
  have hl := inv_lower .slowOpsReady h
  have hf := lower_slow s
  obtain ⟨-, -, he⟩ | ⟨-, -, he⟩ | ⟨-, -, ha, he⟩ | ⟨-, -, -, he⟩ | ⟨-, -, he⟩ := pass_cases s <;> rw [he]
  · exact sameBootRegion_of_flash rfl
  · obtain ⟨hm, hc, -⟩ := startHandler_keeps (s.lower .slowOpsReady)
    exact sameBootRegion_finishPass_of_keeps (inv_startHandler hl hf) hm hc
  · obtain ⟨hm, hc, -⟩ := overflowHandler_keeps (s.lower .slowOpsReady)
    exact sameBootRegion_finishPass_of_keeps (inv_overflowHandler hl ha hf) hm hc
  · exact sameBootRegion_finishPass_of_keeps (inv_clearOvf hl) rfl rfl
  · exact sameBootRegion_finishPass_of_keeps hl rfl rfl

/-! ## The reset-vector page (R47 item 4, R206) -/

theorem vectorStaged_step {s t : State} (hs : s.Inv) (hv : s.VectorStaged) (ha : s.cfg.autoPageAddr = true)
    (h : step s = .next t) : t.VectorStaged := by
  obtain ⟨u, hu, hd, rfl | ⟨w, rfl⟩ | rfl⟩ := step_inv_cases hs h
  · exact vectorStaged_boot u
  · exact vectorStaged_of_same (hd.vectorStaged hv) rfl rfl rfl rfl
  · exact vectorStaged_pass hu (hd.vectorStaged hv) (by rw [hd.keeps.1]; exact ha)

/-- The trampoline page is not the reset-vector page, so the two bytes of flash word 0 lie below it (R9). -/
theorem trampPage_ge_two {c : Config} (h : c.Legal) : 2 ≤ c.trampPage := by
  have hb := h.bootStart
  have hp := h.pageSize
  unfold Config.trampPage
  omega

/-- Page 0 is committed as it is staged: the slot check is for the trampoline page alone (R205). -/
theorem commitImage_of_page_zero {s : State} (h : s.cfg.Legal) (hp : s.pageAddress = 0#16) : commitImage s = s.stage := by
  have ht := trampPage_ge_two h
  have hc : checksSlot s = false := by
    unfold checksSlot
    rw [hp, decide_eq_false (show ¬(0#16).toNat = s.cfg.trampPage by rw [BitVec.toNat_zero]; omega), Bool.and_false]
  rw [commitImage, hc]
  rfl

/-- What a byte of the committed page is: the image's byte `e`, itself where the build erases the page or the byte is still
erased, and ANDed into what stands there otherwise (R62, R202). -/
def programmedByte (s : State) (a : Nat) (e : Byte) : Byte :=
  if s.cfg.eraseBeforeWrite = true ∨ Memory.read a s.flash = 0xFF#8 then e else Memory.read a s.flash &&& e

/-- ANDing a byte into erased flash gives that byte (R62). -/
theorem and_into_eq_programmedByte (s : State) (a : Nat) (e : Byte) :
    (if s.cfg.eraseBeforeWrite = true then erased else Memory.read a s.flash) &&& e = programmedByte s a e := by
  have hff : (0xFF#8) &&& e = e := BitVec.allOnes_and
  unfold programmedByte erased
  by_cases hw : s.cfg.eraseBeforeWrite = true
  · rw [if_pos hw, if_pos (.inl hw), hff]
  · by_cases hr : Memory.read a s.flash = 0xFF#8
    · rw [if_neg hw, if_pos (.inr hr), hr, hff]
    · rw [if_neg hw, if_neg (by simp [hw, hr])]

/-- A commit of page 0 programs the first two staged bytes into flash word 0 (R202, R204). -/
theorem read_commit_page_zero {s : State} (h : s.Inv) (hp : s.pageAddress = 0#16) {a : Nat} (ha : a < 2) :
    Memory.read a (committedFlash s) = programmedByte s a (s.stage.getD a 0) := by
  have ht := trampPage_ge_two h.legal
  have hps := h.legal.pageSize
  have hin : s.pageAddress.toNat ≤ a ∧ a < s.pageAddress.toNat + s.cfg.pageSize := by
    rw [hp, BitVec.toNat_zero]; omega
  rw [read_committedFlash h, if_neg (by omega), read_programPage h, if_pos hin, commitImage_of_page_zero h.legal hp, hp,
    BitVec.toNat_zero, Nat.sub_zero, and_into_eq_programmedByte]

/-- A full page 0 has the bootloader-entry jump in its first word (R167). -/
theorem entryJump_staged {s : State} (h : s.Inv) (hv : s.VectorStaged) (ha : s.cfg.autoPageAddr = true)
    (hr : ready s = true) (hp : s.pageAddress = 0#16) :
    s.stage.getD 0 0 = entryLo s.cfg ∧ s.stage.getD 1 0 = entryHi s.cfg := by
  have hfull := ((ready_iff s).1 hr).1
  have hps := h.legal.pageSize
  obtain ⟨-, h0, h1⟩ := hv ha
  exact ⟨(h0 hp (by omega)).trans (entryLo_eq h.legal), (h1 hp (by omega)).trans (entryHi_eq h.legal)⟩

end Sys2Proof.Machine

open Sys2Proof Sys2Proof.Machine

/-- Settles O49: the power-up state is a reset state of the reference build over an erased flash. -/
theorem powerUpStateMeetsTheInvariant : Obligations.PowerUpStateMeetsTheInvariant := by
  unfold Obligations.PowerUpStateMeetsTheInvariant
  have hinv : State.reset.Inv :=
    inv_resetWith reference_legal rfl (fun _ hc => nomatch hc) List.length_replicate List.length_replicate
      List.length_replicate
  exact ⟨hinv, vectorStaged_of_zero rfl rfl, ⟨rfl, rfl, rfl⟩, rfl, rfl, rfl, rfl, rfl, Ring.contents_empty _,
    Ring.contents_empty _⟩

/-- Settles O50: a reset, a move of the CPU and a pass each keep the invariant. -/
theorem everyStepKeepsTheInvariant : Obligations.EveryStepKeepsTheInvariant := by
  intro s t hs h
  obtain ⟨u, hu, -, rfl | ⟨w, rfl⟩ | rfl⟩ := step_inv_cases hs h
  · exact inv_boot hu.legal hu.flash_wf hu.flash_below
  · exact { hu with }
  · exact inv_pass hu

/-- Settles O51: only a commit and the safety erase write the flash, and both end below BOOT_START. -/
theorem bootloaderIsNeverWritten : Obligations.BootloaderIsNeverWritten := by
  intro s t hs h
  obtain ⟨u, hu, hd, ht⟩ := step_inv_cases hs h
  obtain ⟨hc, hf⟩ := hd.keeps
  have key : t.cfg = u.cfg ∧ SameBootRegion u t := by
    obtain rfl | ⟨w, rfl⟩ | rfl := ht
    · exact ⟨rfl, sameBootRegion_of_flash rfl⟩
    · exact ⟨rfl, sameBootRegion_of_flash rfl⟩
    · exact ⟨pass_cfg u, sameBootRegion_pass hu⟩
  refine ⟨key.1.trans hc, fun a ha => ?_⟩
  rw [key.2 a (hc ▸ ha), hf]

/-- Settles O52: the staged entry jump is an invariant, and a commit of page 0 programs the staged bytes. -/
theorem resetVectorIsNeverCommittedVerbatim : Obligations.ResetVectorIsNeverCommittedVerbatim := by
  intro s t hs hv hauto h
  refine ⟨vectorStaged_step hs hv hauto h, fun u hd hruns hn hi hx hdl hr hp => ?_⟩
  have hbus : AfterBus s u := delivered_onlyBus hd
  have hc := hbus.keeps.1
  have hu := inv_delivered hs hd
  have ht : t.flash = committedFlash u.completed := by
    have he := (step_slowOps hd hruns hn hi).symm.trans h
    rw [slowOps_commit hx hdl hr, commitPage_eq] at he
    cases he
    rfl
  obtain ⟨h0, h1⟩ := entryJump_staged hu (hbus.vectorStaged hv) (by rw [hc]; exact hauto) hr hp
  have key : ∀ a < 2, Memory.read a t.flash = programmedByte u a (u.stage.getD a 0) := fun a ha => by
    rw [ht]; exact read_commit_page_zero (inv_completed hu) hp ha
  have k0 := key 0 (by decide)
  have k1 := key 1 (by decide)
  rw [h0, programmedByte, hc] at k0
  rw [h1, programmedByte, hc] at k1
  exact ⟨k0, k1⟩
end

section
/-! PROOFS. The statements of the memory's family (20_memory.md): the ring buffers and the flash primitives. Both are read off
the laws of the ring buffer and of the flash, one law per operation. -/

namespace Sys2Proof.Machine

open Sys2Proof

variable {cap : Nat} {q : Ring}

/-- A push into a full buffer drops the byte and changes nothing else (R66). -/
theorem Ring.push_of_full (b : Byte) (h : q.count = cap) : q.push cap b = q := if_pos h

/-- A push into a buffer with room appends the byte to the content (R66). -/
theorem Ring.contents_push_of_room (hc : IsPow2 cap) (b : Byte) (hq : q.Wf cap)
    (h : q.count < cap) : (q.push cap b).contents cap = q.contents cap ++ [b] := by
  rw [Ring.contents_push hc b hq, if_neg (Nat.ne_of_lt h)]

end Sys2Proof.Machine

open Sys2Proof Sys2Proof.Machine

/-- Settles O25: push by its two cases, full and with room, and pop from a buffer that holds a byte. -/
theorem ringBuffersAreFifo : Obligations.RingBuffersAreFifo := by
  intro cap q b hc hq
  exact ⟨Ring.wf_push hc b hq, Ring.contents_length hc hq, Ring.push_of_full b, Ring.contents_push_of_room hc b hq,
    fun hn => ⟨Ring.wf_pop hc hq hn, Ring.contents_pop hn⟩⟩

/-- Settles O39: a read after FlashProgram and after FlashErasePage, both of which keep the canonical form. -/
theorem flashPrimitives : Obligations.FlashPrimitives := by
  intro m ps p img hm
  exact ⟨Memory.wf_program img p hm, Memory.wf_erasePage ps p hm, fun a => Memory.read_program a img p hm,
    fun a => Memory.read_erasePage ps p a m⟩
end

section
/-! PROOFS. The statements of the encodings' family (30_encoding.md). Each of the three spaces has one law that ties the decoder
to `wf`, `standsIn` and `encode`: an address byte, a command frame, a CPU jump word. -/

namespace Sys2Proof.Machine

open Sys2Proof

variable {c : Config} {i : Instr} {op : Byte} {rest : List Byte}

/-! ## Address bytes (R90, R91) -/

/-- The address bits count double, the direction bit once. -/
theorem address_byte_toNat (b : BitVec 7) (d : BitVec 1) : (b ++ d : Byte).toNat = 2 * b.toNat + d.toNat := by
  rw [BitVec.toNat_append, Nat.shiftLeft_eq, Nat.mul_comm, ← Nat.two_pow_add_eq_or_of_lt d.isLt, Nat.pow_one]

theorem append_zero_eq_zero_iff {b : BitVec 7} : (b ++ 0#1 : Byte) = 0x00#8 ↔ b = 0#7 := by
  rw [← BitVec.toNat_inj, ← BitVec.toNat_inj, address_byte_toNat]
  simp

/-- An address byte is one of the two patterns of R90. -/
theorem address_byte_cases (a : Byte) : ∃ b : BitVec 7, a = b ++ 1#1 ∨ a = b ++ 0#1 := by
  refine ⟨a.extractLsb' 1 7, ?_⟩
  have h := addr_split a
  split at h
  · exact .inl h
  · exact .inr h

theorem decodeAddress_append_one (b : BitVec 7) : decodeAddress (b ++ 1#1) = .addrRead b := by
  have h0 : (b ++ 1#1 : Byte).getLsbD 0 = true := by rw [BitVec.getLsbD_append]; rfl
  rw [decodeAddress, if_pos h0, BitVec.extractLsb'_append_eq_left]

theorem decodeAddress_append_zero (b : BitVec 7) :
    decodeAddress (b ++ 0#1) = if b = 0#7 then .addrBroadcast else .addrWrite b := by
  have h0 : (b ++ 0#1 : Byte).getLsbD 0 = false := by rw [BitVec.getLsbD_append]; rfl
  simp only [decodeAddress, h0, append_zero_eq_zero_iff, BitVec.extractLsb'_append_eq_left, Bool.false_eq_true, if_false]

/-- An address byte is an instruction exactly where that instruction is admitted, stands and is encoded so. -/
theorem decodeAddress_eq_iff (c : Config) (a : Byte) (i : Instr) :
    decodeAddress a = i ↔ i.wf c = true ∧ i.standsIn c .address = true ∧ encode c i = [a] := by
  constructor
  · rintro rfl
    obtain ⟨b, rfl | rfl⟩ := address_byte_cases a
    · rw [decodeAddress_append_one]
      exact ⟨rfl, rfl, rfl⟩
    · rw [decodeAddress_append_zero]
      split
      · next hb => subst hb; exact ⟨rfl, rfl, rfl⟩
      · next hb => exact ⟨bne_iff_ne.2 hb, rfl, rfl⟩
  · rintro ⟨hw, hs, he⟩
    cases i with
    | addrRead b => cases he; exact decodeAddress_append_one b
    | addrWrite b =>
      cases he
      rw [decodeAddress_append_zero, if_neg (bne_iff_ne.1 hw)]
    | addrBroadcast => cases he; rfl
    | getVersion | exit | deleteFlash | setPageAddr _ _ | writePage _ _ | readFlash _ _ _ _ | softInit | unknown _ _
    | rjmp _ | entryJump _ | trampoline _ => cases hs

/-- What stands on the bus is encoded in one byte. -/
theorem encode_of_standsIn_address (h : i.standsIn c .address = true) : ∃ a, encode c i = [a] := by
  cases i with
  | addrRead _ | addrWrite _ | addrBroadcast => exact ⟨_, rfl⟩
  | getVersion | exit | deleteFlash | setPageAddr _ _ | writePage _ _ | readFlash _ _ _ _ | softInit | unknown _ _
  | rjmp _ | entryJump _ | trampoline _ => cases h

/-! ## Command frames (R93, R94, R160) -/

/-- UNKNOWN is admitted for the frames that no present command answers: its opcode is none's, or it is too short (R160). -/
theorem wf_unknown_iff (hc : c.Legal) : (Instr.unknown op rest).wf c = true ↔
    ∀ k, c.present k = true → c.opcode k = op → rest.length + 1 < c.frameLength k := by
  cases hk : c.commandOf op with
  | none =>
    simp only [Instr.wf, hk, true_iff]
    exact fun k hp ho => absurd ho ((commandOf_eq_none op).1 hk k hp)
  | some k =>
    simp only [Instr.wf, hk, decide_eq_true_eq]
    obtain ⟨hp, ho⟩ := (commandOf_eq_some hc op k).1 hk
    refine ⟨fun hl k' _ ho' => ?_, fun h => h k hp ho⟩
    rwa [opcode_inj hc k' k (ho'.trans ho.symm)]

/-- The decoder answers UNKNOWN for the frames UNKNOWN is admitted for. -/
theorem decodeFrame_unknown (hw : (Instr.unknown op rest).wf c = true) :
    decodeFrame c (op :: rest) = .ok (.unknown op rest) := by
  cases hk : c.commandOf op with
  | none => simp only [decodeFrame, hk]
  | some k =>
    have hl : rest.length + 1 < c.frameLength k := by simpa only [Instr.wf, hk, decide_eq_true_eq] using hw
    simp only [decodeFrame, hk, if_pos hl]

/-- A present command's frame that is long enough is read by its row of R94. -/
theorem decodeFrame_opcode (hc : c.Legal) {k : Command} (hp : c.present k = true)
    (hl : c.frameLength k ≤ rest.length + 1) :
    decodeFrame c (c.opcode k :: rest) = .ok (decodeOperands c k rest) :=
  decodeFrame_of ((commandOf_eq_some hc _ k).2 ⟨hp, rfl⟩) hl

/-- Everything a frame can decode to. -/
theorem decodeFrame_ok_cases (hc : c.Legal) {bs : List Byte} (h : decodeFrame c bs = .ok i) :
    ∃ op rest, bs = op :: rest ∧
      (((Instr.unknown op rest).wf c = true ∧ i = .unknown op rest) ∨
      ∃ k, c.present k = true ∧ c.opcode k = op ∧ c.frameLength k ≤ rest.length + 1 ∧ i = decodeOperands c k rest) := by
  cases bs with
  | nil => cases h
  | cons op rest =>
    refine ⟨op, rest, rfl, ?_⟩
    by_cases hw : (Instr.unknown op rest).wf c = true
    · rw [decodeFrame_unknown hw] at h
      cases h
      exact .inl ⟨hw, rfl⟩
    · rw [wf_unknown_iff hc] at hw
      push Not at hw
      obtain ⟨k, hp, rfl, hl⟩ := hw
      rw [decodeFrame_opcode hc hp hl] at h
      cases h
      exact .inr ⟨k, hp, rfl, hl, rfl⟩

theorem decodeOperands_ne_unknown (c : Config) (k : Command) (rest : List Byte) (op : Byte) (more : List Byte) :
    decodeOperands c k rest ≠ .unknown op more := by
  cases k <;> exact nofun

/-- The operands of a frame that is long enough are admitted, and the frame begins with their encoding (R94, R160). -/
theorem decodeOperands_spec {k : Command} (hp : c.present k = true) (hl : c.frameLength k ≤ rest.length + 1) :
    (decodeOperands c k rest).wf c = true ∧ (decodeOperands c k rest).standsIn c .frame = true ∧
      encode c (decodeOperands c k rest) <+: c.opcode k :: rest := by
  cases k with
  | getVersion | exit | deleteFlash => exact ⟨rfl, rfl, rest, rfl⟩
  | softInit => exact ⟨hp, rfl, rest, rfl⟩
  | setPageAddr =>
    match rest, hl with
    | hi :: lo :: more, _ => exact ⟨hp, rfl, more, rfl⟩
  | readFlash =>
    match rest, hl with
    | hi :: lo :: len :: rcs :: more, _ => exact ⟨hp, rfl, more, rfl⟩
  | writePage =>
    have hn : c.packetSize < rest.length := by simp only [Config.frameLength] at hl; omega
    have htake : rest.take c.packetSize ++ [rest.getD c.packetSize 0] = rest.take (c.packetSize + 1) := by
      rw [List.take_succ_eq_append_getElem hn, List.getD_eq_getElem _ _ hn]
    refine ⟨beq_iff_eq.2 (List.length_take_of_le hn.le), rfl, rest.drop (c.packetSize + 1), ?_⟩
    show c.opcWritePage :: (rest.take c.packetSize ++ [rest.getD c.packetSize 0]) ++ rest.drop (c.packetSize + 1) =
      c.opcWritePage :: rest
    rw [htake, List.cons_append, List.take_append_drop]

/-- A present command's encoding decodes to it, whatever follows it in the frame (R160). -/
theorem decodeFrame_encode_append (hc : c.Legal) (hw : i.wf c = true) (hs : i.standsIn c .frame = true)
    (hu : ∀ op more, i ≠ .unknown op more) (rest : List Byte) : decodeFrame c (encode c i ++ rest) = .ok i := by
  cases i with
  | getVersion => exact decodeFrame_opcode hc (k := .getVersion) rfl (Nat.le_add_left ..)
  | exit => exact decodeFrame_opcode hc (k := .exit) rfl (Nat.le_add_left ..)
  | deleteFlash => exact decodeFrame_opcode hc (k := .deleteFlash) rfl (Nat.le_add_left ..)
  | softInit => exact decodeFrame_opcode hc (k := .softInit) hw (Nat.le_add_left ..)
  | setPageAddr hi lo => exact decodeFrame_opcode hc (k := .setPageAddr) hw (Nat.le_add_left ..)
  | readFlash hi lo len rcs => exact decodeFrame_opcode hc (k := .readFlash) hw (Nat.le_add_left ..)
  | writePage d cs =>
    have hd : d.length = c.packetSize := beq_iff_eq.1 hw
    have h := decodeFrame_opcode hc (k := .writePage) (rest := d ++ [cs] ++ rest) rfl
      (by simp [Config.frameLength, hd])
    simpa [decodeOperands, Config.opcode, encode, ← hd] using h
  | unknown op more => exact absurd rfl (hu op more)
  | addrRead _ | addrWrite _ | addrBroadcast | rjmp _ | entryJump _ | trampoline _ => cases hs

/-! ## Jump words (R100, R101, R203) -/

/-- A CPU word laid out in its two bytes is read back whole (R71). -/
theorem decode_wordBytes (c : Config) (w : WordAddr) (x : Word) : decode c (.cpu w) (wordBytes x) = decodeJump c w x := by
  show decodeJump c w (wordOf (hiByte x) (loByte x)) = _
  rw [wordBytes_word]

theorem wordBytes_wordOf (hi lo : Byte) : wordBytes (wordOf hi lo) = [lo, hi] := by
  rw [wordBytes, loByte, hiByte, wordOf, BitVec.extractLsb'_append_eq_left, BitVec.extractLsb'_append_eq_right]

/-- A plain relative jump stands where the word is neither the trampoline nor the entry jump. -/
theorem standsIn_rjmp_iff {w : WordAddr} {k : BitVec 12} : (Instr.rjmp k).standsIn c (.cpu w) = true ↔
    w ≠ c.trampWord ∧ ¬(w = 0#12 ∧ k = c.entryDisp) := by
  simp [Instr.standsIn, imp_iff_not_or]

/-- A jump word is that one of the three jumps with its displacement which is admitted and stands at the word's place. -/
theorem decodeJump_jumpWord_eq_iff (c : Config) (w : WordAddr) (k : BitVec 12) (i : Instr) :
    decodeJump c w (jumpWord k) = .ok i ↔
      (i = .rjmp k ∨ i = .entryJump k ∨ i = .trampoline k) ∧ i.wf c = true ∧ i.standsIn c (.cpu w) = true := by
  rw [decodeJump_jumpWord, Except.ok.injEq]
  constructor
  · rintro rfl
    split
    · next ht => exact ⟨.inr (.inr rfl), rfl, beq_iff_eq.2 ht⟩
    · next ht =>
      split
      · next he =>
        obtain ⟨rfl, rfl⟩ := he
        exact ⟨.inr (.inl rfl), beq_self_eq_true _, bne_iff_ne.2 ht⟩
      · next he => exact ⟨.inl rfl, rfl, standsIn_rjmp_iff.2 ⟨ht, he⟩⟩
  · rintro ⟨rfl | rfl | rfl, hw, hs⟩
    · obtain ⟨ht, he⟩ := standsIn_rjmp_iff.1 hs
      rw [if_neg ht, if_neg he]
    · obtain ⟨h0, ht⟩ : w = 0#12 ∧ w ≠ c.trampWord := by simpa [Instr.standsIn] using hs
      rw [if_neg ht, if_pos ⟨h0, beq_iff_eq.1 hw⟩]
    · exact if_pos (beq_iff_eq.1 hs)

/-- The encoding of a jump stands in flash as its jump word. -/
theorem encode_jump {k : BitVec 12} (h : i = .rjmp k ∨ i = .entryJump k ∨ i = .trampoline k) (c : Config) :
    encode c i = wordBytes (jumpWord k) := by
  rcases h with rfl | rfl | rfl <;> rfl

/-- What stands at a word address is one of the three jumps. -/
theorem jump_of_standsIn {w : WordAddr} (h : i.standsIn c (.cpu w) = true) :
    ∃ k, i = .rjmp k ∨ i = .entryJump k ∨ i = .trampoline k := by
  cases i with
  | rjmp k => exact ⟨k, .inl rfl⟩
  | entryJump k => exact ⟨k, .inr (.inl rfl)⟩
  | trampoline k => exact ⟨k, .inr (.inr rfl)⟩
  | getVersion | exit | deleteFlash | setPageAddr _ _ | writePage _ _ | readFlash _ _ _ _ | softInit | unknown _ _
  | addrRead _ | addrWrite _ | addrBroadcast => cases h

/-! ## What the CPU does with a jump word (R100, R101, R291) -/

/-- The displacement is sign-extended from 12 bits (R100). -/
theorem jumpTarget_eq (w : WordAddr) (k : BitVec 12) :
    jumpTarget w k =
      BitVec.ofInt 12 ((w.toNat : Int) + 1 + (if 2048 ≤ k.toNat then (k.toNat : Int) - 4096 else k.toNat)) := by
  have hk : k.toInt = if 2048 ≤ k.toNat then (k.toNat : Int) - 4096 else k.toNat := by
    rw [BitVec.toInt_eq_toNat_cond]
    split <;> split <;> omega
  rw [jumpTarget, hk]

/-- The trampoline slot is not the reset vector: two pages lie below BOOT_START (R9). -/
theorem trampWord_ne_zero (h : c.Legal) : c.trampWord ≠ 0#12 := by
  intro he
  have hz := congrArg BitVec.toNat he
  rw [Config.trampWord, BitVec.toNat_ofNat] at hz
  have := h.bWord_bounds
  simp only [BitVec.toNat_ofNat] at hz
  omega

/-- The entry jump's target is B_WORD (R101). -/
theorem jumpTarget_entryDisp (h : c.Legal) : (jumpTarget 0#12 c.entryDisp).toNat = c.bWord := by
  have := h.bWord_bounds
  rw [jumpTarget_toNat, Config.entryDisp, BitVec.toNat_ofNat, BitVec.toNat_ofNat]
  omega

theorem bootWord_toNat (h : c.Legal) : c.bootWord.toNat = c.bWord := by
  rw [Config.bootWord, BitVec.toNat_ofNat]
  exact Nat.mod_eq_of_lt h.bWord_bounds.2

/-- A jump to B_WORD is a boot (R291). -/
theorem relativeJump_boots {s : State} {w : WordAddr} {k : BitVec 12} (hw : s.cpu = some w)
    (ht : jumpTarget w k = s.cfg.bootWord) : relativeJump k s = .next s.boot := by
  rw [relativeJump_of_cpu hw, State.arrive, if_pos ht]

end Sys2Proof.Machine

open Sys2Proof Sys2Proof.Machine

/-- Settles O1: by the space, with the one law of each. -/
theorem decodeOfEncodeIsTheInstruction : Obligations.DecodeOfEncodeIsTheInstruction := by
  intro c hc i sp hw hs
  cases sp with
  | address =>
    obtain ⟨a, he⟩ := encode_of_standsIn_address hs
    rw [he]
    exact congrArg Except.ok ((decodeAddress_eq_iff c a i).2 ⟨hw, hs, he⟩)
  | frame =>
    by_cases hu : ∃ op more, i = .unknown op more
    · obtain ⟨op, more, rfl⟩ := hu
      exact decodeFrame_unknown hw
    · have h := decodeFrame_encode_append hc hw hs (fun op more he => hu ⟨op, more, he⟩) []
      rwa [List.append_nil] at h
  | cpu w =>
    obtain ⟨k, hk⟩ := jump_of_standsIn hs
    rw [encode_jump hk, decode_wordBytes]
    exact (decodeJump_jumpWord_eq_iff c w k i).2 ⟨hk, hw, hs⟩

/-- Settles O2: by the space; only a frame has a surplus. -/
theorem encodeOfDecodeIsAPrefix : Obligations.EncodeOfDecodeIsAPrefix := by
  intro c hc sp bs i h
  cases sp with
  | address =>
    match bs, h with
    | [a], h =>
      obtain ⟨hw, hs, he⟩ := (decodeAddress_eq_iff c a i).1 (Except.ok.inj h)
      exact ⟨hw, hs, ⟨[], by rw [he]; rfl⟩⟩
  | frame =>
    obtain ⟨op, rest, rfl, ⟨hw, rfl⟩ | ⟨k, hp, rfl, hl, rfl⟩⟩ := decodeFrame_ok_cases hc h
    · exact ⟨hw, rfl, ⟨[], List.append_nil _⟩⟩
    · exact decodeOperands_spec hp hl
  | cpu w =>
    match bs, h with
    | [lo, hi], h =>
      have h : decodeJump c w (wordOf hi lo) = .ok i := h
      obtain ⟨k, hx, -⟩ := decodeJump_cases h
      rw [hx] at h
      obtain ⟨hk, hw, hs⟩ := (decodeJump_jumpWord_eq_iff c w k i).1 h
      rw [encode_jump hk, ← hx, wordBytes_wordOf]
      exact ⟨hw, hs, ⟨[], List.append_nil _⟩⟩

/-- Settles O4: by when UNKNOWN is admitted, and by the row of R94 for a frame that is long enough. -/
theorem unknownAndShortFrames : Obligations.UnknownAndShortFrames := by
  intro c hc op rest
  refine ⟨fun h => ?_, fun k _ ho hl => ?_, fun k hp ho hl => ?_⟩
  · exact decodeFrame_unknown ((wf_unknown_iff hc).2 fun k hp ho => absurd ho (h k hp))
  · refine decodeFrame_unknown ((wf_unknown_iff hc).2 fun k' _ ho' => ?_)
    rwa [opcode_inj hc k' k (ho'.trans ho.symm)]
  · subst ho
    exact ⟨_, decodeFrame_opcode hc hp hl, decodeOperands_ne_unknown c k rest⟩

/-- Settles O5: each word by evaluation in the reference configuration. -/
theorem wordsOfTheVectorsDecode : Obligations.WordsOfTheVectorsDecode := by
  unfold Obligations.WordsOfTheVectorsDecode
  decide

/-- Settles O20: by the direction bit, and for a write by whether the address is 0. -/
theorem addressBytesMatchByTheRule : Obligations.AddressBytesMatchByTheRule := by
  intro c hc a
  refine ⟨decodeAddress a, rfl, ?_⟩
  obtain ⟨b, rfl | rfl⟩ := address_byte_cases a
  · have hn : (b ++ 1#1 : Byte).toNat = 2 * b.toNat + 1 := address_byte_toNat b 1#1
    rw [decodeAddress_append_one, hn]
    refine ⟨fun h => ?_, fun h => by omega, fun h => ?_, fun h _ _ => ⟨b, fun hb => h (by rw [hb]), .inl rfl⟩⟩
    · rw [BitVec.eq_of_toNat_eq (show b.toNat = c.ownAddr.toNat by omega)]
    · rw [h] at hn
      exact absurd hn.symm (Nat.succ_ne_zero _)
  · have hn : (b ++ 0#1 : Byte).toNat = 2 * b.toNat := address_byte_toNat b 0#1
    rw [decodeAddress_append_zero, hn, ne_eq (b ++ 0#1), append_zero_eq_zero_iff]
    refine ⟨fun h => by omega, fun h => ?_, fun hz => if_pos hz,
      fun _ h hz => ⟨b, fun hb => h (by rw [hb]), .inr ⟨if_neg hz, hz⟩⟩⟩
    rw [BitVec.eq_of_toNat_eq (show b.toNat = c.ownAddr.toNat by omega), if_neg hc.ownAddr]

/-- Settles O31: the step is the CPU's, which fetches the two bytes and runs the jump they are. -/
theorem stepRunsTheDecodedJump : Obligations.StepRunsTheDecodedJump := by
  intro s u w i hd hrun hre hcpu hdec
  have hj : decodeJump u.cfg w (u.flashWord w) = .ok i := hdec
  have hf : fetchJump w u = .ok i := by
    rw [fetchJump, decode_wordBytes, hj]
  rw [step_of_delivered hd hrun, advance, hre, hcpu]
  show cpuStep w u = _
  rw [cpuStep, hf]

/-- Settles O45: the jump's target in R100's form, and the CPU's arrival there. -/
theorem relativeJumpMovesTheCpu : Obligations.RelativeJumpMovesTheCpu := by
  intro s k i hi
  rw [exec_jump hi]
  refine ⟨fun hn => by rw [relativeJump, hn], fun w hw => ?_⟩
  rw [← jumpTarget_eq]
  refine ⟨fun hne => ?_, fun heq => ⟨s.boot, relativeJump_boots hw heq, atReset_boot s, fun _ => rfl, rfl⟩⟩
  rw [relativeJump_of_cpu hw, State.arrive, if_neg hne]

/-- Settles O46: the two bytes are the entry jump's word, and its target is B_WORD. -/
theorem entryJumpStartsTheBootloader : Obligations.EntryJumpStartsTheBootloader := by
  intro s hc hcpu
  refine ⟨?_, jumpTarget_entryDisp hc, s.boot, ?_, atReset_boot s, fun _ => rfl, Ring.contents_empty _,
    Ring.contents_empty _, rfl⟩
  · rw [← entryLo_eq hc, ← entryHi_eq hc]
    refine (decode_wordBytes s.cfg 0#12 (entryJumpWord s.cfg)).trans ((decodeJump_jumpWord_eq_iff ..).2 ?_)
    exact ⟨.inr (.inl rfl), beq_self_eq_true _, bne_iff_ne.2 (trampWord_ne_zero hc).symm⟩
  · refine relativeJump_boots hcpu (BitVec.eq_of_toNat_eq ?_)
    rw [jumpTarget_entryDisp hc, bootWord_toNat hc]
end

section
/-! PROOFS. The statements of the transport's family (40_transport.md). The overflow handler has one equation per row of the
table R140; what an arm leaves is read off its equation, and the two transactions are their steps in order. -/

namespace Sys2Proof.Machine

open Sys2Proof

variable {s t u v : State} {i : Instr}

/-! ## What the transport leaves unchanged (R120, R121) -/

/-- The transport's fields, the flags, TX, the idle count and the draws are no stores. -/
theorem sameStores_update (s : State) (phase armed sdaDrive bitCount periph flags tx idleCount draws) :
    SameStores s { s with
      phase := phase, armed := armed, sdaDrive := sdaDrive, bitCount := bitCount, periph := periph, flags := flags, tx := tx
      idleCount := idleCount, draws := draws } :=
  ⟨fun _ => rfl, ⟨rfl, rfl, rfl, rfl, rfl⟩, ⟨rfl, rfl, rfl, rfl, rfl, rfl, rfl⟩, rfl⟩

/-- Writing dr and clearing the shift-complete flag leave the rest of the peripheral (R120). -/
theorem ovfCleared_update {dr : Byte}
    (h : t.periph = { s.periph with dr := dr, ovfFlag := false, shifted := 0 }) : OvfCleared s t := by
  unfold OvfCleared
  rw [h]
  exact ⟨rfl, rfl, rfl, rfl, rfl, rfl⟩

/-! ## The arms of the overflow handler (R120, R140) -/

theorem overflowHandler_checkAddress (h : s.phase = .checkAddress) : overflowHandler s = checkAddress s := by
  rw [overflowHandler, h]

theorem overflowHandler_read (h : s.phase = .checkAddress) (hr : isRead s.cfg s.periph.dr = true) :
    overflowHandler s = readArm s := by
  rw [overflowHandler_checkAddress h, checkAddress_eq, if_pos hr]

theorem not_isRead_of_isWrite {c : Config} {a : Byte} (h : isWrite c a = true) : ¬isRead c a = true := by
  intro hr
  rw [isWrite, Bool.and_eq_true, Bool.not_eq_true'] at h
  rw [isRead, Bool.and_eq_true, h.2] at hr
  exact absurd hr.2 (by decide)

theorem overflowHandler_write (h : s.phase = .checkAddress) (hw : isWrite s.cfg s.periph.dr = true) :
    overflowHandler s = writeArm s := by
  rw [overflowHandler_checkAddress h, checkAddress_eq, if_neg (not_isRead_of_isWrite hw), if_pos hw]

theorem overflowHandler_foreign (h : s.phase = .checkAddress) (hm : matchesAddr s.cfg s.periph.dr = false) :
    overflowHandler s = foreignArm s := by
  rw [overflowHandler_checkAddress h, checkAddress_eq, isRead, isWrite, hm]
  rfl

/-- The next reply byte is due in SendData, and in CheckAck after an ACK (R127, R130). -/
theorem overflowHandler_send (h : s.phase = .sendData ∨ (s.phase = .checkAck ∧ s.periph.dr.getLsbD 0 = false)) :
    overflowHandler s = sendDataAction s := by
  obtain hp | ⟨hp, hb⟩ := h
  · rw [overflowHandler, hp]
  · rw [overflowHandler, hp]
    exact if_neg (by rw [hb]; decide)

theorem sendDataAction_pos (h : 0 < s.tx.count) :
    sendDataAction s = (s.sendNext.withPhase .waitAckAfterSend).clearOvf := if_pos h

theorem sendDataAction_zero (h : s.tx.count = 0) : sendDataAction s = s.rearm.clearOvf := if_neg (by omega)

theorem overflowHandler_waitAckAfterSend (h : s.phase = .waitAckAfterSend) :
    overflowHandler s = (s.readAck.withPhase .checkAck).clearOvf := by
  rw [overflowHandler, h]
  rfl

theorem overflowHandler_checkAck_nack (h : s.phase = .checkAck) (hb : s.periph.dr.getLsbD 0 = true) :
    overflowHandler s = (s.rearm.raise .slowOpsReady).clearOvf := by
  rw [overflowHandler, h]
  exact if_pos hb

theorem overflowHandler_waitReceive (h : s.phase = .waitReceive) :
    overflowHandler s = (s.receiveByte.withPhase .receiveAndAck).clearOvf := by
  rw [overflowHandler, h]
  rfl

theorem overflowHandler_receiveAndAck (h : s.phase = .receiveAndAck) :
    overflowHandler s = ((s.receive s.periph.dr).sendAck.withPhase .waitReceive).clearOvf := by
  rw [overflowHandler, h]
  rfl

/-- Every arm clears the shift-complete flag (R120). -/
theorem overflowHandler_ovf (s : State) : (overflowHandler s).periph.ovfFlag = false := by
  obtain ⟨-, -, he⟩ | ⟨-, -, he⟩ | ⟨-, -, he⟩ | ⟨-, -, he⟩ | ⟨-, -, he⟩ | ⟨-, he⟩ | ⟨-, -, he⟩ | ⟨-, he⟩ | ⟨-, he⟩ :=
    overflowHandler_cases s <;> rw [he] <;> rfl

/-! ## The dispatch (R160) -/

theorem dispatch_of_empty (h : s.frame = []) : dispatch s = s.flushTx := by
  unfold dispatch
  rw [h]
  rfl

theorem dispatch_of_decode (h : decode s.cfg .frame s.frame = .ok i) :
    dispatch s = runCommand i s.flushTx.drainRx := by
  unfold dispatch
  rw [h]

/-- What a frame decodes to is a command. -/
theorem standsIn_of_decodeFrame {c : Config} {bs : List Byte} (h : decode c .frame bs = .ok i) :
    i.standsIn c .frame = true := by
  obtain ⟨-, he⟩ | ⟨j, hj, hs⟩ := decodeFrame_cases c bs
  · rw [he] at h; cases h
  · rw [hj] at h; cases h; exact hs

/-- The dispatch of a frame is exec of what it decodes to, on TX flushed and RX drained (R160). -/
theorem exec_of_decodeFrame (h : decode s.cfg .frame s.frame = .ok i) :
    exec i s.flushTx.drainRx = .next (dispatch s) := by
  rw [exec_command (standsIn_of_decodeFrame h), dispatch_of_decode h]

/-- A dispatch leaves the flash, the transport, the peripheral and the run, and draws the flushed TX (R68, R160). -/
theorem dispatch_frames (s : State) : SameFlash s (dispatch s) ∧ SameTransport s (dispatch s) ∧ SameRun s (dispatch s) ∧
    (dispatch s).periph = s.periph ∧ (dispatch s).idleCount = s.idleCount ∧
    (dispatch s).draws = s.draws + s.cfg.txCap := by
  obtain ⟨-, he⟩ | ⟨i, -, -, he⟩ := dispatch_cases s <;> rw [he]
  · exact ⟨fun _ => rfl, ⟨rfl, rfl, rfl, rfl⟩, ⟨rfl, rfl, rfl, rfl, rfl, rfl, rfl⟩, rfl, rfl, rfl⟩
  · obtain ⟨hf, ht, hr, hp, hi, hd, -⟩ := commandFrame_of_only (onlyCommand_runCommand i s.flushTx.drainRx)
    exact ⟨hf, ht, hr, hp, hi, hd⟩

/-! ## The start handler (R122) -/

/-- The start handler holds exactly where the clock is high and the host pulls the data line low. -/
theorem startHolds_iff (s : State) : startHolds s = true ↔ s.periph.scl = true ∧ s.periph.hostSda = false := by
  rw [startHolds, State.sda_enterStart, Bool.and_eq_true, Bool.not_eq_true']

/-- The start handler arms for the address byte where the clock is low, and re-arms where it is high (R122). -/
theorem startHandler_eq (s : State) : startHandler s = { s with
    phase := .checkAddress, armed := !s.periph.scl, sdaDrive := false, bitCount := .eight
    periph := { s.periph with startFlag := false, stopFlag := false, ovfFlag := false, shifted := 0 } } := by
  obtain ⟨hc, he⟩ | ⟨hc, he⟩ := startHandler_cases s <;> rw [he, hc] <;> rfl

/-- The end of a pass that completes no transaction: an idle pass is counted where the block is not initialized, and the run
ends where that count is reached; nothing else changes (R243, R244, R248). -/
theorem finishPass_countedRun (hc : SameRun u t) (hi : initialized t = initialized u) (hk : t.idleCount = u.idleCount)
    (hs : t.flag .slowOpsReady = false) :
    ∃ run cpu, finishPass t =
        { t with idleCount := u.idleCount + (if initialized u = true then 0 else 1), run := run, cpu := cpu } ∧
      CountedRun (initialized u = false ∧ u.CountReached) u (finishPass t) := by
  obtain ⟨hcfg, hrun, hcpu, hre, hie, hh, hse⟩ := hc
  have same : ∀ run cpu n, SameRun { u with run := run, cpu := cpu } { t with idleCount := n, run := run, cpu := cpu } :=
    fun _ _ _ => ⟨hcfg, rfl, rfl, hre, hie, hh, hse⟩
  obtain ⟨h, he⟩ | ⟨h, hr, he⟩ | ⟨h, hr, he⟩ := finishPass_counts hcfg hi hs hk <;> rw [he, h, ← hk]
  · exact ⟨t.run, t.cpu, rfl, same _ _ _, fun hl => absurd hl.1 (by decide), fun _ => ⟨hrun, hcpu⟩⟩
  · have hw : t.cfg.trampWord = u.cfg.trampWord := by rw [hcfg]
    exact ⟨_, _, rfl, same _ _ _, fun _ => ⟨congrArg Run.launched hw, congrArg some hw⟩, fun hl => absurd ⟨rfl, hr⟩ hl⟩
  · exact ⟨t.run, t.cpu, rfl, same _ _ _, fun hl => absurd hl.2 hr, fun _ => ⟨hrun, hcpu⟩⟩

/-! ## A write transaction (R141) -/

/-- A pass without an event goes to its end at once (R240). -/
theorem pass_of_quiet (hs : s.periph.startFlag = false) (ho : s.periph.ovfFlag = false) :
    pass s = finishPass (s.lower .slowOpsReady) := by
  obtain ⟨h, -⟩ | ⟨h, -⟩ | ⟨-, h, -⟩ | ⟨-, h, -⟩ | ⟨-, -, he⟩ := pass_cases s
  · rw [hs] at h; cases h
  · rw [hs] at h; cases h
  · rw [ho] at h; cases h
  · rw [ho] at h; cases h
  · exact he

/-- `t` after the host's stop condition. -/
abbrev State.afterStop (t : State) (h : List Turn) : State :=
  { t with host := h, periph := { t.periph with stopFlag := true, scl := true, hostSda := true } }

/-- The host's stop condition ends a write transaction: the block lowers SlowOpsReady and only counts the pass (R240). -/
theorem step_stop {q l h} (hs : s.NoAutoLaunch) (w : Receiving s .receiveAndAck false .eight q l (.bus [.stop] :: h) t) :
    ∃ n, step t = .next { (t.afterStop h).lower .slowOpsReady with idleCount := n } := by
  have hdel : deliverAll [.stop] { t with host := h } = .ok (t.afterStop h) := rfl
  obtain ⟨n, hn⟩ := finishPass_idleCount (t := (t.afterStop h).lower .slowOpsReady)
    (noAutoLaunch_lowered hs w.cfg ((lower_of_lowered w.fl).1.trans w.fl)) (lower_slow _)
  exact ⟨n, by rw [step_of_turn w.host hdel w.run, pass_of_quiet (s := t.afterStop h) w.st w.ov, hn]⟩

/-- A write transaction of n bytes up to its stop condition: its start, its address, and each byte with its answer (R141). -/
theorem run_writeTransaction {a : Byte} {bs : List Byte} {rest : List Turn} (hs : s.NoAutoLaunch) (hr : s.Runs)
    (hi : idle s = true) (ha : isWrite s.cfg a = true) (hh : s.host = writeTurns a bs ++ rest) :
    ∃ t, Sys2Proof.core.run (3 + 2 * bs.length) s = .next t ∧
      Receiving s .receiveAndAck false .eight (Ring.pushAll s.cfg.rxCap s.rx bs)
        ((bs.reverse.flatMap fun b => false :: bitsSeen b) ++ (false :: (bitsSeen a ++ s.seen)))
        (.bus [.stop] :: rest) t := by
  have hh' : s.host = startTurn :: byteTurn a :: releaseTurn :: (bs.flatMap sendTurns ++ .bus [.stop] :: rest) := by
    simp [hh, writeTurns, sendTurns]
  obtain ⟨t1, h1, w1⟩ := step_start hs hr hi hh'
  obtain ⟨t2, h2, w2⟩ := step_writeAddress a hs ha w1
  obtain ⟨t3, h3, w3⟩ := step_ackOut hs w2
  obtain ⟨t4, h4, w4⟩ := run_dataIn s hs _ bs t3 _ _ w3
  have h13 : Sys2Proof.core.run 3 s = .next t3 := by rw [run_succ h1, run_succ h2, run_one h3]
  exact ⟨t4, (run_add 3 _ h13).trans h4, w4⟩

/-! ## A read transaction (R142) -/

/-- The frame dispatched at a read address is the one RX held when the transaction began, and its command does what it would
have done then (R124, R160). -/
theorem sameCommand_dispatch (hI : s.Inv) (hdec : decode s.cfg .frame s.frame = .ok i)
    (hc : u.cfg = s.cfg) (hrx : u.rx = s.rx) (hf : u.flash = s.flash) (hw : SameWriter s u)
    (hfl : OtherFlags .slowOpsReady s u) : SameCommand (runCommand i s.flushTx.drainRx) (dispatch u) := by
  have hframe : u.frame = s.frame := by rw [State.frame, hrx, hc]; rfl
  rw [dispatch_of_decode (s := u) (i := i) (by rw [hframe, hc]; exact hdec)]
  have hcap := hI.legal.txCap.1
  refine sameCommand_runCommand i ⟨hI.legal, hc, hf, hw, hfl, flushTx_wf hcap, ?_, rfl⟩
  have hwf := flushTx_wf (s := u) (by rw [hc]; exact hcap)
  rwa [hc] at hwf

/-- The read arm leaves the reply of that command in TX and drives the ACK (R124). -/
theorem sending_readArm (hI : s.Inv) (hdec : decode s.cfg .frame s.frame = .ok i)
    (hc : u.cfg = s.cfg) (hrx : u.rx = s.rx) (hf : u.flash = s.flash) (hw : SameWriter s u)
    (hfl : OtherFlags .slowOpsReady s u) (ha : u.armed = true) (hr : u.Runs) (hst : u.periph.startFlag = false) :
    Sending (runCommand i s.flushTx.drainRx) .sendData true .one (runCommand i s.flushTx.drainRx).txBytes u.seen u.host
      (readArm u) := by
  have w := sameCommand_dispatch hI hdec hc hrx hf hw hfl
  obtain ⟨-, ⟨-, harm, -⟩, ⟨-, hrun, hcpu, hre, -, hhost, hseen⟩, hper, -⟩ := dispatch_frames u
  obtain ⟨hr1, hr2, hr3⟩ := hr
  have hst' : (dispatch u).periph.startFlag = false := by rw [hper]; exact hst
  exact ⟨w.legal, w.cfg, rfl, harm.trans ha, rfl, rfl, w.fl, dispatch_frame u, w.wt, w.tx, hseen, hhost, w.flash, w.wr,
    ⟨hrun.trans hr1, hre.trans hr2, hcpu.trans hr3⟩, hst', rfl, rfl⟩

/-- `t` after the eight clocks of a byte. -/
abbrev State.afterByte (t : State) (h : List Turn) (l : List Bool) (p : Periph) : State :=
  { t with host := h, seen := l, periph := p }

/-- The device's own read address runs the frame and is acknowledged (R124). -/
theorem step_readAddress {l h} (hI : s.Inv) (hi : initialized s = true)
    (hdec : decode s.cfg .frame s.frame = .ok i)
    (w : Receiving s .checkAddress false .eight s.rx l (byteTurn (s.cfg.ownAddr ++ 1#1) :: h) t) :
    ∃ t', step t = .next t' ∧ t'.periph.dr = 0 ∧
      Sending (runCommand i s.flushTx.drainRx) .sendData true .one (runCommand i s.flushTx.drainRx).txBytes
        (bitsSeen (s.cfg.ownAddr ++ 1#1) ++ l) h t' := by
  obtain ⟨u, hr, hstep, hsc, hdr, p, hu⟩ := step_byteIn _ w
  change u = t.afterByte h (bitsSeen (s.cfg.ownAddr ++ 1#1) ++ l) p at hu
  subst hu
  have hread : isRead t.cfg p.dr = true := by
    rw [w.cfg, show p.dr = s.cfg.ownAddr ++ 1#1 from hdr]
    exact isRead_own
  have hlow : OtherFlags .slowOpsReady s t := fun j hj => by
    rw [w.fl]
    exact otherFlags_lower (fun _ _ => rfl) j hj
  have w' := sending_readArm (u := (t.afterByte h (bitsSeen (s.cfg.ownAddr ++ 1#1) ++ l) p).lower .slowOpsReady) hI hdec
    w.cfg w.rx w.flash w.wr (otherFlags_lower hlow) w.ar hr hsc.2.2
  have hinit := (initialized_of_otherFlags w'.cfg w'.fl).trans (initialized_runCommand i s.flushTx.drainRx hi)
  have hslow := (dispatch_slow ((t.afterByte h (bitsSeen (s.cfg.ownAddr ++ 1#1) ++ l) p).lower .slowOpsReady)).trans
    (lower_slow _)
  rw [pass_of_shiftComplete hsc, overflowHandler_read (s := State.lower (t.afterByte ..) _) w.ph hread,
    finishPass_eq_self hinit hslow] at hstep
  exact ⟨_, hstep, rfl, w'⟩

/-- With nothing pending the slow operations do nothing (R246). -/
theorem slowOps_nothing (hx : u.flag .exitToApp = false) (hdl : u.flag .deleteFlash = false)
    (hrd : ready u = false) : slowOps u.completed = u.completed := by
  have h1 : u.completed.flag .exitToApp = false := (completed_flag u (by decide)).trans hx
  have h2 : u.completed.flag .deleteFlash = false := (completed_flag u (by decide)).trans hdl
  have h3 : ready u.completed = false := hrd
  rw [slowOps, h1, h2, h3]
  rfl

theorem flag_of_otherFlags {f g : Flag} (h : OtherFlags g v t) (hf : f ≠ g) : t.flag f = v.flag f :=
  h f.pos fun hp => hf (Flag.pos_inj.1 hp)

theorem ready_congr (hc : t.cfg = v.cfg) (hw : SameWriter v t) : ready t = ready v := by
  obtain ⟨hp, hx, -⟩ := hw
  rw [ready, ready, hc, hp, hx]

/-- The host's NACK of a sent byte completes the transaction, and a pass with no slow operation to run leaves it completed
(R131, R246). -/
theorem step_nack {x l h} (hi : initialized v = true) (hx : v.flag .exitToApp = false)
    (hdl : v.flag .deleteFlash = false) (hrd : ready v = false)
    (w : Sending v .checkAck false .one x l (releaseTurn :: h) t) (hdr : t.periph.dr = 0) :
    ∃ dw scl dr, step t = .next (t.afterClock h (true :: l) dw scl true dr).completed := by
  obtain ⟨u, dr, dw, scl, rfl, hsc, -, hstep, hb⟩ := step_oneClock true w (fun h => by cases h) (fun _ => hdr)
  rw [Bool.not_false, Bool.and_true] at hsc hstep
  have hxt := (flag_of_otherFlags w.fl (by decide)).trans hx
  have hdlt := (flag_of_otherFlags w.fl (by decide)).trans hdl
  have hiu := (initialized_of_otherFlags w.cfg w.fl).trans hi
  refine ⟨dw, scl, dr, ?_⟩
  rw [hstep, pass_of_nack ⟨hsc, w.ph, hb rfl⟩ hiu,
    slowOps_nothing (u := t.afterClock h (true :: l) dw scl true dr) hxt hdlt ((ready_congr w.cfg w.wr).trans hrd)]

/-- A read transaction up to the load of its first reply byte: its start, its address with the dispatch, and the device's
ACK. -/
theorem run_readStart {y : Byte} {x : List Byte} {h : List Turn} (hI : s.Inv) (hr : s.Runs)
    (hi : initialized s = true) (hid : idle s = true) (hdec : decode s.cfg .frame s.frame = .ok i)
    (hy : (runCommand i s.flushTx.drainRx).txBytes = y :: x)
    (hh : s.host = startTurn :: byteTurn (s.cfg.ownAddr ++ 1#1) :: releaseTurn :: h) :
    ∃ t, Sys2Proof.core.run 3 s = .next t ∧ t.periph.dr = y ∧
      Sending (runCommand i s.flushTx.drainRx) .waitAckAfterSend true .eight x
        (false :: (bitsSeen (s.cfg.ownAddr ++ 1#1) ++ s.seen)) h t := by
  obtain ⟨t1, h1, w1⟩ := step_start (.inl hi) hr hid hh
  obtain ⟨t2, h2, d2, w2⟩ := step_readAddress hI hi hdec w1
  rw [hy] at w2
  obtain ⟨u, dr, dw, scl, hu, hsc, -, h3, -⟩ := step_oneClock true w2 (fun _ => d2) (fun h => by cases h)
  obtain ⟨w3, d3⟩ := pass_loadsNext w2 (initialized_runCommand i _ hi) _ _ dr dw scl _ hu hsc (.inl rfl)
  exact ⟨pass u, by rw [run_succ h1, run_succ h2, run_one h3], d3, w3⟩

end Sys2Proof.Machine

open Sys2Proof Sys2Proof.Machine

/-- Settles O17: the dispatch by whether RX is empty, and the ACK configuration after it. -/
theorem ownReadAddressDispatchesAndAcks : Obligations.OwnReadAddressDispatchesAndAcks := by
  intro s hc _
  refine ⟨readArm s, dispatch s, ?_, dispatch_of_empty, fun i hi => exec_of_decodeFrame hi, Ring.contents_empty _,
    flushTx_wf hc.txCap.1, dispatch_frame s, ?_⟩
  · exact congrArg Host.Outcome.next (if_pos rfl)
  · obtain ⟨hf, ⟨-, ha, -⟩, hr, hp, hi, hd⟩ := dispatch_frames s
    have hper : (readArm s).periph = { s.periph with dr := 0x00#8, ovfFlag := false, shifted := 0 } := by
      rw [← hp]
      rfl
    exact ⟨rfl, ha, rfl, rfl, rfl, State.sda_sendAck _, ovfCleared_update hper, rfl, rfl, ⟨rfl, rfl, rfl, rfl, rfl⟩, hf, hr,
      hi, hd⟩

/-- Settles O21: row by row, by the equation of each arm. -/
theorem transitionTable : Obligations.TransitionTable := by
  intro s _ ha
  refine ⟨overflowHandler_ovf s, fun hp hr => ?_, fun hp hw => ?_, fun hp hm => ?_, fun h => ⟨fun hn => ?_, fun hn => ?_⟩,
    fun hp => ?_, fun hp hb => ?_, fun hp => ?_, fun hp => ?_, fun hx => ?_⟩
  · rw [overflowHandler_read hp hr]
    obtain ⟨-, ⟨-, hd, -⟩, -⟩ := dispatch_frames s
    exact ⟨rfl, hd.trans ha, rfl, rfl⟩
  · rw [overflowHandler_write hp hw]
    exact ⟨rfl, ha, rfl, rfl⟩
  · rw [overflowHandler_foreign hp hm]
    exact ⟨rfl, rfl, rfl⟩
  · rw [overflowHandler_send h, sendDataAction_pos hn]
    exact ⟨rfl, ha, rfl, rfl⟩
  · rw [overflowHandler_send h, sendDataAction_zero hn]
    exact ⟨rfl, rfl, rfl⟩
  · rw [overflowHandler_waitAckAfterSend hp]
    exact ⟨rfl, ha, rfl, rfl⟩
  · rw [overflowHandler_checkAck_nack hp hb]
    exact ⟨rfl, rfl, rfl, flag_raised (s := s.rearm) rfl⟩
  · rw [overflowHandler_waitReceive hp]
    exact ⟨rfl, ha, rfl, rfl⟩
  · rw [overflowHandler_receiveAndAck hp]
    exact ⟨rfl, ha, rfl, rfl⟩
  · by_cases hs : s.flag .slowOpsReady = true
    · exact .inl hs
    · exact .inr (overflowHandler_slow s (eq_false_of_ne_true hs) hx)

/-- Settles O32: the pass of a start condition, by whether the start handler holds. -/
theorem startHandlerHoldsArmsOrRearms : Obligations.StartHandlerHoldsArmsOrRearms := by
  intro s u hd hr hstart
  obtain ⟨-, hh, he⟩ | ⟨-, hh, he⟩ | ⟨h, -⟩ | ⟨h, -⟩ | ⟨h, -⟩ := pass_cases u
  · refine ⟨_, (step_eq_pass hd hr).trans (congrArg _ he), rfl, rfl, rfl, rfl, rfl, rfl, fun _ => rfl,
      ⟨rfl, rfl, rfl, rfl, rfl⟩, rfl, rfl, rfl, State.sda_enterStart _,
      fun _ => ⟨rfl, rfl, rfl, rfl, rfl, rfl, rfl, rfl, rfl, rfl, rfl⟩, fun hn => absurd ((startHolds_iff u).1 hh) hn⟩
  · have hf : (startHandler (u.lower .slowOpsReady)).flags = (u.lower .slowOpsReady).flags := by rw [startHandler_eq]
    obtain ⟨run, cpu, hfin, hcr⟩ := finishPass_countedRun (u := u) (t := startHandler (u.lower .slowOpsReady))
      (sameRun_startHandler _).1 ((initialized_congr (startHandler_keeps _).2.1 hf).trans (initialized_lower u))
      (sameRun_startHandler _).2 ((State.flag_congr hf _).trans (lower_slow u))
    have hns : ¬(u.periph.scl = true ∧ u.periph.hostSda = false) := fun hn => by
      rw [(startHolds_iff u).2 hn] at hh; cases hh
    rw [hfin, startHandler_eq] at hcr
    refine ⟨_, (step_eq_pass hd hr).trans (congrArg _ (he.trans hfin)), ?_⟩
    rw [startHandler_eq]
    exact ⟨rfl, rfl, rfl, rfl, rfl, rfl, fun _ => rfl, ⟨rfl, rfl, rfl, rfl, rfl⟩, rfl, rfl, rfl, State.sda_released rfl,
      fun hn => absurd hn hns, fun _ => ⟨rfl, rfl, rfl, rfl, rfl, rfl, hcr⟩⟩
  all_goals rw [hstart] at h; cases h

/-- Settles O53: the run up to the stop condition, and the stop's own pass. -/
theorem writeTransactionFillsRx : Obligations.WriteTransactionFillsRx := by
  intro s a bs rest hI hr hs hi ha hh
  obtain ⟨t, hrun, w⟩ := run_writeTransaction hs hr hi ha hh
  obtain ⟨n, hstep⟩ := step_stop hs w
  have hcap := hI.legal.rxCap.1
  have hend := (run_add _ 1 hrun).trans (run_one hstep)
  rw [show 3 + 2 * bs.length + 1 = 2 * bs.length + 4 by omega] at hend
  refine ⟨_, hend, rfl, ?_, ?_, w.tx, (lower_of_lowered w.fl).1.trans w.fl,
    fun b => congrArg _ w.flash, w.wr, w.run.1, w.cfg, w.ph, w.ar, w.st, rfl, ?_⟩
  · show t.rx.contents t.cfg.rxCap = _
    rw [w.rx, w.cfg, Ring.contents_pushAll hcap bs hI.rx_wf]
    rfl
  · show t.rx.Wf s.cfg.rxCap
    rw [w.rx]
    exact Ring.wf_pushAll hcap bs hI.rx_wf
  · show t.seen = _
    rw [w.seen]
    simp

/-- Settles O54: the dispatch and the first load, the n acknowledged bytes, and the last byte with its NACK. -/
theorem readTransactionSendsTheReply : Obligations.ReadTransactionSendsTheReply := by
  intro s v i n rest hI hr hi hid hh hdec hex hlen hx hdl hrd
  obtain rfl : runCommand i s.flushTx.drainRx = v := by
    rw [exec_command (standsIn_of_decodeFrame hdec)] at hex
    cases hex
    rfl
  set v := runCommand i s.flushTx.drainRx with hv
  obtain ⟨y, x, hy⟩ : ∃ y x, v.txBytes = y :: x := List.exists_cons_of_length_pos (by omega)
  have hiv : initialized v = true := initialized_runCommand i _ hi
  obtain ⟨t1, h1, d1, w1⟩ := run_readStart (h := (List.replicate n (readTurns ackTurn)).flatten ++
    byteTurn 0xFF#8 :: releaseTurn :: .bus [.stop] :: rest) hI hr hi hid hdec hy
    (by simp [hh, readTransaction, sendTurns, readTurns])
  obtain ⟨t2, h2, w2, d2⟩ := run_bytesOut v hiv _ n t1 y x _ w1 d1 (by rw [hy] at hlen; simpa using hlen)
  obtain ⟨t3, h3, w3, d3⟩ := step_byteOut hiv w2
  obtain ⟨dw, scl, dr, h4⟩ := step_nack hiv hx hdl hrd w3 d3
  have hend := (run_add 3 (2 * n + 2) h1).trans ((run_add (2 * n) 2 h2).trans ((run_succ h3 1).trans (run_one h4)))
  rw [show 3 + (2 * n + 2) = 2 * n + 5 by omega] at hend
  have hflash : v.flash = s.flash := by
    obtain ⟨_, _, _, _, _, _, _, he⟩ := onlyCommand_runCommand i s.flushTx.drainRx
    rw [hv, he]
    rfl
  refine ⟨_, hend, rfl, w3.rx, ?_,
    completed_slow _, fun j hj => (completed_other _ j hj).trans (w3.fl j hj), rfl,
    fun b => congrArg _ (w3.flash.trans hflash), w3.wr, w3.run.1, ?_⟩
  · show t3.tx.contents t3.cfg.txCap = _
    rw [w3.cfg, w3.tx, hy]
    rfl
  · show true :: (bitsSeen t2.periph.dr ++ _) = _
    rw [d2, hy]
    simp

/-- Settles O18: both directions of a foreign address run the one arm, which only re-arms. -/
theorem foreignAddressRearms : Obligations.ForeignAddressRearms := by
  intro s a i ha hi
  have he : exec i s = .next (foreignArm s) := by
    obtain rfl | ⟨rfl, -⟩ := hi <;> exact congrArg Host.Outcome.next (if_neg ha)
  exact ⟨_, he, rfl, rfl, rfl, rfl, State.sda_rearm s, rfl, ovfCleared_update rfl, rfl, rfl, rfl, rfl,
    sameStores_update s _ _ _ _ _ _ _ _ _⟩

/-- Settles O19: the own write address and the broadcast run the one arm, which configures the ACK. -/
theorem writeAddressAcksAndReceives : Obligations.WriteAddressAcksAndReceives := by
  intro s i hi
  have he : exec i s = .next (writeArm s) := by
    obtain rfl | rfl := hi
    · exact congrArg Host.Outcome.next (if_pos rfl)
    · rfl
  exact ⟨_, he, rfl, rfl, rfl, rfl, rfl, State.sda_sendAck (s.withPhase .waitReceive), ovfCleared_update rfl, rfl, rfl, rfl,
    rfl, sameStores_update s _ _ _ _ _ _ _ _ _⟩

/-- Settles O22: the send action by whether TX holds a byte. -/
theorem sendArmTakesTheNextByte : Obligations.SendArmTakesTheNextByte := by
  intro s hc hw hd
  have hnil : s.txBytes = [] ↔ s.tx.count = 0 := Ring.contents_eq_nil hc.txCap.1 hw
  rw [overflowHandler_send hd]
  obtain hn | hn := Nat.eq_zero_or_pos s.tx.count
  · rw [sendDataAction_zero hn]
    refine ⟨rfl, ovfCleared_update rfl, rfl, rfl, sameStores_update s _ _ _ _ _ _ _ _ _, hw, fun b more h => ?_,
      fun _ => ⟨rfl, rfl, rfl, rfl, rfl, State.sda_rearm s⟩⟩
    rw [hnil.2 hn] at h
    cases h
  · rw [sendDataAction_pos hn]
    refine ⟨rfl, ovfCleared_update rfl, rfl, rfl, sameStores_update s _ _ _ _ _ _ _ _ _, Ring.wf_pop hc.txCap.1 hw hn,
      fun b more h => ?_, fun h => absurd (hnil.1 h) (by omega)⟩
    obtain ⟨rfl, rfl⟩ := List.cons.inj ((Ring.contents_pop hn).symm.trans h)
    exact ⟨rfl, rfl, rfl, rfl, rfl, rfl, State.sda_sendByte _ _⟩

/-- Settles O23: the arm of a sampled NACK. -/
theorem nackCompletesTheTransaction : Obligations.NackCompletesTheTransaction := by
  intro s hp hb
  rw [overflowHandler_checkAck_nack hp hb]
  exact ⟨rfl, rfl, rfl, State.sda_rearm s, flag_raised (s := s.rearm) rfl, otherFlags_raise (s := s) rfl,
    ovfCleared_update rfl, rfl, rfl, rfl, rfl, sameStores_update s _ _ _ _ _ _ _ _ _⟩

/-- Settles O24: the arm of ReceiveAndAck pushes into RX, which keeps or drops the byte. -/
theorem receivedByteIsPushedOrDropped : Obligations.ReceivedByteIsPushedOrDropped := by
  intro s hc hw hp
  rw [overflowHandler_receiveAndAck hp]
  exact ⟨Ring.contents_push hc.rxCap.1 _ hw, Ring.wf_push hc.rxCap.1 _ hw, rfl, rfl, rfl, rfl, rfl,
    State.sda_sendAck (s.receive s.periph.dr), ovfCleared_update rfl, rfl, rfl, rfl, rfl, fun _ => rfl,
    ⟨rfl, rfl, rfl, rfl, rfl⟩, ⟨rfl, rfl, rfl, rfl, rfl, rfl, rfl⟩⟩

/-- Settles O30: the pass runs the read arm, whose dispatch is exec of the decoded frame. -/
theorem stepRunsTheDecodedCommand : Obligations.StepRunsTheDecodedCommand := by
  intro s u i hd hr hsc hp hdr hdec
  refine ⟨dispatch (u.lower .slowOpsReady), exec_of_decodeFrame (s := u.lower .slowOpsReady) hdec, ?_⟩
  have hread : isRead u.cfg u.periph.dr = true := by rw [hdr]; exact isRead_own
  rw [step_eq_pass hd hr, pass_of_shiftComplete hsc, overflowHandler_read (s := u.lower .slowOpsReady) hp hread]
  rfl

/-- Settles O55: the arm of WaitAckAfterSend. -/
theorem sentByteIsFollowedByAnAckRead : Obligations.SentByteIsFollowedByAnAckRead := by
  intro s hp
  rw [overflowHandler_waitAckAfterSend hp]
  exact ⟨rfl, rfl, rfl, rfl, rfl, State.sda_readAck s, ovfCleared_update rfl, rfl, rfl, rfl, rfl,
    sameStores_update s _ _ _ _ _ _ _ _ _⟩

/-- Settles O56: the arm of WaitReceive. -/
theorem ackIsFollowedByAByteToReceive : Obligations.AckIsFollowedByAByteToReceive := by
  intro s hp
  rw [overflowHandler_waitReceive hp]
  exact ⟨rfl, rfl, rfl, rfl, rfl, State.sda_receiveByte s, ovfCleared_update rfl, rfl, rfl, rfl, rfl,
    sameStores_update s _ _ _ _ _ _ _ _ _⟩
end

section
/-! PROOFS. The statements of the dispatcher's family (41_dispatcher.md). A command is a reply, and beside it at most one flag
or a write of the page writer's registers: each command has one equation per outcome of its rule, and the two laws of a reply,
alone and with a flag, say what it leaves. -/

namespace Sys2Proof.Machine

open Sys2Proof

variable {s : State} {d : List Byte} {hi lo len rcs cs : Byte}

/-! ## Replies (41_dispatcher.md, "reply") -/

/-- A command's frame, whatever the command (R160). -/
theorem commandFrame_runCommand (i : Instr) (s : State) : CommandFrame s (runCommand i s) :=
  commandFrame_of_only (onlyCommand_runCommand i s)

theorem replied_reply (hc : s.cfg.Legal) (hw : s.tx.Wf s.cfg.txCap) (bs : List Byte) : Replied bs s (s.reply bs) :=
  replied_pushAll hc hw bs rfl rfl

/-- A reply alone writes TX and nothing else. -/
theorem reply_leaves (s : State) (bs : List Byte) :
    (s.reply bs).flags = s.flags ∧ SameWriter s (s.reply bs) ∧ CommandFrame s (s.reply bs) :=
  ⟨rfl, ⟨rfl, rfl, rfl, rfl, rfl⟩, commandFrame_of_only (onlyCommand_reply s bs)⟩

/-- A reply with a flag writes TX and that one bit. -/
theorem reply_raise_spec (hc : s.cfg.Legal) (hw : s.tx.Wf s.cfg.txCap) (bs : List Byte) (f : Flag) :
    Replied bs s ((s.reply bs).raise f) ∧ ((s.reply bs).raise f).flag f = true ∧
      OtherFlags f s ((s.reply bs).raise f) ∧ SameWriter s ((s.reply bs).raise f) ∧
      CommandFrame s ((s.reply bs).raise f) :=
  ⟨replied_pushAll hc hw bs rfl rfl, flag_raised (s := s) rfl, otherFlags_raise rfl, ⟨rfl, rfl, rfl, rfl, rfl⟩,
    commandFrame_of_only ((onlyCommand_reply s bs).trans (onlyCommand_raise _ f))⟩

/-! ## Get-Version (R161) -/

/-- A flash address below FLASH_BYTES is read as it stands (R64). -/
theorem flashRead_of_lt {a : Nat} (h : a < s.cfg.flashBytes) : s.flashRead a = Memory.read a s.flash := by
  rw [State.flashRead, Nat.mod_eq_of_lt h]

/-- The reply's address bytes are BOOT_START's, and its trampoline bytes those below BOOT_START (R99). -/
theorem versionReply_eq (hc : s.cfg.Legal) : versionReply s =
    [s.cfg.ackGetVersion, s.cfg.signature, s.cfg.versionMajor, s.cfg.versionMinor] ++ s.cfg.features ++
      [BitVec.ofNat 8 (s.cfg.bootStart / 256), BitVec.ofNat 8 (s.cfg.bootStart % 256),
        Memory.read (s.cfg.bootStart - 1) s.flash, Memory.read (s.cfg.bootStart - 2) s.flash,
        s.cfg.lowFuse, s.cfg.calibration] ++
      if s.cfg.featureEmptyCheck = true then [Config.emptyFlashReport s.cfg s.flash] else [] := by
  obtain ⟨-, hlow, hb⟩ := hc.bootStart
  have hp := hc.pageSize.2.1
  have hf := hc.flashBytes.2
  have h16 : (BitVec.ofNat 16 s.cfg.bootStart).toNat = s.cfg.bootStart := by rw [BitVec.toNat_ofNat]; omega
  have hhi : hiByte (BitVec.ofNat 16 s.cfg.bootStart) = BitVec.ofNat 8 (s.cfg.bootStart / 256) := by
    apply BitVec.eq_of_toNat_eq
    rw [hiByte_toNat, h16, BitVec.toNat_ofNat]
    omega
  have hlo : loByte (BitVec.ofNat 16 s.cfg.bootStart) = BitVec.ofNat 8 (s.cfg.bootStart % 256) := by
    apply BitVec.eq_of_toNat_eq
    rw [loByte_toNat, h16, BitVec.toNat_ofNat]
    omega
  have hslot : s.cfg.trampSlot + 1 = s.cfg.bootStart - 1 := by unfold Config.trampSlot; omega
  rw [versionReply, hhi, hlo, hslot, flashRead_of_lt (by omega), Config.trampSlot, flashRead_of_lt (by omega)]

theorem versionFlag_eq (h : Handshake) : versionFlag h = if h = .oneStep then .init1 else .init2 := by
  cases h <;> rfl

/-! ## Set-Page-Address (R166) -/

theorem setPageAddress_of_manual (h : s.cfg.autoPageAddr = false) : setPageAddress hi lo s =
    ({ s with pageAddress := wordOf hi lo &&& ~~~s.cfg.pageMask } : State).reply [s.cfg.ackSetPageAddr, hi + lo] :=
  if_pos (by rw [Config.present, h]; rfl)

theorem setPageAddress_of_auto (h : s.cfg.autoPageAddr = true) : setPageAddress hi lo s = unknownCommand s :=
  if_neg (by rw [Config.present, h]; decide)

/-- Of the page writer's registers only pageAddress is written, and no flag (R166). -/
theorem setPageAddress_keeps (hi lo : Byte) (s : State) :
    (setPageAddress hi lo s).flags = s.flags ∧ (setPageAddress hi lo s).pageIndex = s.pageIndex ∧
      (setPageAddress hi lo s).stage = s.stage ∧ (setPageAddress hi lo s).appResetLsb = s.appResetLsb ∧
      (setPageAddress hi lo s).appResetMsb = s.appResetMsb := by
  cases h : s.cfg.autoPageAddr with
  | false => rw [setPageAddress_of_manual h]; exact ⟨rfl, rfl, rfl, rfl, rfl⟩
  | true => rw [setPageAddress_of_auto h]; exact ⟨rfl, rfl, rfl, rfl, rfl⟩

/-! ## Write-Page-Data (R167) -/

theorem fits_iff : fits d s = true ↔ s.pageIndex.toNat + d.length ≤ s.cfg.pageSize := decide_eq_true_iff

theorem writePage_of_right (hf : s.pageIndex.toNat + d.length ≤ s.cfg.pageSize) (hcs : checksum d = cs) :
    writePage d cs s = (stageBytes d s).reply [s.cfg.ackWritePage, cs] := by
  rw [writePage, if_pos (fits_iff.2 hf), if_pos hcs, hcs]

theorem writePage_of_wrong (hf : s.pageIndex.toNat + d.length ≤ s.cfg.pageSize) (hcs : checksum d ≠ cs) :
    writePage d cs s = ((stageBytes d s).reply [s.cfg.ackWritePage, 0x00#8]).raise .deleteFlash := by
  rw [writePage, if_pos (fits_iff.2 hf), if_neg hcs, ← stageBytes_cfg d s]
  rfl

theorem writePage_of_overflow (hf : s.cfg.pageSize < s.pageIndex.toNat + d.length) :
    writePage d cs s = (s.reply [s.cfg.ackWritePage, 0x00#8]).raise .deleteFlash :=
  if_neg fun h => Nat.not_le_of_lt hf (fits_iff.1 h)

/-- Staging leaves TX, so that a reply after it goes behind what TX held before it. -/
theorem replied_stageBytes (hc : s.cfg.Legal) (hw : s.tx.Wf s.cfg.txCap) (d bs : List Byte) :
    Replied bs s ((stageBytes d s).reply bs) :=
  replied_pushAll hc hw bs (stageBytes_cfg d s) (by simp)

/-- Flash byte 0 is in page 0, at offset 0. -/
theorem dest_eq_zero_iff (s : State) :
    s.pageAddress.toNat + s.pageIndex.toNat = 0 ↔ s.pageAddress = 0#16 ∧ s.pageIndex = 0#8 := by
  rw [Nat.add_eq_zero_iff, ← BitVec.toNat_inj, ← BitVec.toNat_inj]
  rfl

/-- Flash byte 1 is in page 0 too: no other page begins before address 2. -/
theorem two_le_pageAddress (h : s.Inv) (hp : s.pageAddress ≠ 0#16) : 2 ≤ s.pageAddress.toNat :=
  (pageAddress_zero_or h).resolve_left fun h0 => hp (BitVec.eq_of_toNat_eq h0)

/-! ## Read-Flash (R168) -/

/-- Every address is computed as u16 and read modulo FLASH_BYTES (R12, R64). -/
theorem memRead_wordOf (s : State) (hi lo : Byte) (n : Nat) : s.memRead (wordOf hi lo) n =
    (List.range n).map fun i => Memory.read ((hi.toNat * 256 + lo.toNat + i) % 65536 % s.cfg.flashBytes) s.flash := by
  refine List.map_congr_left fun i _ => ?_
  rw [State.flashRead, BitVec.toNat_add, wordOf_toNat, BitVec.toNat_ofNat, Nat.add_mod_mod]

theorem readValid_iff : readValid hi lo len rcs s = true ↔
    rcs.toNat = (hi.toNat + lo.toNat + len.toNat) % 256 ∧ 1 ≤ len.toNat ∧ len.toNat ≤ s.cfg.readMax := by
  have hsum : ([hi, lo, len].map BitVec.toNat).sum = hi.toNat + lo.toNat + len.toNat := by
    simp only [List.map_cons, List.map_nil, List.sum_cons, List.sum_nil]
    omega
  rw [readValid, Bool.and_eq_true, Bool.and_eq_true, beq_iff_eq, decide_eq_true_iff, decide_eq_true_iff, eq_comm,
    checksum_eq_iff, hsum, and_assoc]

theorem readFlash_of_valid (hp : s.cfg.featureReadFlash = true) (hv : readValid hi lo len rcs s = true) :
    readFlash hi lo len rcs s = s.reply (s.cfg.ackReadFlash ::
      (s.memRead (wordOf hi lo) len.toNat ++ [checksum (s.memRead (wordOf hi lo) len.toNat)])) :=
  if_pos (Bool.and_eq_true_iff.2 ⟨hp, hv⟩)

theorem readFlash_of_invalid (h : ¬(s.cfg.featureReadFlash = true ∧ readValid hi lo len rcs s = true)) :
    readFlash hi lo len rcs s = unknownCommand s :=
  if_neg fun hv => h (Bool.and_eq_true_iff.1 hv)

/-- Read-Flash only replies, whatever its operands (R168). -/
theorem readFlash_replies (hi lo len rcs : Byte) (s : State) : ∃ bs, readFlash hi lo len rcs s = s.reply bs := by
  by_cases h : s.cfg.featureReadFlash = true ∧ readValid hi lo len rcs s = true
  · exact ⟨_, readFlash_of_valid h.1 h.2⟩
  · exact ⟨_, readFlash_of_invalid h⟩

/-! ## Soft-Init (R169) and the handshake (R172) -/

theorem softInit_of_twoStep (h : s.cfg.handshake = .twoStep) :
    softInit s = (s.reply [s.cfg.ackSoftInit]).raise .init1 :=
  if_pos (by rw [Config.present, h]; rfl)

theorem softInit_of_oneStep (h : s.cfg.handshake = .oneStep) : softInit s = unknownCommand s :=
  if_neg (by rw [Config.present, h]; decide)

/-- Soft-Init raises Init1 of the two bits (R169). -/
theorem softInit_flags (h : s.cfg.handshake = .twoStep) : (softInit s).flags = (s.raise .init1).flags := by
  rw [softInit_of_twoStep h]
  rfl

theorem softInit_cfg (s : State) : (softInit s).cfg = s.cfg := by
  obtain ⟨-, -, ⟨hc, -⟩, -⟩ := commandFrame_runCommand .softInit s
  exact hc

/-- Get-Version raises Init2 of the two bits (R161). -/
theorem getVersion_flags (h : s.cfg.handshake = .twoStep) : (getVersion s).flags = (s.raise .init2).flags := by
  rw [getVersion, h]
  rfl

/-- The gate of a TwoStep build wants both bits (R172). -/
theorem initialized_of_twoStep (h : s.cfg.handshake = .twoStep) :
    initialized s = (s.flag .init1 && s.flag .init2) := by
  rw [initialized, h]
  exact congrArg _ (Bool.and_true _)

end Sys2Proof.Machine

open Sys2Proof Sys2Proof.Machine

/-- Settles O3: the law of a present command's frame, with what follows it. -/
theorem surplusFrameBytesAreDiscarded : Obligations.SurplusFrameBytesAreDiscarded :=
  fun _ hc _ rest hw hs hu => decodeFrame_encode_append hc hw hs hu rest

/-- Settles O10: the loop of R167 byte by byte, and the reply behind it. -/
theorem writePageStagesAGoodPacket : Obligations.WritePageStagesAGoodPacket := by
  intro s d cs h hd hf hcs
  have hps := h.legal.pageSize
  have hpk := h.legal.packetSize
  obtain ⟨hstage, hlsb, hmsb⟩ := stageBytes_spec d h.stage_length (page_room h) hps.2.2 hf
  have he := writePage_of_right hf ((checksum_eq_iff d cs).2 hcs)
  have hframe := commandFrame_runCommand (.writePage d cs) s
  refine ⟨_, congrArg Host.Outcome.next he, replied_stageBytes h.legal h.tx_wf d _, stageBytes_flags d s,
    stageBytes_pageAddress d s, stageBytes_index d (by omega), (stageBytes_stage_length d s).trans h.stage_length,
    fun j hj => ?_, hlsb.trans ?_, hmsb.trans ?_, he ▸ hframe⟩
  · rw [← entryLo_eq h.legal, ← entryHi_eq h.legal]
    exact hstage j hj
  · simp only [dest_eq_zero_iff, show 0 < d.length by omega, and_true]
  · by_cases hp : s.pageAddress = 0#16
    · simp [hp]
    · have := two_le_pageAddress h hp
      rw [if_neg (by omega), if_neg (fun hx => hp hx.1)]

/-- Settles O13: a valid request and any other, both of which only reply. -/
theorem readFlashStreamsOrRefuses : Obligations.ReadFlashStreamsOrRefuses := by
  intro s hi lo len rcs hc hw addr data valid
  have hv : valid ↔ s.cfg.featureReadFlash = true ∧ readValid hi lo len rcs s = true := by rw [readValid_iff]
  obtain ⟨bs, he⟩ := readFlash_replies hi lo len rcs s
  obtain ⟨hflags, hwr, hframe⟩ := reply_leaves s bs
  refine ⟨s.reply bs, congrArg Host.Outcome.next he, hflags, hwr, hframe, fun h => ?_, fun h => ?_⟩
  · obtain ⟨hp, hr⟩ := hv.1 h
    rw [← he, readFlash_of_valid hp hr, memRead_wordOf]
    exact replied_reply hc hw _
  · rw [← he, readFlash_of_invalid (fun hx => h (hv.2 hx))]
    exact replied_reply hc hw _

/-- Settles O6: the reply of R99 with the handshake bit. -/
theorem getVersionRepliesAndSetsItsInitBit : Obligations.GetVersionRepliesAndSetsItsInitBit := by
  intro s hc hw
  rw [← versionReply_eq hc, ← versionFlag_eq]
  exact ⟨getVersion s, rfl, reply_raise_spec hc hw _ _⟩

/-- Settles O7: a reply with a flag. -/
theorem exitRepliesAndSetsExitToApp : Obligations.ExitRepliesAndSetsExitToApp :=
  fun s hc hw => ⟨exitToApp s, rfl, reply_raise_spec hc hw _ _⟩

/-- Settles O8: a reply with a flag. -/
theorem deleteFlashRepliesAndSetsDeleteFlash : Obligations.DeleteFlashRepliesAndSetsDeleteFlash :=
  fun s hc hw => ⟨requestErase s, rfl, reply_raise_spec hc hw _ _⟩

/-- Settles O9: the mask and the echo where the build has the command, a reply alone where it has not. -/
theorem setPageAddressMasksToThePage : Obligations.SetPageAddressMasksToThePage := by
  intro s hi lo hc hw addr
  have hframe := commandFrame_runCommand (.setPageAddr hi lo) s
  obtain ⟨hflags, hindex, hstage, hlsb, hmsb⟩ := setPageAddress_keeps hi lo s
  refine ⟨setPageAddress hi lo s, rfl, hflags, hindex, hstage, hlsb, hmsb, hframe, fun h => ?_, fun h => ?_⟩
  · rw [setPageAddress_of_manual h, ← BitVec.add_def]
    refine ⟨?_, replied_pushAll hc hw _ rfl rfl⟩
    rw [State.reply_pageAddress, hc.and_not_pageMask, wordOf_toNat]
  · rw [setPageAddress_of_auto h]
    exact ⟨rfl, replied_reply hc hw _⟩

/-- Settles O11: the same staging as with the right checksum, then the reply with DeleteFlash. -/
theorem writePageBadChecksumSetsDeleteFlash : Obligations.WritePageBadChecksumSetsDeleteFlash := by
  intro s d cs right h _ hf hr hne
  have hright : checksum d = right := (checksum_eq_iff d right).2 hr
  have he := writePage_of_wrong hf (fun hx => hne (hx.symm.trans hright))
  have hframe := commandFrame_runCommand (.writePage d cs) s
  have hflags : (writePage d cs s).flags = (s.raise .deleteFlash).flags := by
    rw [he]
    exact congrArg (· ||| Flag.deleteFlash.mask) (stageBytes_flags d s)
  refine ⟨writePage d cs s, _, rfl, congrArg Host.Outcome.next (writePage_of_right hf hright), ?_, ?_,
    flag_raised hflags, otherFlags_raise hflags, hframe⟩
  · rw [he]
    exact ⟨rfl, rfl, rfl, rfl, rfl⟩
  · rw [he]
    exact replied_stageBytes h.legal h.tx_wf d _

/-- Settles O12: the packet is refused before the loop, with a reply and DeleteFlash. -/
theorem writePageOverflowSetsDeleteFlash : Obligations.WritePageOverflowSetsDeleteFlash :=
  fun _ _ _ hc hw _ hf => ⟨_, congrArg Host.Outcome.next (writePage_of_overflow hf), reply_raise_spec hc hw _ _⟩

/-- Settles O14: by the handshake of the build. -/
theorem softInitSetsInit1InTwoStep : Obligations.SoftInitSetsInit1InTwoStep := by
  intro s hc hw
  cases h : s.cfg.handshake with
  | twoStep =>
    obtain ⟨hr, hf, ho, hwr, hframe⟩ := reply_raise_spec hc hw [s.cfg.ackSoftInit] .init1
    exact ⟨_, congrArg Host.Outcome.next (softInit_of_twoStep h), hwr, hframe, fun _ => ⟨hr, hf, ho⟩, nofun⟩
  | oneStep =>
    obtain ⟨hflags, hwr, hframe⟩ := reply_leaves s [s.cfg.unknownCmd]
    exact ⟨_, congrArg Host.Outcome.next (softInit_of_oneStep h), hwr, hframe, nofun,
      fun _ => ⟨replied_reply hc hw _, hflags⟩⟩

/-- Settles O15: a reply alone. -/
theorem unknownRepliesAndChangesNothing : Obligations.UnknownRepliesAndChangesNothing :=
  fun s _ _ hc hw => ⟨unknownCommand s, rfl, replied_reply hc hw _, reply_leaves s _⟩

/-- Settles O16: Get-Version raises Init2 and Soft-Init Init1, and the gate needs both. -/
theorem twoStepHandshakeInEitherOrder : Obligations.TwoStepHandshakeInEitherOrder := by
  intro s h h1 h2
  have hv : (getVersion s).cfg.handshake = .twoStep := h
  have hsi : (softInit s).cfg.handshake = .twoStep := by rw [softInit_cfg, h]
  have hvs : (softInit (getVersion s)).cfg.handshake = .twoStep := by rw [softInit_cfg, hv]
  have hsv : (getVersion (softInit s)).cfg.handshake = .twoStep := hsi
  have evs : (softInit (getVersion s)).flags = ((s.raise .init2).raise .init1).flags :=
    (softInit_flags hv).trans (congrArg (· ||| _) (getVersion_flags h))
  have esv : (getVersion (softInit s)).flags = ((s.raise .init1).raise .init2).flags :=
    (getVersion_flags hsi).trans (congrArg (· ||| _) (softInit_flags h))
  refine ⟨getVersion s, softInit s, softInit (getVersion s), getVersion (softInit s), rfl, rfl, rfl, rfl, ?_, ?_, ?_, ?_, ?_⟩
  · simp [initialized_of_twoStep hv, State.flag_congr (getVersion_flags h), h1]
  · simp [initialized_of_twoStep hsi, State.flag_congr (softInit_flags h), h2]
  · simp [initialized_of_twoStep hvs, State.flag_congr evs]
  · simp [initialized_of_twoStep hsv, State.flag_congr esv]
  · rw [evs, esv]
    simp only [State.raise_flags]
    ac_rfl
end

section
/-! PROOFS. The statements of the page writer's family (42_page_writer.md). The step of a completing NACK is the one slow
operation that is due, run from `State.completed`: a commit, whose flash is read byte by byte, the safety erase with its
restart, or nothing. -/

namespace Sys2Proof.Machine

open Sys2Proof

variable {s u : State} {c : Config}

/-! ## The trampoline as a jump (R203, R211) -/

theorem trampWord_toNat (h : c.bWord < 4096) : c.trampWord.toNat = c.bWord - 1 := by
  rw [Config.trampWord, BitVec.toNat_ofNat]
  exact Nat.mod_eq_of_lt (by omega)

/-- At word B_WORD - 1 the trampoline word decodes to a trampoline, which jumps to the application's reset target. -/
theorem decode_tramp (h0 : 0 < c.bWord) (h1 : c.bWord < 4096) (lsb msb : Byte) :
    ∃ k, decode c (.cpu c.trampWord) (wordBytes (tramp c lsb msb)) = .ok (.trampoline k) ∧
      (jumpTarget c.trampWord k).toNat = (origWord lsb msb + 1) % 4096 := by
  have ho : (wordOf msb lsb).toNat = origWord lsb msb := wordOf_toNat _ _
  refine ⟨_, by rw [tramp_eq, decode_wordBytes, decodeJump_jumpWord, if_pos rfl], ?_⟩
  rw [jumpTarget_toNat, trampWord_toNat h1, ho, BitVec.toNat_ofInt]
  omega

/-- The trampoline slot is the word B_WORD - 1 (R61). -/
theorem two_mul_trampWord (h : c.Legal) : 2 * c.trampWord.toNat = c.trampSlot := by
  have he := h.bootStart_even
  rw [trampWord_toNat h.bWord_bounds.2, Config.trampSlot]
  omega

/-! ## The commit (R202, R204, R205, R207) -/

theorem trampPage_add_pageSize (h : c.Legal) : c.trampPage + c.pageSize = c.bootStart := by
  have hb := h.bootStart
  unfold Config.trampPage
  omega

/-- The page after a page below APP_LIMIT does not wrap the address register (R207). -/
theorem nextPage_toNat (h : s.Inv) (hr : s.pageAddress.toNat < s.cfg.appLimit) :
    (s.pageAddress + BitVec.ofNat 16 s.cfg.pageSize).toNat = s.pageAddress.toNat + s.cfg.pageSize := by
  have hp := page_below h hr
  have hb := h.legal.bootStart
  have hf := h.legal.flashBytes.2
  rw [BitVec.toNat_add, BitVec.toNat_ofNat]
  omega

/-- AdvanceAfterCommit, on the address as a number (R207). -/
theorem commitPage_pageAddress (h : s.Inv) (hr : s.pageAddress.toNat < s.cfg.appLimit) :
    (commitPage s).pageAddress.toNat =
      if s.cfg.autoPageAddr = true then s.pageAddress.toNat + s.cfg.pageSize else s.pageAddress.toNat := by
  rw [commitPage_eq]
  show (if s.cfg.autoPageAddr = true then _ else _ : Word).toNat = _
  split
  · exact nextPage_toNat h hr
  · rfl

theorem checksSlot_iff :
    checksSlot s = true ↔ s.cfg.appUsesTrampolinePage = true ∧ s.pageAddress.toNat = s.cfg.trampPage := by
  rw [checksSlot, Bool.and_eq_true, decide_eq_true_iff]

theorem slotFree_iff : slotFree s = true ↔
    s.stage.getD (s.cfg.pageSize - 2) 0 = 0xFF#8 ∧ s.stage.getD (s.cfg.pageSize - 1) 0 = 0xFF#8 := by
  rw [slotFree, Bool.and_eq_true, beq_iff_eq, beq_iff_eq]
  rfl

/-- A page without the slot check is programmed as staged, and no flag is set. -/
theorem commit_of_unchecked (h : checksSlot s = false) : commitImage s = s.stage ∧ slotCheck s = s := by
  rw [commitImage, slotCheck, h]
  exact ⟨rfl, rfl⟩

/-- A free slot takes the trampoline, and no flag is set (R205). -/
theorem commit_of_free (h : checksSlot s = true) (hf : slotFree s = true) :
    commitImage s = slotImage s ∧ slotCheck s = s := by
  rw [commitImage, slotCheck, h, hf]
  exact ⟨rfl, rfl⟩

/-- A covered slot is programmed as staged, and DeleteFlash is set (R205). -/
theorem commit_of_covered (h : checksSlot s = true) (hf : slotFree s = false) :
    commitImage s = s.stage ∧ slotCheck s = s.raise .deleteFlash := by
  rw [commitImage, slotCheck, h, hf]
  exact ⟨rfl, rfl⟩

/-- The slot check changes no flag but DeleteFlash. -/
theorem slotCheck_bit (s : State) {i : Nat} (hi : i ≠ Flag.deleteFlash.pos) :
    (slotCheck s).flags.getLsbD i = s.flags.getLsbD i := by
  obtain he | he := slotCheck_flags s <;> rw [he]
  rw [State.raise_bit, decide_eq_false hi, Bool.or_false]

theorem trampWordOf_lo (h : s.cfg.Legal) :
    loByte (trampWordOf s) = BitVec.ofNat 8 (trampValue s.cfg s.appResetLsb s.appResetMsb % 256) := tramp_lo h _ _

theorem trampWordOf_hi (h : s.cfg.Legal) :
    hiByte (trampWordOf s) = BitVec.ofNat 8 (trampValue s.cfg s.appResetLsb s.appResetMsb / 256) := tramp_hi h _ _

/-- The page's last word holds the trampoline, and the bytes before it are as staged. -/
theorem slotImage_getD (h : s.Inv) {i : Nat} (hi : i < s.cfg.pageSize) :
    (slotImage s).getD i 0 =
      if i = s.cfg.pageSize - 2 then loByte (trampWordOf s)
      else if i = s.cfg.pageSize - 1 then hiByte (trampWordOf s) else s.stage.getD i 0 := by
  have hl := h.stage_length
  have hp := h.legal.pageSize.2.1
  simp only [slotImage, List.getD_eq_getElem?_getD, List.getElem?_set, List.length_set, hl]
  by_cases h2 : i = s.cfg.pageSize - 2
  · rw [if_neg (by omega), if_pos h2.symm, if_pos (by omega), if_pos h2]
    rfl
  · rw [if_neg (Ne.symm h2), if_neg h2]
    by_cases h1 : i = s.cfg.pageSize - 1
    · rw [if_pos h1.symm, if_pos (by omega), if_pos h1]
      rfl
    · rw [if_neg (Ne.symm h1), if_neg h1]

/-- The image's bytes below the slot are the staged ones, whatever the slot check finds (R205). -/
theorem commitImage_below_slot (h : s.Inv) {i : Nat} (hi : i < s.cfg.pageSize - 2) :
    (commitImage s).getD i 0 = s.stage.getD i 0 := by
  unfold commitImage
  split
  · rw [slotImage_getD h (by omega), if_neg (by omega), if_neg (by omega)]
  · rfl

/-- A free slot's last word in the image is the trampoline (R205). -/
theorem commitImage_slot_of_free (h : s.Inv) (hc : checksSlot s = true) (hf : slotFree s = true) :
    (commitImage s).getD (s.cfg.pageSize - 2) 0 =
        BitVec.ofNat 8 (trampValue s.cfg s.appResetLsb s.appResetMsb % 256) ∧
      (commitImage s).getD (s.cfg.pageSize - 1) 0 =
        BitVec.ofNat 8 (trampValue s.cfg s.appResetLsb s.appResetMsb / 256) := by
  have hp := h.legal.pageSize.2.1
  rw [(commit_of_free hc hf).1, slotImage_getD h (by omega), if_pos rfl, slotImage_getD h (by omega),
    if_neg (by omega), if_pos rfl]
  exact ⟨trampWordOf_lo h.legal, trampWordOf_hi h.legal⟩

/-- Programming an erased byte gives the image's byte (R62). -/
theorem erasedOr_and (e : Bool) (x b : Byte) :
    (if e = true then erased else x) &&& b = if e = true then b else x &&& b := by
  cases e
  · rfl
  · exact BitVec.allOnes_and

/-- Every byte after a commit without the slot check: the trampoline page with page 0, the staged page, and the rest
(R202, R204). -/
theorem read_committedFlash_of_unchecked (h : s.Inv) (hc : checksSlot s = false) (a : Nat) :
    Memory.read a (committedFlash s) =
      if s.pageAddress.toNat = 0 ∧ s.cfg.trampPage ≤ a ∧ a < s.cfg.bootStart then
        (if a = s.cfg.trampSlot then BitVec.ofNat 8 (trampValue s.cfg s.appResetLsb s.appResetMsb % 256)
          else if a = s.cfg.trampSlot + 1 then BitVec.ofNat 8 (trampValue s.cfg s.appResetLsb s.appResetMsb / 256)
          else 0xFF#8)
      else if s.pageAddress.toNat ≤ a ∧ a < s.pageAddress.toNat + s.cfg.pageSize then
        (if s.cfg.eraseBeforeWrite = true then s.stage.getD (a - s.pageAddress.toNat) 0
          else Memory.read a s.flash &&& s.stage.getD (a - s.pageAddress.toNat) 0)
      else Memory.read a s.flash := by
  have hz : (s.pageAddress = 0#16) = (s.pageAddress.toNat = 0) := propext BitVec.toNat_inj.symm
  rw [read_committedFlash h, read_programPage h, (commit_of_unchecked hc).1, erasedOr_and, trampWordOf_lo h.legal,
    trampWordOf_hi h.legal]
  simp only [hz]
  rfl

/-- The trampoline page is not page 0, so its commit changes no other page (R202). -/
theorem read_committedFlash_of_trampPage (h : s.Inv) (hp : s.pageAddress.toNat = s.cfg.trampPage) (a : Nat) :
    Memory.read a (committedFlash s) =
      if s.cfg.trampPage ≤ a ∧ a < s.cfg.bootStart then
        (if s.cfg.eraseBeforeWrite = true then 0xFF#8 else Memory.read a s.flash) &&&
          (commitImage s).getD (a - s.cfg.trampPage) 0
      else Memory.read a s.flash := by
  have hz : s.pageAddress ≠ 0#16 := fun hz => by
    have := trampPage_ge_two h.legal
    rw [hz, BitVec.toNat_zero] at hp
    omega
  rw [read_committedFlash h, if_neg fun hc => hz hc.1, read_programPage h, hp, trampPage_add_pageSize h.legal]
  rfl

/-- The slot is the last word of the trampoline page, and takes that of the image (R205). -/
theorem read_committedFlash_slot (h : s.Inv) (hp : s.pageAddress.toNat = s.cfg.trampPage) :
    Memory.read s.cfg.trampSlot (committedFlash s) =
        (if s.cfg.eraseBeforeWrite = true then 0xFF#8 else Memory.read s.cfg.trampSlot s.flash) &&&
          (commitImage s).getD (s.cfg.pageSize - 2) 0 ∧
      Memory.read (s.cfg.trampSlot + 1) (committedFlash s) =
        (if s.cfg.eraseBeforeWrite = true then 0xFF#8 else Memory.read (s.cfg.trampSlot + 1) s.flash) &&&
          (commitImage s).getD (s.cfg.pageSize - 1) 0 := by
  have hps := h.legal.pageSize.2.1
  have hend := trampPage_add_pageSize h.legal
  have hslot : s.cfg.trampSlot = s.cfg.bootStart - 2 := rfl
  constructor
  · rw [read_committedFlash_of_trampPage h hp, if_pos (by omega),
      show s.cfg.trampSlot - s.cfg.trampPage = s.cfg.pageSize - 2 by omega]
  · rw [read_committedFlash_of_trampPage h hp, if_pos (by omega),
      show s.cfg.trampSlot + 1 - s.cfg.trampPage = s.cfg.pageSize - 1 by omega]

/-- The bytes of the trampoline page below the slot take the staged image (R205). -/
theorem read_committedFlash_below_slot (h : s.Inv) (hp : s.pageAddress.toNat = s.cfg.trampPage) {a : Nat}
    (hlo : s.cfg.trampPage ≤ a) (hhi : a < s.cfg.trampSlot) :
    Memory.read a (committedFlash s) =
      (if s.cfg.eraseBeforeWrite = true then 0xFF#8 else Memory.read a s.flash) &&&
        s.stage.getD (a - s.cfg.trampPage) 0 := by
  have hend := trampPage_add_pageSize h.legal
  have hslot : s.cfg.trampSlot = s.cfg.bootStart - 2 := rfl
  rw [read_committedFlash_of_trampPage h hp, if_pos (by omega), commitImage_below_slot h (by omega)]

/-- The step of a completing NACK with a page that is ready is the commit (R246). -/
theorem step_commits (hd : Delivered s u) (hr : u.Runs) (hn : u.NackArm) (hi : initialized u = true)
    (hx : u.flag .exitToApp = false) (hdl : u.flag .deleteFlash = false) (hfull : u.pageIndex.toNat = u.cfg.pageSize)
    (hlim : u.pageAddress.toNat < u.cfg.appLimit) : step s = .next (commitPage u.completed) := by
  rw [step_slowOps hd hr hn hi, slowOps_commit hx hdl ((ready_iff u).2 ⟨hfull, hlim⟩)]

/-! ## The safety erase and the restart (R208, R209) -/

theorem slowOps_erase (hx : u.flag .exitToApp = false) (hdl : u.flag .deleteFlash = true) :
    slowOps u.completed = deleteAll u.completed := by
  have h1 : u.completed.flag .exitToApp = false := (completed_flag u (by decide)).trans hx
  have h2 : u.completed.flag .deleteFlash = true := (completed_flag u (by decide)).trans hdl
  rw [slowOps, h1, h2]
  rfl

theorem deleteAll_directJump (h : s.cfg.restartMode = .directJump) : deleteAll s = (eraseApplication s).boot := by
  have h' : (eraseApplication s).cfg.restartMode = .directJump := h
  rw [deleteAll, restart, h']

theorem deleteAll_watchdog (h : s.cfg.restartMode = .watchdog) :
    deleteAll s = { eraseApplication s with restarting := true } := by
  have h' : (eraseApplication s).cfg.restartMode = .watchdog := h
  rw [deleteAll, restart, h']

theorem deleteAll_flash (s : State) : (deleteAll s).flash = (eraseApplication s).flash := by
  unfold deleteAll restart
  split <;> rfl

theorem atReset_boot_of_cfg (h : u.cfg = s.cfg) : AtReset s u.boot := atReset_of_cfg h (atReset_boot u)

/-- In the wait for the watchdog the step is the reset (R209). -/
theorem step_of_restarting (hd : Delivered s u) (hr : u.run = .running) (hw : u.restarting = true) :
    step s = .next u.boot := by
  rw [step_of_delivered hd hr, advance, if_pos hw]

/-- The wait ends in the reset, over the same flash: with a quiet bus, after stops and falling clocks, or by a reset from
outside (R209, R115, R290). -/
theorem wait_ends (hr : s.run = .running) (hw : s.restarting = true)
    (hh : s.host = [] ∨ (∃ es r, s.host = .bus es :: r ∧ ∀ e ∈ es, e = .stop ∨ e = .clockLow) ∨
      ∃ r, s.host = .reset :: r) :
    ∃ v, step s = .next v ∧ AtReset s v ∧ SameFlash s v := by
  obtain hq | ⟨es, r, hb, hes⟩ | ⟨r, hb⟩ := hh
  · have hd : Delivered s s := by rw [Delivered, hq]
    exact ⟨s.boot, step_of_restarting hd hr hw, atReset_boot s, fun _ => rfl⟩
  · obtain ⟨p, hp⟩ := deliverAll_wait hes { s with host := r }
    have hd : Delivered s { s with host := r, periph := p } := by rw [Delivered, hb]; exact hp
    exact ⟨_, step_of_restarting hd hr hw, atReset_boot_of_cfg rfl, fun _ => rfl⟩
  · exact ⟨({ s with host := r } : State).boot, by rw [step, hb], atReset_boot_of_cfg rfl, fun _ => rfl⟩

/-- A start or a clock in the wait is refused (R302, R303). -/
theorem wait_refuses {es : List BusEvent} {r : List Turn} (hr : s.run = .running) (hw : s.restarting = true)
    (hh : s.host = .bus es :: r) (hes : ∃ e ∈ es, e = .start ∨ ∃ b, e = .clock b) :
    step s = .refused .quietGapBroken := by
  rw [step, hh]
  exact stepBus_of_error (s := { s with host := r }) hr (deliverAll_wait_broken hes hw)

end Sys2Proof.Machine

open Sys2Proof Sys2Proof.Machine

/-- Settles O40: the word's value, what it decodes to, and that both jumps reach the same word. -/
theorem trampolineReachesTheResetTarget : Obligations.TrampolineReachesTheResetTarget := by
  intro c lsb msb h0 h1
  obtain ⟨k, hdec, htarget⟩ := decode_tramp h0 h1 lsb msb
  refine ⟨tramp_toNat h1 lsb msb, k, hdec, htarget, BitVec.eq_of_toNat_eq ?_⟩
  rw [htarget, jumpTarget_toNat, BitVec.toNat_ofNat, BitVec.toNat_ofNat]
  omega

/-- Settles O41: the commit's flash byte by byte, with no slot check, and its frame. -/
theorem commitProgramsTheStagedPage : Obligations.CommitProgramsTheStagedPage := by
  intro s u hd hI hr hn hi hx hdl hfull hlim hnot
  have hu := inv_completed (inv_delivered hI hd)
  have hun : checksSlot u.completed = false := Bool.eq_false_iff.2 fun h => hnot (checksSlot_iff.1 h)
  have hflags : (commitPage u.completed).flags = u.completed.flags := by
    rw [commitPage_eq, (commit_of_unchecked hun).2]
  have haddr := commitPage_pageAddress hu hlim
  refine ⟨_, step_commits hd hr hn hi hx hdl hfull hlim, ?_⟩
  rw [commitPage_eq] at hflags haddr ⊢
  exact ⟨read_committedFlash_of_unchecked hu hun, rfl, haddr, rfl, rfl, rfl,
    (State.flag_congr hflags _).trans (completed_slow u),
    fun i hi => (congrArg (·.getLsbD i) hflags).trans (completed_other u i hi), ⟨rfl, rfl, rfl, rfl, rfl, rfl, rfl⟩, rfl,
    rfl, rfl, rfl, rfl, rfl, rfl, State.sda_rearm u, ovfCleared_update rfl, rfl⟩

/-- Settles O42: the image by what the slot check finds, programmed over the trampoline page alone. -/
theorem trampolineSlotCheck : Obligations.TrampolineSlotCheck := by
  intro s u hd hI hr hn hi hx hdl hfull huse hpage ps free old
  have hu := inv_completed (inv_delivered hI hd)
  have hend := trampPage_add_pageSize (c := u.cfg) hu.legal
  have hlim : u.pageAddress.toNat < u.cfg.appLimit := by
    have hps : 2 ≤ u.cfg.pageSize := hu.legal.pageSize.2.1
    rw [Config.appLimit, if_pos huse]
    omega
  have hchk : checksSlot u.completed = true := checksSlot_iff.2 ⟨huse, hpage⟩
  obtain ⟨hslotLo, hslotHi⟩ := read_committedFlash_slot hu hpage
  have haddr := commitPage_pageAddress hu hlim
  refine ⟨_, step_commits hd hr hn hi hx hdl hfull hlim, ?_⟩
  rw [commitPage_eq] at haddr ⊢
  refine ⟨rfl, ?_, rfl, rfl, rfl, ⟨rfl, rfl, rfl, rfl, rfl, rfl, rfl⟩, rfl, rfl, rfl, rfl, rfl, rfl, rfl,
    State.sda_rearm u, ovfCleared_update rfl, rfl,
    fun a ha => (read_committedFlash_of_trampPage hu hpage a).trans (if_neg ha),
    fun a hlo hhi => read_committedFlash_below_slot hu hpage hlo hhi, fun hf => ?_, fun hf => ?_, ?_, fun i hd hs => ?_⟩
  · rw [← hend, ← hpage]
    exact haddr
  · have hfree : slotFree u.completed = true := slotFree_iff.2 hf
    obtain ⟨hlo, hhi⟩ := commitImage_slot_of_free hu hchk hfree
    rw [hlo] at hslotLo
    rw [hhi] at hslotHi
    refine ⟨hslotLo, hslotHi, ?_⟩
    rw [(commit_of_free hchk hfree).2]
    exact (completed_flag u (by decide)).trans hdl
  · obtain ⟨himg, hsc⟩ := commit_of_covered hchk (Bool.eq_false_iff.2 fun h => hf (slotFree_iff.1 h))
    rw [himg] at hslotLo hslotHi
    have hraise : (slotCheck u.completed).flags = (u.completed.raise .deleteFlash).flags := by rw [hsc]
    exact ⟨hslotLo, hslotHi, flag_raised (s := u.completed) hraise⟩
  · exact (slotCheck_bit u.completed (by decide)).trans (completed_slow u)
  · exact (slotCheck_bit u.completed hd).trans (completed_other u i hs)

/-- Settles O44: the flash of the safety erase, and the restart by its mode. -/
theorem safetyEraseEndsInTheResetState : Obligations.SafetyEraseEndsInTheResetState := by
  intro s u hd hI hr hn hi hx hdl
  have hL : u.completed.cfg.Legal := (inv_completed (inv_delivered hI hd)).legal
  refine ⟨deleteAll u.completed, by rw [step_slowOps hd hr hn hi, slowOps_erase hx hdl], fun a => ?_, fun hm => ?_,
    fun hm => ?_⟩
  · rw [deleteAll_flash, read_eraseApplication hL]
    rfl
  · rw [deleteAll_directJump (s := u.completed) hm]
    exact atReset_boot_of_cfg rfl
  · rw [deleteAll_watchdog (s := u.completed) hm]
    refine ⟨rfl, hr.1, rfl, fun hh => ?_, fun es r hh hes => wait_refuses hr.1 rfl hh hes⟩
    obtain ⟨v, hv, hreset, hflash⟩ :=
      wait_ends (s := { eraseApplication u.completed with restarting := true }) hr.1 rfl hh
    exact ⟨v, hv, atReset_of_cfg (by rfl) hreset, hflash⟩

/-- Settles O47: the slot's two bytes are the trampoline word, whose target is not B_WORD. -/
theorem launchReachesTheApplication : Obligations.LaunchReachesTheApplication := by
  intro s lsb msb hc _ hcpu hlo hhi hne
  have hw := hc.bWord_bounds
  have hb := hc.bootStart
  obtain ⟨k, hdec, htarget⟩ := decode_tramp (by omega) hw.2 lsb msb
  have hword : [s.flashRead (2 * s.cfg.trampWord.toNat), s.flashRead (2 * s.cfg.trampWord.toNat + 1)] =
      wordBytes (tramp s.cfg lsb msb) := by
    have hlt : s.cfg.trampSlot + 1 < s.cfg.flashBytes := by unfold Config.trampSlot; omega
    rw [two_mul_trampWord hc, flashRead_of_lt (by omega), flashRead_of_lt hlt, hlo, hhi, ← tramp_lo hc, ← tramp_hi hc]
    rfl
  have hto : jumpTarget s.cfg.trampWord k = BitVec.ofNat 12 (origWord lsb msb + 1) :=
    BitVec.eq_of_toNat_eq (by rw [htarget, BitVec.toNat_ofNat])
  have haway : jumpTarget s.cfg.trampWord k ≠ s.cfg.bootWord := fun h => by
    rw [h, bootWord_toNat hc] at htarget
    exact hne htarget.symm
  refine ⟨k, hword ▸ hdec, ?_⟩
  rw [exec_jump (.inr (.inr rfl)), relativeJump_of_cpu hcpu, State.arrive, if_neg haway, hto]

/-- Settles O43: no slow operation is due, and a further packet overflows the full page. -/
theorem fullPageAtTheLimitStaysStaged : Obligations.FullPageAtTheLimitStaysStaged := by
  intro s u hd hI hr hn hi hx hdl hfull hlim
  have hu := inv_completed (inv_delivered hI hd)
  have hrd : ready u = false := Bool.eq_false_iff.2 fun h => Nat.not_lt_of_le hlim ((ready_iff u).1 h).2
  refine ⟨u.completed, by rw [step_slowOps hd hr hn hi, slowOps_nothing hx hdl hrd], fun _ => rfl,
    ⟨rfl, rfl, rfl, rfl, rfl⟩, completed_other u, fun d cs hlen => ?_⟩
  have hover : u.completed.cfg.pageSize < u.completed.pageIndex.toNat + d.length := by
    have hp : 1 ≤ u.cfg.packetSize := hu.legal.packetSize.1
    show u.cfg.pageSize < u.pageIndex.toNat + d.length
    omega
  obtain ⟨-, hflag, -, hwriter, -⟩ :=
    reply_raise_spec hu.legal hu.tx_wf [u.completed.cfg.ackWritePage, 0x00#8] .deleteFlash
  exact ⟨_, congrArg Host.Outcome.next (writePage_of_overflow hover), hflag, hwriter⟩
end

section
/-! PROOFS. The statements of the scheduler's family (43_scheduler.md). A pass that does not hold in the start handler is its
one handler, `State.handled`, and then the end of the pass; what a step can change is read off those two. -/

namespace Sys2Proof.Machine

open Sys2Proof

variable {s t u : State}

/-! ## The pass's one handler (R240, R242) -/

/-- What the one handler of a pass leaves, where the start handler does not hold: the start handler, the overflow arm, the
clearing of an unarmed overflow, or nothing but SlowOpsReady cleared (R137, R240, R242). -/
def State.handled (u : State) : State :=
  let l := u.lower .slowOpsReady
  if u.periph.startFlag = true then startHandler l
  else if u.periph.ovfFlag = true then (if u.armed = true then overflowHandler l else l.clearOvf)
  else l

/-- `u` after a pass without an event, up to its end: SlowOpsReady and an unarmed overflow are cleared (R137, R241). -/
def State.quieted (u : State) : State :=
  { u.lower .slowOpsReady with
    periph := { u.periph with ovfFlag := false, shifted := if u.periph.ovfFlag = true then 0 else u.periph.shifted } }

/-- Everything the one handler of a pass can be. -/
theorem handled_cases (u : State) :
    (u.periph.startFlag = true ∧ u.handled = startHandler (u.lower .slowOpsReady)) ∨
    (u.ShiftComplete ∧ u.handled = overflowHandler (u.lower .slowOpsReady)) ∨
    (u.periph.startFlag = false ∧ (u.periph.ovfFlag = false ∨ u.armed = false) ∧ u.handled = u.quieted) := by
  unfold State.handled State.quieted
  cases hs : u.periph.startFlag
  · cases ho : u.periph.ovfFlag
    · have hp : u.periph = { u.periph with ovfFlag := false } := by rw [← ho]
      exact .inr (.inr ⟨rfl, .inl rfl, congrArg (fun p => { u.lower .slowOpsReady with periph := p }) hp⟩)
    · cases ha : u.armed
      · exact .inr (.inr ⟨rfl, .inr rfl, rfl⟩)
      · exact .inr (.inl ⟨⟨ha, ho, hs⟩, rfl⟩)
  · exact .inl ⟨rfl, rfl⟩

theorem handled_of_quiet (hs : u.periph.startFlag = false) (ho : u.periph.ovfFlag = false ∨ u.armed = false) :
    u.handled = u.quieted := by
  obtain ⟨h, -⟩ | ⟨⟨ha, hf, -⟩, -⟩ | ⟨-, -, he⟩ := handled_cases u
  · rw [hs] at h; cases h
  · rw [ha, hf] at ho; simp at ho
  · exact he

/-- A pass holds in the start handler, or is its one handler and the end of the pass (R122, R240). -/
theorem pass_holds_or_handled (u : State) :
    (u.periph.startFlag = true ∧ startHolds u = true ∧ pass u = (u.lower .slowOpsReady).enterStart) ∨
    (¬(u.periph.startFlag = true ∧ startHolds u = true) ∧ pass u = finishPass u.handled) := by
  obtain h | ⟨hs, hh, he⟩ | ⟨hs, ho, ha, he⟩ | ⟨hs, ho, ha, he⟩ | ⟨hs, ho, he⟩ := pass_cases u
  · exact .inl h
  · exact .inr ⟨by simp [hh], by simp [he, State.handled, hs]⟩
  · exact .inr ⟨by simp [hs], by simp [he, State.handled, hs, ho, ha]⟩
  · exact .inr ⟨by simp [hs], by simp [he, State.handled, hs, ho, ha]⟩
  · exact .inr ⟨by simp [hs], by simp [he, State.handled, hs, ho]⟩

theorem pass_of_not_held (h : ¬(u.periph.startFlag = true ∧ startHolds u = true)) : pass u = finishPass u.handled := by
  obtain ⟨h1, h2, -⟩ | ⟨-, he⟩ := pass_holds_or_handled u
  · exact absurd ⟨h1, h2⟩ h
  · exact he

/-- The handler changes nothing of the run, counts no pass and writes no flash (R250). -/
theorem handled_keeps (u : State) :
    SameRun u u.handled ∧ u.handled.idleCount = u.idleCount ∧ u.handled.flash = u.flash := by
  obtain ⟨-, he⟩ | ⟨-, he⟩ | ⟨-, -, he⟩ := handled_cases u <;> rw [he]
  · exact ⟨(sameRun_startHandler _).1, (sameRun_startHandler _).2, (startHandler_keeps _).1⟩
  · exact ⟨(sameRun_overflowHandler _).1, (sameRun_overflowHandler _).2, (overflowHandler_keeps _).1⟩
  · exact ⟨⟨rfl, rfl, rfl, rfl, rfl, rfl, rfl⟩, rfl, rfl⟩

theorem startHandler_flags (s : State) : (startHandler s).flags = s.flags := by rw [startHandler_eq]

/-- Only the arm of a completing NACK leaves SlowOpsReady set (R131, R241). -/
theorem nackArm_of_handled_slow (h : u.handled.flag .slowOpsReady = true) : u.NackArm := by
  obtain ⟨-, he⟩ | ⟨hc, he⟩ | ⟨-, -, he⟩ := handled_cases u <;> rw [he] at h
  · rw [State.flag_congr (startHandler_flags _), lower_slow] at h; cases h
  · exact ⟨hc, overflowHandler_slow (u.lower .slowOpsReady) (lower_slow u) h⟩
  · exact absurd (h.symm.trans (lower_slow u)) (by decide)

/-- Only the own read address, which dispatches, can complete the handshake (R124, R161, R169). -/
theorem initialized_handled (h : ¬(u.ShiftComplete ∧ u.phase = .checkAddress ∧ isRead u.cfg u.periph.dr = true)) :
    initialized u.handled = initialized u := by
  obtain ⟨-, he⟩ | ⟨hc, he⟩ | ⟨-, -, he⟩ := handled_cases u <;> rw [he, ← initialized_lower u]
  · exact initialized_congr (startHandler_keeps _).2.1 (startHandler_flags _)
  · exact initialized_overflowHandler _ fun hr => h ⟨hc, hr⟩
  · exact initialized_congr rfl rfl

/-- The handshake stays complete where both of its bits stay set (R243). -/
theorem initialized_of_keepsFlag (hc : t.cfg = s.cfg) (h1 : KeepsFlag .init1 s t) (h2 : KeepsFlag .init2 s t)
    (h : initialized s = true) : initialized t = true := by
  rw [initialized_iff] at h ⊢
  rw [hc]
  cases hh : s.cfg.handshake <;> rw [hh] at h
  · exact h1 h
  · exact ⟨h1 h.1, h2 h.2⟩

/-- No handler undoes the handshake (R243). -/
theorem initialized_handled_of_initialized (h : initialized u = true) : initialized u.handled = true := by
  have hl : initialized (u.lower .slowOpsReady) = true := (initialized_lower u).trans h
  obtain ⟨-, he⟩ | ⟨-, he⟩ | ⟨-, -, he⟩ := handled_cases u <;> rw [he]
  · exact (initialized_congr (startHandler_keeps _).2.1 (startHandler_flags _)).trans hl
  · exact initialized_of_keepsFlag (overflowHandler_keeps _).2.1 (keepsFlag_overflowHandler _ _)
      (keepsFlag_overflowHandler _ _) hl
  · exact hl

/-! ## The idle loop (R244) -/

/-- The idle loop counts the pass, and ends the run exactly where that count is reached (R244, R248). -/
theorem idleTick_countedRun (hc : SameRun u t) (hk : t.idleCount = u.idleCount) :
    ∃ run cpu, idleTick t = { t with idleCount := u.idleCount + 1, run := run, cpu := cpu } ∧
      CountedRun u.CountReached u (idleTick t) := by
  obtain ⟨hcfg, hrun, hcpu, hre, hie, hh, hse⟩ := hc
  unfold State.CountReached
  obtain ⟨h, he⟩ | ⟨h, he⟩ := idleTick_cases t <;>
    (rw [he]; rw [hcfg, hk] at h)
  · have hw : t.cfg.trampWord = u.cfg.trampWord := by rw [hcfg]
    exact ⟨_, _, by rw [← hk]; rfl, ⟨hcfg, rfl, rfl, hre, hie, hh, hse⟩,
      fun _ => ⟨congrArg Run.launched hw, congrArg some hw⟩, fun hn => absurd h hn⟩
  · exact ⟨t.run, t.cpu, by rw [hk], ⟨hcfg, rfl, rfl, hre, hie, hh, hse⟩, fun hl => absurd hl h, fun _ => ⟨hrun, hcpu⟩⟩

theorem finishPass_of_uninitialized (h : initialized s = false) : finishPass s = idleTick s := by
  rw [finishPass, h]; rfl

theorem idleTick_flash (s : State) : (idleTick s).flash = s.flash := by
  obtain ⟨-, he⟩ | ⟨-, he⟩ := idleTick_cases s <;> rw [he]
  rfl

/-! ## What a pass outside a completing NACK leaves (R250, R268) -/

/-- Only the slow operations of an initialized block write the flash. -/
theorem pass_flash (h : ¬(u.NackArm ∧ initialized u = true)) : (pass u).flash = u.flash := by
  obtain ⟨-, -, he⟩ | ⟨-, he⟩ := pass_holds_or_handled u <;> rw [he]
  · rfl
  obtain ⟨-, -, hf⟩ := handled_keeps u
  cases hs : u.handled.flag .slowOpsReady
  · exact (finishPass_not_slow _ hs).1.trans hf
  · have hn := nackArm_of_handled_slow hs
    have hi : initialized u.handled = false := by
      have hnr : ¬(u.ShiftComplete ∧ u.phase = .checkAddress ∧ isRead u.cfg u.periph.dr = true) := fun hr =>
        absurd (hr.2.1.symm.trans hn.2.1) (by decide)
      rw [initialized_handled hnr]
      exact eq_false_of_ne_true fun hi => h ⟨hn, hi⟩
    rw [finishPass_of_uninitialized hi, idleTick_flash, hf]

/-- Only a completing NACK ends the run of an initialized block. -/
theorem pass_run (hn : ¬u.NackArm) (hi : initialized u = true) : (pass u).run = u.run := by
  obtain ⟨-, -, he⟩ | ⟨-, he⟩ := pass_holds_or_handled u <;> rw [he]
  · rfl
  have hs : u.handled.flag .slowOpsReady = false := eq_false_of_ne_true fun hs => hn (nackArm_of_handled_slow hs)
  obtain ⟨⟨-, hr, -⟩, -, -⟩ := handled_keeps u
  exact ((finishPass_not_slow _ hs).2 (initialized_handled_of_initialized hi)).trans hr

/-! ## Resets (R243, R209, R291) -/

/-- The device's part of a step from `u` is a reset: the watchdog fires, the CPU jumps to B_WORD, or the pass runs the safety
erase of a DirectJump build. -/
def State.ResetsInStep (u : State) : Prop :=
  u.restarting = true ∨
    (u.restarting = false ∧ ∃ w k, u.cpu = some w ∧ u.flashWord w = jumpWord k ∧ jumpTarget w k = u.cfg.bootWord) ∨
    (u.Runs ∧ u.NackArm ∧ initialized u = true ∧ u.flag .exitToApp = false ∧ u.flag .deleteFlash = true ∧
      u.cfg.restartMode = .directJump)

/-- A step that is no reset from outside is one exactly where its device's part is. -/
theorem resets_iff (hd : Delivered s u) : s.Resets ↔ u.ResetsInStep := by
  constructor
  · rintro (⟨rest, hh⟩ | ⟨v, hv, h⟩)
    · rw [Delivered, hh] at hd; exact hd.elim
    · exact delivered_unique hv hd ▸ h
  · exact fun h => .inr ⟨u, hd, h⟩

theorem jumpWord_injective : Function.Injective jumpWord := fun k l h =>
  BitVec.eq_of_toNat_eq (by have := congrArg BitVec.toNat h; rw [jumpWord_toNat, jumpWord_toNat] at this; omega)

theorem AfterBus.flags (h : AfterBus s u) : u.flags = s.flags := by
  obtain ⟨rest, p, seen, draws, rfl⟩ := h
  rfl

/-- The CPU outside the block resets it exactly where it jumps to B_WORD, and keeps its flags elsewhere (R100, R291). -/
theorem cpuStep_reset_or_keeps {w : WordAddr} (hr : u.restarting = false) (hw : u.cpu = some w)
    (h : cpuStep w u = .next t) :
    (u.ResetsInStep ∧ AtReset u t) ∨ (¬u.ResetsInStep ∧ t = { u with cpu := t.cpu }) := by
  obtain ⟨k, hk, rfl⟩ := cpuStep_cases hw h
  by_cases hb : jumpTarget w k = u.cfg.bootWord
  · rw [State.arrive, if_pos hb]
    exact .inl ⟨.inr (.inl ⟨hr, w, k, hw, hk, hb⟩), atReset_boot u⟩
  · rw [State.arrive, if_neg hb]
    refine .inr ⟨?_, rfl⟩
    rintro (h | ⟨-, w', k', hw', hk', hb'⟩ | ⟨⟨-, -, hn⟩, -⟩)
    · rw [hr] at h; cases h
    · obtain rfl := Option.some.inj (hw.symm.trans hw')
      exact hb (jumpWord_injective (hk.symm.trans hk') ▸ hb')
    · rw [hw] at hn; cases hn

/-- A pass of a running block resets it exactly where it runs the safety erase of a DirectJump build (R209, R246). -/
theorem pass_reset_or_keeps (hr : u.Runs) :
    (u.ResetsInStep ∧ AtReset u (pass u)) ∨ (¬u.ResetsInStep ∧ ∀ f, f ≠ .slowOpsReady → KeepsFlag f u (pass u)) := by
  by_cases h : u.ResetsInStep
  · refine .inl ⟨h, ?_⟩
    obtain h | ⟨-, w, -, hw, -⟩ | ⟨-, hn, hi, hx, hdl, hm⟩ := h
    · rw [hr.2.1] at h; cases h
    · rw [hr.2.2] at hw; cases hw
    · rw [pass_of_nack hn hi, slowOps_erase hx hdl, deleteAll_directJump (s := u.completed) hm]
      exact atReset_boot_of_cfg rfl
  · exact .inr ⟨h, fun f hf => (keepsFlag_pass f hf u).resolve_left fun hp => h (.inr (.inr ⟨hr, hp⟩))⟩

/-- The device's part of a step is a reset, or keeps the build and the handshake bits. -/
theorem advance_reset_or_keeps (hrun : u.run = .running) (h : advance u = .next t) :
    (u.ResetsInStep ∧ AtReset u t) ∨
    (¬u.ResetsInStep ∧ t.cfg = u.cfg ∧ ∀ f, f ≠ .slowOpsReady → KeepsFlag f u t) := by
  obtain ⟨hr, rfl⟩ | ⟨hr, w, hw, hc⟩ | ⟨hr, hn, rfl⟩ := advance_cases h
  · exact .inl ⟨.inl hr, atReset_boot u⟩
  · refine (cpuStep_reset_or_keeps hr hw hc).imp_right fun ⟨hnr, he⟩ => ⟨hnr, ?_⟩
    rw [he]
    exact ⟨rfl, fun f _ => keepsFlag_of_flags rfl⟩
  · exact (pass_reset_or_keeps ⟨hrun, hr, hn⟩).imp_right fun ⟨hnr, hk⟩ => ⟨hnr, pass_cfg u, hk⟩

/-! ## The slow operations (R246) -/

theorem slowOps_exit (hx : u.flag .exitToApp = true) : slowOps u.completed = u.completed.launchApp :=
  if_pos ((completed_flag u (by decide)).trans hx)

/-- The safety erase leaves the block running, in the wait for the watchdog or reset (R209). -/
theorem deleteAll_run (hr : s.run = .running) : (deleteAll s).run = .running := by
  unfold deleteAll restart
  split
  · rfl
  · exact hr

/-! ## The address byte (R120) -/

/-- An address byte decodes to an instruction whose exec is the arm of CheckAddress (R90, R123 to R125). -/
theorem exec_decodeAddress (s : State) : exec (decodeAddress s.periph.dr) s = .next (checkAddress s) := by
  unfold checkAddress decodeAddress
  split
  · rfl
  · split <;> rfl

end Sys2Proof.Machine

open Sys2Proof Sys2Proof.Machine

/-- Settles O33: the pass's handler only quiets the block, and the end of the pass counts. -/
theorem quietPassChangesNothingElse : Obligations.QuietPassChangesNothingElse := by
  intro s u hd hr hs ho
  obtain ⟨run, cpu, hfin, hcr⟩ := finishPass_countedRun (u := u) (t := u.quieted) ⟨rfl, rfl, rfl, rfl, rfl, rfl, rfl⟩
    (initialized_lower u) rfl (lower_slow u)
  have hpass : pass u = finishPass u.quieted := by
    rw [pass_of_not_held fun h => absurd (hs.symm.trans h.1) (by decide), handled_of_quiet hs ho]
  rw [hfin] at hpass hcr
  exact ⟨_, (step_eq_pass hd hr).trans (congrArg _ hpass), rfl, ⟨rfl, rfl, rfl, rfl⟩, fun _ => rfl,
    ⟨rfl, rfl, rfl, rfl, rfl⟩, rfl, rfl, rfl, rfl, rfl, rfl, hcr⟩

/-- Settles O34: the pass is its one handler and the idle loop. -/
theorem idlePassesAutoLaunch : Obligations.IdlePassesAutoLaunch := by
  intro s u hd hr hhold l v
  refine ⟨fun hi hnr => (initialized_handled hnr).trans hi, fun (hv : initialized u.handled = false) => ?_⟩
  have hpass : pass u = idleTick u.handled := by
    rw [pass_of_not_held fun h => hhold ⟨h.1, (startHolds_iff u).1 h.2⟩, finishPass_of_uninitialized hv]
  obtain ⟨hrun, hk, hf⟩ := handled_keeps u
  obtain ⟨run, cpu, htick, hcr⟩ := idleTick_countedRun hrun hk
  rw [htick] at hpass hcr
  exact ⟨_, (step_eq_pass hd hr).trans (congrArg _ hpass), rfl, hcr, fun _ => congrArg _ hf, rfl, ⟨rfl, rfl, rfl, rfl⟩,
    rfl, ⟨rfl, rfl, rfl, rfl, rfl⟩, rfl, rfl, rfl⟩

/-- Settles O35: the gate by the build's handshake, and each part of a step by whether it resets. -/
theorem handshakeGateIsStickyUntilReset : Obligations.HandshakeGateIsStickyUntilReset := by
  intro s
  refine ⟨fun h => by rw [initialized_iff, h], fun h => by rw [initialized_iff, h], fun t hst => ?_⟩
  obtain ⟨rest, hh, rfl⟩ | ⟨-, u, hd, hrun, ha⟩ := step_cases hst
  · exact ⟨fun _ => atReset_boot_of_cfg rfl, fun hn => absurd (.inl ⟨rest, hh⟩) hn⟩
  · rw [resets_iff hd]
    have hbus : AfterBus s u := delivered_onlyBus hd
    obtain ⟨hre, hat⟩ | ⟨hnr, hc, hk⟩ := advance_reset_or_keeps hrun ha
    · exact ⟨fun _ => atReset_of_cfg hbus.keeps.1 hat, fun hn => absurd hre hn⟩
    · have h1 : KeepsFlag .init1 s t := fun h => hk .init1 (by decide) (keepsFlag_of_flags hbus.flags h)
      have h2 : KeepsFlag .init2 s t := fun h => hk .init2 (by decide) (keepsFlag_of_flags hbus.flags h)
      exact ⟨fun h => absurd h hnr, fun _ => ⟨h1, h2, initialized_of_keepsFlag (hc.trans hbus.keeps.1) h1 h2⟩⟩

/-- Settles O36: the one slow operation that is due, in the order of R246. -/
theorem slowOperationsInStrictOrder : Obligations.SlowOperationsInStrictOrder := by
  intro s u hd hc hr hn hi
  refine ⟨slowOps u.completed, step_slowOps hd hr hn hi, fun hx => ?_, fun hx hdl => ?_, fun hx hdl hrd => ?_,
    fun hx hdl hrd => ?_⟩
  · rw [slowOps_exit hx]
    exact ⟨rfl, fun _ => rfl, rfl, completed_slow u, completed_other u⟩
  · rw [slowOps_erase hx hdl]
    refine ⟨deleteAll_run (s := u.completed) hr.1, fun a => ?_⟩
    rw [deleteAll_flash, read_eraseApplication (s := u.completed) hc]
    rfl
  · rw [slowOps_nothing hx hdl hrd]
    exact ⟨hr.1, fun _ => rfl, ⟨rfl, rfl, rfl, rfl, rfl⟩, rfl, completed_slow u, completed_other u⟩
  · rw [slowOps_commit hx hdl hrd, commitPage_eq]
    exact ⟨hr.1, rfl, rfl⟩

/-- Settles O38: a reset and a move of the CPU write no flash and end no run, and a pass does neither outside the NACK. -/
theorem slowOperationsOnlyAtANack : Obligations.SlowOperationsOnlyAtANack := by
  intro s u t hd hst
  obtain ⟨rest, hh, -⟩ | ⟨-, v, hv, hrun, ha⟩ := step_cases hst
  · rw [Delivered, hh] at hd; exact hd.elim
  obtain rfl := delivered_unique hd hv
  have hflash : u.flash = s.flash := (AfterBus.keeps (delivered_onlyBus hd)).2
  have stays : t.flash = u.flash → t.run = .running →
      (¬SameFlash s t → u.NackArm ∧ u.Runs ∧ initialized u = true) ∧
        (s.run = .running → initialized u = true → t.run ≠ .running → u.NackArm ∧ u.Runs) := fun hf hr =>
    ⟨fun hn => absurd (fun _ => by rw [hf, hflash]) hn, fun _ _ hn => absurd hr hn⟩
  obtain ⟨-, rfl⟩ | ⟨-, w, hw, hc⟩ | ⟨hre, hcpu, rfl⟩ := advance_cases ha
  · exact stays rfl rfl
  · obtain ⟨k, -, rfl⟩ := cpuStep_cases hw hc
    obtain he | he := arrive_cases u (jumpTarget w k) <;> rw [he] at stays ⊢
    · exact stays rfl rfl
    · exact stays rfl hrun
  · have hr : u.Runs := ⟨hrun, hre, hcpu⟩
    constructor
    · intro hn
      by_contra hno
      exact hn fun _ => by rw [pass_flash fun h => hno ⟨h.1, hr, h.2⟩, hflash]
    · intro _ hi hn
      by_contra hno
      exact hn ((pass_run (fun h => hno ⟨h, hr⟩) hi).trans hrun)

/-- Settles O29: the arm of CheckAddress is exec of what the byte decodes to. -/
theorem stepRunsTheDecodedAddress : Obligations.StepRunsTheDecodedAddress := by
  intro s u i hd hr hsc hp hdec
  cases hdec
  refine ⟨checkAddress (u.lower .slowOpsReady), exec_decodeAddress (u.lower .slowOpsReady), ?_⟩
  rw [step_eq_pass hd hr, pass_of_shiftComplete hsc, overflowHandler_checkAddress (s := u.lower .slowOpsReady) hp]

/-- Settles O37: by the outside's next turn. -/
theorem launchedBlockHasNoStep : Obligations.LaunchedBlockHasNoStep := by
  intro s w hw
  have stops : ∀ es r, stepBus es { s with host := r } = .fault (.launched w) := fun es r => by
    unfold stepBus; rw [hw]
  refine ⟨fun hno => ?_, fun rest hh => ⟨_, by rw [step, hh], rfl⟩⟩
  unfold step
  split
  · next rest hh => exact absurd hh (hno rest)
  · next es rest _ => exact stops es rest
  · exact stops [] s.host
end

section
/-! PROOFS. The statements of the peripheral's family (60_exceptions.md R264): what the eight clocks of a byte do, read off the
laws of runs of bit clocks. -/

namespace Sys2Proof.Machine

open Sys2Proof

/-- The first clocks of a byte carry its first bits. -/
theorem byteClocks_take (b : Byte) (n : Nat) :
    (byteClocks b).take n = (((List.range 8).map fun i => b.getLsbD (7 - i)).take n).map .clock := by
  rw [byteClocks_eq, List.map_take]

/-- A host that releases the line for a whole byte clocks eight ones. -/
theorem byteClocks_released : byteClocks 0xFF#8 = List.replicate 8 (.clock true) := by decide

theorem byteClocks_released_take {n : Nat} (h : n ≤ 8) :
    (byteClocks 0xFF#8).take n = List.replicate n (.clock true) := by
  rw [byteClocks_released, List.take_replicate, Nat.min_eq_left h]

/-- The eight clocks of a byte, not armed and with the line released: dr samples them all the same (R32). -/
theorem dr_after_byteClocks_unarmed {s u : State} {b : Byte} (h : deliverAll (byteClocks b) s = .ok u)
    (hr : s.restarting = false) (hs : s.periph.startFlag = false) (ha : s.armed = false) (hd : s.sdaDrive = false) :
    u.periph.dr = b := by
  obtain ⟨scl, hostSda, h'⟩ := clocks_unarmed (s := s) ((List.range 8).map fun i => b.getLsbD (7 - i)) hr hs ha hd
  rw [← byteClocks_eq, h] at h'
  cases h'
  exact shiftedIn_byte _ _

section Armed

/-! An armed peripheral at the beginning of a byte, with no flag pending. -/

variable {s : State} (hr : s.restarting = false) (hs : s.periph.startFlag = false) (ho : s.periph.ovfFlag = false)
  (ha : s.armed = true) (hc : s.bitCount = .eight) (h0 : s.periph.shifted = 0)
include hr hs ho ha hc h0

/-- Fewer than eight clocks of a sampled byte do not complete it (R264). -/
theorem ovfFlag_after_take_byteClocks (hd : s.sdaDrive = false) (b : Byte) {n : Nat} (hn : n ≤ 7) :
    ∃ u, deliverAll ((byteClocks b).take n) s = .ok u ∧ u.periph.ovfFlag = false := by
  have hlen : (((List.range 8).map fun i => b.getLsbD (7 - i)).take n).length = n := by
    simp only [List.length_take, List.length_map, List.length_range]; omega
  have h8 : s.bitCount.toNat = 8 := by rw [hc]; rfl
  obtain ⟨scl, hostSda, h⟩ := clocks_in (s := s) (((List.range 8).map fun i => b.getLsbD (7 - i)).take n) hr hs ha hd ho
    (by omega) (by omega)
  rw [byteClocks_take]
  exact ⟨_, h, decide_eq_false (by omega)⟩

/-- The eight clocks of a sampled byte: the byte is in dr and complete, the host has seen its bits, and the rest is as it was
(R264). -/
theorem deliverAll_byteClocks_in (hd : s.sdaDrive = false) (b : Byte) :
    ∃ scl hostSda, deliverAll (byteClocks b) s = .ok { s with
      seen := bitsSeen b ++ s.seen
      periph := { s.periph with scl := scl, hostSda := hostSda, dr := b, shifted := 8, ovfFlag := true } } := by
  have h8 : s.bitCount.toNat = 8 := by rw [hc]; rfl
  obtain ⟨scl, hostSda, h⟩ := clocks_in (s := s) ((List.range 8).map fun i => b.getLsbD (7 - i)) hr hs ha hd ho
    (by omega) (by simp only [List.length_map, List.length_range]; omega)
  rw [← byteClocks_eq, ← bitsSeen_eq, shiftedIn_byte, h0, h8] at h
  exact ⟨scl, hostSda, h⟩

/-- After n clocks of a driven byte the line carries the next bit (R264). -/
theorem sda_after_clocks_out (hd : s.sdaDrive = true) {n : Nat} (h1 : 1 ≤ n) (h7 : n ≤ 7) :
    ∃ u, deliverAll (List.replicate n (.clock true)) s = .ok u ∧ u.sda = s.periph.dr.getLsbD (7 - n) := by
  obtain ⟨scl, hostSda, dr, draws, hdr, hrel, h⟩ := clocks_out n hr hs ha hd hc ho h0 (by omega)
  have hbit : dr.getLsbD 7 = s.periph.dr.getLsbD (7 - n) := by
    have := hdr (7 - n) (by omega)
    rwa [Nat.sub_add_cancel h7] at this
  refine ⟨_, h, ?_⟩
  rw [State.sda_driven (by exact hd)]
  simp only [hrel h1, hbit, Bool.true_and]

end Armed

end Sys2Proof.Machine

open Sys2Proof Sys2Proof.Machine

/-- Settles O26: a byte sampled while armed, in part and whole, and one clocked past a peripheral that is not armed. -/
theorem eightClocksShiftAByteIn : Obligations.EightClocksShiftAByteIn := by
  intro s b hr hs ho
  refine ⟨fun ha hd hc h0 => ⟨fun n hn => ovfFlag_after_take_byteClocks hr hs ho ha hc h0 hd b hn, ?_⟩, fun ha => ?_⟩
  · obtain ⟨scl, hostSda, h⟩ := deliverAll_byteClocks_in hr hs ho ha hc h0 hd b
    exact ⟨_, h, rfl, rfl, rfl, rfl, rfl, rfl, rfl, rfl⟩
  · obtain ⟨u, hu, hovf, hcount⟩ := clocks_unarmed_count ((List.range 8).map fun i => b.getLsbD (7 - i)) hr hs ha
    rw [← byteClocks_eq] at hu
    exact ⟨u, hu, hovf.trans ho, hcount, dr_after_byteClocks_unarmed hu hr hs ha⟩

/-- Settles O27: the driven line at once, after n clocks, and what eight clocks have shown the host. -/
theorem eightClocksShiftAByteOut : Obligations.EightClocksShiftAByteOut := by
  intro s hr hs ho ha hd hc h0
  refine ⟨State.sda_driven hd, fun n h1 h7 => ?_, ?_⟩
  · rw [byteClocks_released_take (by omega)]
    exact sda_after_clocks_out hr hs ho ha hc h0 hd h1 h7
  · obtain ⟨scl, hostSda, dr, draws, -, -, h⟩ := clocks_out 8 hr hs ha hd hc ho h0 (Nat.le_refl 8)
    rw [byteClocks_released]
    exact ⟨_, h, rfl, rfl, rfl, rfl, rfl, rfl⟩
end

section
/-! PROOFS. The statements of the reset's and the hazards' family (70_reset_and_hazards.md): the bus events a duty of the host
forbids, and the reset from outside. -/

namespace Sys2Proof.Machine

open Sys2Proof

variable {s : State}

/-! ## The hazard conditions (R20 H4 and H5) -/

theorem nackPending_iff : nackPending s = true ↔
    s.armed = true ∧ s.periph.ovfFlag = true ∧ s.phase = .checkAck ∧ s.periph.dr.getLsbD 0 = true := by
  simp only [nackPending, Bool.and_eq_true, beq_iff_eq, and_assoc]

theorem quietGap_iff : quietGap s = true ↔
    s.restarting = true ∨
      (s.armed = true ∧ s.periph.ovfFlag = true ∧ s.phase = .checkAck ∧ s.periph.dr.getLsbD 0 = true) := by
  rw [quietGap, Bool.or_eq_true, nackPending_iff, or_comm]

theorem handlerPending_iff :
    handlerPending s = true ↔ s.periph.startFlag = true ∨ (s.armed = true ∧ s.periph.ovfFlag = true) := by
  rw [handlerPending, Bool.or_eq_true, Bool.and_eq_true]

/-- No gap is due outside the wait where the shift-complete is not a NACK's. -/
theorem quietGap_eq_false (hr : s.restarting = false) (hn : s.phase ≠ .checkAck ∨ s.periph.dr.getLsbD 0 = false) :
    quietGap s = false := by
  rw [Bool.eq_false_iff, Ne, quietGap_iff]
  rintro (hw | ⟨-, -, hp, hbit⟩)
  · exact Bool.false_ne_true (hr.symm.trans hw)
  · exact hn.elim (· hp) fun h => Bool.false_ne_true (h.symm.trans hbit)

/-! ## The refused events (R303) -/

/-- A turn ends in the refusal of its first event. -/
theorem deliverAll_of_error {e : BusEvent} {r : Refusal} (es : List BusEvent) (h : deliver e s = .error r) :
    deliverAll (e :: es) s = .error r := by
  rw [deliverAll, h]

theorem deliver_start_of_quietGap (h : quietGap s = true) : deliver .start s = .error .quietGapBroken :=
  if_pos h

theorem deliver_clock_of_quietGap (bit : Bool) (h : quietGap s = true) :
    deliver (.clock bit) s = .error .quietGapBroken :=
  if_pos h

theorem deliver_clock_of_handlerPending (bit : Bool) (hq : quietGap s = false) (hp : handlerPending s = true) :
    deliver (.clock bit) s = .error .realTimeBroken := by
  rw [deliver, if_neg (by rw [hq]; exact Bool.false_ne_true), if_pos hp]

/-! ## The reset from outside (R290) -/

/-- A turn that is a reset boots the block, whatever it was doing (R290). -/
theorem step_of_reset {rest : List Turn} (h : s.host = .reset :: rest) :
    step s = .next ({ s with host := rest } : State).boot := by
  rw [step, h]

end Sys2Proof.Machine

open Sys2Proof Sys2Proof.Machine

/-- Settles O28: the quiet gap is asked for first, of a start and of a clock, and then of a clock whether an edge is
unhandled. -/
theorem brokenHostDutiesAreRefused : Obligations.BrokenHostDutiesAreRefused := by
  intro s bit rest
  refine ⟨fun hgap => ?_, fun hr hn hp => ?_⟩
  · have hq : quietGap s = true := quietGap_iff.mpr hgap
    exact ⟨deliverAll_of_error rest (deliver_start_of_quietGap hq),
      deliverAll_of_error rest (deliver_clock_of_quietGap bit hq)⟩
  · have hq : quietGap s = false := quietGap_eq_false hr hn
    exact deliverAll_of_error rest (deliver_clock_of_handlerPending bit hq (handlerPending_iff.mpr hp))

/-- Settles O48: the step is the boot of the state behind the reset turn, and each field is the boot's. -/
theorem resetSetsTheTableR49 : Obligations.ResetSetsTheTableR49 := by
  intro s rest hh
  refine ⟨_, step_of_reset hh, ?_⟩
  simp only [State.boot_phase, State.boot_armed, State.boot_sdaDrive, State.boot_bitCount, State.boot_pageAddress,
    State.boot_pageIndex, State.boot_flags, State.boot_rx, State.boot_tx, Ring.empty, State.boot_idleCount, State.boot_run,
    State.boot_periph, State.boot_interruptsEnabled, State.boot_cfg, State.boot_flash, State.boot_host, and_self]
end
